-- ==== Sys2Proof/Word.lean ====
section
/-! DEFINITION. The word types of EGE-RQCC (00_scope.md R10): bytes of a record, 16-bit fields, 32-bit queue
entries and colors, 128-bit request and response words. -/

namespace Sys2Proof

/-- `u8`: one byte of an encoded buffer, a layer, a UNIT field (R10). -/
abbrev Byte := BitVec 8

/-- The 16-bit pattern of a signed field x, y, w or h (R10, R26); its number is `BitVec.toInt`. -/
abbrev Half := BitVec 16

/-- `u32`: a queue entry (ENTRY_WIDTH = 32, R7), a color, a length, an index. -/
abbrev Word32 := BitVec 32

/-- A request or a response word of a port (R53). -/
abbrev Packet := BitVec 128

end Sys2Proof
end

