-- ==== Sys2Proof/Config.lean ====
section
/-! DEFINITION. What is fixed before reset: the agents, the configuration parameters of 00_scope.md R7 with their
legality check, the decoded Command type, and the free values (constants without a body). -/

namespace Sys2Proof

/-- The two agents that issue requests (R6, R111). -/
inductive Agent where
  | producer
  | consumer
  deriving DecidableEq, Repr, Inhabited

/-- The agent that is not this one (R46). -/
def Agent.other : Agent → Agent
  | .producer => .consumer
  | .consumer => .producer

/-- The identifier of an agent, P = 0 and C = 1 (R29, R111). -/
def Agent.ident : Agent → BitVec 1
  | .producer => 0#1
  | .consumer => 1#1

/-- One decoded record (R26). Layer and color are unsigned patterns, x to h are 16-bit two's complement. -/
inductive Command where
  | clear (color : Word32)
  | rect (layer : Byte) (color : Word32) (x y w h : Half)
  deriving DecidableEq, Repr, Inhabited

/-- The parameters of one ring queue: QCAP[q], PUSHER[q], POPPER[q] (R7). -/
structure QueueConfig where
  cap : Nat
  pusher : Agent
  popper : Agent
  deriving DecidableEq, Repr, Inhabited

/-- The configuration parameters of R7. NQ is the number of entries of `queues`. -/
structure Config where
  queues : List QueueConfig
  nbuf : Nat
  bufcap : Nat
  fbcap : Nat
  deriving DecidableEq, Repr

/-- NQ, the number of ring queues (R7). -/
def Config.nq (c : Config) : Nat := c.queues.length

/-- What a queue number at or beyond NQ would be configured as; no request reaches it (BAD_UNIT comes first, R100). -/
def QueueConfig.absent : QueueConfig := ⟨2, .producer, .consumer⟩

/-- The parameters of queue `q`. -/
def Config.queue (c : Config) (q : Nat) : QueueConfig := c.queues.getD q QueueConfig.absent

/-- A legal slot count: 2^k with 1 <= k <= 31 (R7, R8). -/
def legalCap (n : Nat) : Bool := (List.range 31).any fun k => n == 2 ^ (k + 1)

/-- The constraints of R7 on one queue. -/
def QueueConfig.legal (q : QueueConfig) : Bool := legalCap q.cap && (q.pusher != q.popper)

/-- The constraints of the table of R7. A configuration that breaks one has no machine (R7, R8). -/
def Config.legal (c : Config) : Bool :=
  decide (1 ≤ c.nq) && decide (c.nq ≤ 256) && c.queues.all QueueConfig.legal &&
  decide (1 ≤ c.nbuf) && decide (c.nbuf ≤ 256) &&
  decide (c.bufcap < 2 ^ 32) && decide (c.fbcap < 2 ^ 32)

/-- The configuration of `State.reset`: queue 0 is FREE (C pushes, P pops), queue 1 is READY (P pushes, C pops),
8 slots each, 4 buffers of 256 bytes, 16 frame-buffer entries.
DESIGN CHOICE (log 2): unsafe if read as the one configuration; R7 leaves every value to the configuration. -/
def Config.default : Config where
  queues := [⟨8, .consumer, .producer⟩, ⟨8, .producer, .consumer⟩]
  nbuf := 4
  bufcap := 256
  fbcap := 16

/-- FREE VALUE (log 1, safe): which agent goes when both can, at the n-th such choice. Every interleaving is a
possible run (R12, R48, 93 V12); nothing constrains this constant. -/
opaque Config.arbiter : Nat → Agent

/-- FREE VALUE (log 8, safe): what a slot nothing has written would read as. R16: never observed in a run. -/
opaque Config.unwrittenSlot : Nat → Word32

/-- FREE VALUE (log 8, safe): what a frame-buffer entry nothing has written would read as. R28: never observed. -/
opaque Config.unwrittenEntry : Nat → Command

end Sys2Proof
end

