-- ==== Sys2Proof/Syntax.lean ====
section
/-! DEFINITION. The instructions of EGE-RQCC: one constructor for each row of spec/opcode_table.json, the ten
requests (30_encoding.md R55), the two rows of reserved OP values (R59) and the three record rows (R60 to R62). -/

namespace Sys2Proof

/-- One constructor per row of the opcode table; the fields are those of R56 for a request and of R60 to R62 for
a record. -/
inductive Instr where
  /-- PUSH q, value (R67) -/
  | push (q : Byte) (value : Word32)
  /-- POP q (R68) -/
  | pop (q : Byte)
  /-- ENC_BEGIN b (R72) -/
  | encBegin (b : Byte)
  /-- PUSH_CLEAR b, color (R73) -/
  | pushClear (b : Byte) (color : Word32)
  /-- PUSH_RECT b, layer, color, x, y, w, h (R74) -/
  | pushRect (b : Byte) (layer : Byte) (color : Word32) (x y w h : Half)
  /-- ENC_SEAL b (R75) -/
  | encSeal (b : Byte)
  /-- ENC_SIZE b (R76) -/
  | encSize (b : Byte)
  /-- DECODE b (R83) -/
  | decode (b : Byte)
  /-- DECODE_N b, len (R84) -/
  | decodeN (b : Byte) (len : Word32)
  /-- FB_READ i (R85) -/
  | fbRead (idx : Word32)
  /-- A request word whose OP is 0xA or 0xB (R59); `rest` is bits 127:4 of the word, any value. -/
  | reservedOpAB (op : BitVec 4) (rest : BitVec 124)
  /-- A request word whose OP is 0xC to 0xF (R59); `rest` is bits 127:4 of the word, any value. -/
  | reservedOpCF (op : BitVec 4) (rest : BitVec 124)
  /-- A Clear record of 5 bytes (R60) -/
  | recClear (color : Word32)
  /-- A Rect record of 14 bytes (R61) -/
  | recRect (layer : Byte) (color : Word32) (x y w h : Half)
  /-- An unrecognized record opcode byte, 0x02 to 0xFF (R62) -/
  | recUnrecognized (op : Byte)
  deriving DecidableEq, Repr

end Sys2Proof
end

