-- ==== Sys2Proof/WellFormed.lean ====
section
/-! DEFINITION. Which terms of `Instr` stand for an encoding. Every field of a request or a record takes every
value of its width (30_encoding.md R64); only the opcode fields of the reserved and unrecognized rows are bounded. -/

namespace Sys2Proof

/-- OP 0xA or 0xB, row RESERVED_OP_A_B (R59). -/
def isOpAB (op : BitVec 4) : Bool := op == 0xA#4 || op == 0xB#4

/-- OP 0xC to 0xF, row RESERVED_OP_C_F (R59). -/
def isOpCF (op : BitVec 4) : Bool := decide (0xC ≤ op.toNat)

/-- A record opcode byte that is neither Clear nor Rect, row REC_UNRECOGNIZED (R62). -/
def isUnrecognized (op : Byte) : Bool := decide (2 ≤ op.toNat)

/-- The check of one instruction. -/
def Instr.wellFormed : Instr → Bool
  | .push _ _ => true
  | .pop _ => true
  | .encBegin _ => true
  | .pushClear _ _ => true
  | .pushRect _ _ _ _ _ _ _ => true
  | .encSeal _ => true
  | .encSize _ => true
  | .decode _ => true
  | .decodeN _ _ => true
  | .fbRead _ => true
  | .reservedOpAB op _ => isOpAB op
  | .reservedOpCF op _ => isOpCF op
  | .recClear _ => true
  | .recRect _ _ _ _ _ _ => true
  | .recUnrecognized op => isUnrecognized op

end Sys2Proof
end

