-- ==== Sys2Proof/Decode.lean ====
section
/-! DEFINITION. The decoder and the encoder. Request words: 30_encoding.md R54 to R56 and R59. Records: R60 to R63,
with the byte order of 20_memory.md R35, the parse functions of 42_decoder.md R80 and R81 and the record encoding
of 41_encoder.md R71. Both directions are total; what is not an encoding is rejected by name. -/

namespace Sys2Proof

/-! ### Byte order (R10, R35) -/

/-- The `n` bytes of a number, least significant byte first: `le_N` (R10) with n = N/8. -/
def leBytes : Nat → Nat → List Byte
  | 0, _ => []
  | n + 1, v => BitVec.ofNat 8 v :: leBytes n (v / 256)

/-- The number a byte sequence stands for, least significant byte first. -/
def fromLeNat : List Byte → Nat
  | [] => 0
  | b :: bs => b.toNat + 256 * fromLeNat bs

/-- `from_le` into a field of `width` bits (R10). -/
def fromLe (width : Nat) (bs : List Byte) : BitVec width := BitVec.ofNat width (fromLeNat bs)

/-- `le_16` (R10). -/
def le16 (v : Half) : List Byte := leBytes 2 v.toNat

/-- `le_32` (R10). -/
def le32 (v : Word32) : List Byte := leBytes 4 v.toNat

/-! ### Records (R60 to R63, R71, R80, R81) -/

/-- The record encoding function `enc` (R71). -/
def encodeCommand : Command → List Byte
  | .clear color => 0x00#8 :: le32 color
  | .rect layer color x y w h => 0x01#8 :: layer :: (le32 color ++ le16 x ++ le16 y ++ le16 w ++ le16 h)

/-- `size` (R71): the bytes of a command's record. -/
def commandSize : Command → Nat
  | .clear _ => 5
  | .rect _ _ _ _ _ _ => 14

/-- The length of a record, decided by its opcode byte alone; none where the opcode is unrecognized (R62, R63). -/
def recordSize (op : Byte) : Option Nat :=
  if op = 0x00#8 then some 5 else if op = 0x01#8 then some 14 else none

/-- `parse(0x00, p)` (R80). -/
def parseClear (p : List Byte) : Command := .clear (fromLe 32 (p.take 4))

/-- `parse(0x01, p)` (R81). -/
def parseRect (p : List Byte) : Command :=
  .rect (fromLe 8 (p.take 1)) (fromLe 32 ((p.drop 1).take 4)) (fromLe 16 ((p.drop 5).take 2))
    (fromLe 16 ((p.drop 7).take 2)) (fromLe 16 ((p.drop 9).take 2)) (fromLe 16 ((p.drop 11).take 2))

/-- `parse(op, p)` of R79, for a recognized opcode. -/
def parseCommand (op : Byte) (p : List Byte) : Command :=
  if op = 0x00#8 then parseClear p else parseRect p

/-- The record row a command's record is of. -/
def Command.toInstr : Command → Instr
  | .clear color => .recClear color
  | .rect layer color x y w h => .recRect layer color x y w h

/-- Why bytes or a word are no instruction. -/
inductive DecodeError where
  /-- RSV_A is not zero (R54, R59) -/
  | rsvANotZero
  /-- RSV_B is not zero (R54, R59) -/
  | rsvBNotZero
  /-- a field that R56 does not list for the OP is not zero (R59) -/
  | unusedFieldNotZero (op : BitVec 4)
  /-- no byte at all where a record should stand -/
  | noRecord
  /-- fewer bytes than the opcode's record has (R63) -/
  | truncatedRecord (op : Byte)
  /-- bytes are left behind one record -/
  | trailingBytes (n : Nat)
  deriving DecidableEq, Repr

/-- The first record of a byte sequence and the bytes behind it (R62, R63). Of an unrecognized record only the
opcode byte is taken: nothing says how long it is. -/
def decodeRecord : List Byte → Except DecodeError (Instr × List Byte)
  | [] => .error .noRecord
  | op :: rest =>
    match recordSize op with
    | none => .ok (.recUnrecognized op, rest)
    | some size =>
      if rest.length < size - 1 then .error (.truncatedRecord op)
      else .ok ((parseCommand op (rest.take (size - 1))).toInstr, rest.drop (size - 1))

/-! ### Request words (R54 to R56, R59) -/

/-- The fields of a request word (R54). -/
structure RequestFields where
  op : BitVec 4
  rsvA : BitVec 4
  unit : Byte
  layer : Byte
  rsvB : Byte
  val : Word32
  x : Half
  y : Half
  w : Half
  h : Half
  deriving DecidableEq, Repr

/-- The layout of R54, read. -/
def requestFields (r : Packet) : RequestFields where
  op := r.extractLsb' 0 4
  rsvA := r.extractLsb' 4 4
  unit := r.extractLsb' 8 8
  layer := r.extractLsb' 16 8
  rsvB := r.extractLsb' 24 8
  val := r.extractLsb' 32 32
  x := r.extractLsb' 64 16
  y := r.extractLsb' 80 16
  w := r.extractLsb' 96 16
  h := r.extractLsb' 112 16

/-- A field of a port word, standing from bit `lo` up. -/
def place {width : Nat} (lo : Nat) (v : BitVec width) : Packet := v.setWidth 128 <<< lo

/-- The layout of R54, written. -/
def requestWordOf (f : RequestFields) : Packet :=
  place 0 f.op ||| place 4 f.rsvA ||| place 8 f.unit ||| place 16 f.layer ||| place 24 f.rsvB ||| place 32 f.val |||
  place 64 f.x ||| place 80 f.y ||| place 96 f.w ||| place 112 f.h

/-- LAYER and X to H are zero: every OP but PUSH_RECT (R56). -/
def RequestFields.noRect (f : RequestFields) : Bool :=
  f.layer == 0 && f.x == 0 && f.y == 0 && f.w == 0 && f.h == 0

/-- The words that use UNIT alone (R56). -/
def RequestFields.unitOnly (f : RequestFields) : Bool := f.noRect && f.val == 0

/-- The words that use VAL alone (R56): UNIT must be zero as well. -/
def RequestFields.valOnly (f : RequestFields) : Bool := f.noRect && f.unit == 0

/-- `i` where the fields an OP does not use are zero, else ILLEGAL_REQUEST's reason (R56, R59). -/
def RequestFields.guardUnused (f : RequestFields) (ok : Bool) (i : Instr) : Except DecodeError Instr :=
  if ok then .ok i else .error (.unusedFieldNotZero f.op)

/-- The OP map (R55) with the operand fields of R56, for a word whose reserved fields are zero. -/
def RequestFields.select (f : RequestFields) : Except DecodeError Instr :=
  if f.op = 0x0#4 then f.guardUnused f.noRect (.push f.unit f.val)
  else if f.op = 0x1#4 then f.guardUnused f.unitOnly (.pop f.unit)
  else if f.op = 0x2#4 then f.guardUnused f.unitOnly (.encBegin f.unit)
  else if f.op = 0x3#4 then f.guardUnused f.noRect (.pushClear f.unit f.val)
  else if f.op = 0x4#4 then .ok (.pushRect f.unit f.layer f.val f.x f.y f.w f.h)
  else if f.op = 0x5#4 then f.guardUnused f.unitOnly (.encSeal f.unit)
  else if f.op = 0x6#4 then f.guardUnused f.unitOnly (.encSize f.unit)
  else if f.op = 0x7#4 then f.guardUnused f.unitOnly (.decode f.unit)
  else if f.op = 0x8#4 then f.guardUnused f.noRect (.decodeN f.unit f.val)
  else f.guardUnused f.valOnly (.fbRead f.val)

/-- The instruction of a request word. A reserved OP is an instruction of its own row, whatever the other bits
(R59, the opcode table); any other word that breaks R59 is rejected by name. -/
def decodeRequest (r : Packet) : Except DecodeError Instr :=
  let f := requestFields r
  if isOpAB f.op then .ok (.reservedOpAB f.op (r.extractLsb' 4 124))
  else if isOpCF f.op then .ok (.reservedOpCF f.op (r.extractLsb' 4 124))
  else if f.rsvA ≠ 0 then .error .rsvANotZero
  else if f.rsvB ≠ 0 then .error .rsvBNotZero
  else f.select

/-! ### Encodings of both kinds -/

/-- Where an instruction stands: a word on a request port, or bytes of an encoded buffer. -/
inductive Encoded where
  | request (r : Packet)
  | record (bytes : List Byte)
  deriving DecidableEq, Repr

/-- The decoder: total, rejecting by name. -/
def decode : Encoded → Except DecodeError Instr
  | .request r => decodeRequest r
  | .record bytes =>
    match decodeRecord bytes with
    | .error e => .error e
    | .ok (i, []) => .ok i
    | .ok (_, rest) => .error (.trailingBytes rest.length)

/-- The request word with OP, UNIT, VAL as given and every other field zero (R56). -/
def plainRequest (op : BitVec 4) (unit : Byte) (val : Word32) : Packet :=
  requestWordOf { op, rsvA := 0, unit, layer := 0, rsvB := 0, val, x := 0, y := 0, w := 0, h := 0 }

/-- The encoder (R54 to R56, R60, R61). -/
def encode : Instr → Encoded
  | .push q value => .request (plainRequest 0x0 q value)
  | .pop q => .request (plainRequest 0x1 q 0)
  | .encBegin b => .request (plainRequest 0x2 b 0)
  | .pushClear b color => .request (plainRequest 0x3 b color)
  | .pushRect b layer color x y w h =>
    .request (requestWordOf { op := 0x4, rsvA := 0, unit := b, layer, rsvB := 0, val := color, x, y, w, h })
  | .encSeal b => .request (plainRequest 0x5 b 0)
  | .encSize b => .request (plainRequest 0x6 b 0)
  | .decode b => .request (plainRequest 0x7 b 0)
  | .decodeN b len => .request (plainRequest 0x8 b len)
  | .fbRead idx => .request (plainRequest 0x9 0 idx)
  | .reservedOpAB op rest => .request (place 0 op ||| place 4 rest)
  | .reservedOpCF op rest => .request (place 0 op ||| place 4 rest)
  | .recClear color => .record (encodeCommand (.clear color))
  | .recRect layer color x y w h => .record (encodeCommand (.rect layer color x y w h))
  | .recUnrecognized op => .record [op]

/-- The request word of an instruction that is a request (a record is on no port: the zero word stands there and
nothing reads it). -/
def requestWord (i : Instr) : Packet :=
  match encode i with
  | .request r => r
  | .record _ => 0

/-- Requests, the constructors that stand on a port (R53). -/
def Instr.isRequest (i : Instr) : Bool :=
  match encode i with
  | .request _ => true
  | .record _ => false

/-! ### Words as the opcode table numbers them -/

/-- Whether a word of the table is a record: the table gives a record row its opcode byte (8 bits) or its whole
length (5 or 14 bytes). In 8 bits the OP values 0xA to 0xF are also the whole of what the reserved rows fix, so
they are read as requests. DESIGN CHOICE (log 10): the table numbers two kinds of encoding in one list. -/
def isRecordWord (nbits w : Nat) : Bool :=
  (decide (nbits ≤ 8) && !(decide (0xA ≤ w) && decide (w ≤ 0xF))) ||
  (decide (nbits = 40) && decide (w % 256 = 0)) || (decide (nbits = 112) && decide (w % 256 = 1))

/-- The bytes of a record word, with zeros above its bits, up to the longest record. -/
def recordBytesOf (w : Nat) : List Byte := leBytes 14 w

/-- The instruction the decoder reads from a word as the opcode table numbers its bits. -/
def decodeTableWord (nbits w : Nat) : Option Instr :=
  if isRecordWord nbits w then
    match decodeRecord (recordBytesOf w) with
    | .ok (i, _) => some i
    | .error _ => none
  else
    match decodeRequest (BitVec.ofNat 128 w) with
    | .ok i => some i
    | .error _ => none

end Sys2Proof
end

