-- ==== Sys2Proof/Machine/State.lean ====
section
/-! DEFINITION. The state of EGE-RQCC as plain data (10_state.md), with the agents, the host and the working
registers of one step beside it, the reasons a step can stop, and the state after reset (R113). -/

namespace Sys2Proof.Machine

/-! ### Storage -/

/-- A storage space of which nothing is written at reset: the written places and what they hold, places strictly
rising. A place that is not listed is unwritten (R16, R21). -/
abbrev Sparse (α : Type) := List (Nat × α)

/-- The byte region of one buffer (R21): offsets with their bytes. An unlisted offset reads as "unwritten". -/
abbrev Memory := List Host.Cell

/-- A vector clock: its component for P and its component for C (R20, R30). -/
structure Clock where
  p : Nat
  c : Nat
  deriving DecidableEq, Repr

/-- A written slot: q.slot[i] (R16) with its clock snapshot q.sclk[i] (R20). -/
structure Slot where
  val : Word32
  clk : Clock
  deriving DecidableEq, Repr

/-- One ring queue (R16 to R20). -/
structure Queue where
  head : Nat
  tail : Nat
  slots : Sparse Slot
  deriving DecidableEq, Repr

/-- One encoded buffer (R21 to R24) with its access record BW[b], BR[b] (R31). -/
structure Buffer where
  bytes : Memory
  cursor : Nat
  writable : Bool
  /-- BW[b]: the agent and the epoch of the last write -/
  lastWrite : Option (Agent × Nat)
  /-- BR[b]: per agent the epoch of its last read since the last write, 0 for none -/
  lastRead : Clock
  deriving DecidableEq, Repr

/-- The frame buffer (R27, R28). `entry` lists the entries that have been written, a prefix of the FBCAP entries:
every decode writes entries from 0 on. DEDUCED (log 13). -/
structure FrameBuffer where
  count : Nat
  entry : List Command
  deriving DecidableEq, Repr

/-- The FAULT register (R29). -/
structure FaultReg where
  valid : Bool
  cause : BitVec 4
  agent : BitVec 1
  req : Packet
  deriving DecidableEq, Repr

/-- The fault causes of the block (60_exceptions.md R90). -/
inductive Cause where
  | illegalRequest
  | badUnit
  | portViolation
  | dataRace
  | encNotWritable
  | encOverflow
  | badLength
  | fbIndex
  | unwrittenRead
  deriving DecidableEq, Repr

/-- Read or write, of a whole buffer (20_memory.md R46). -/
inductive AccessKind where
  | read
  | write
  deriving DecidableEq, Repr

/-- Why a decode stopped (42_decoder.md R82). -/
inductive StopReason where
  | exhausted
  | truncated
  | badOpcode
  | fbFull
  deriving DecidableEq, Repr

/-- The variables of the decode procedure (R79): len, pos, new_entry (n is its length), and the reason once the
loop is left. The model's own, idle between steps (log 7). -/
structure DecodeWork where
  len : Nat
  pos : Nat
  out : List Command
  stop : Option StopReason
  deriving DecidableEq, Repr

/-! ### The agents and the host (outside the block) -/

/-- A value an agent computes from its own variables (30_encoding.md R65): `ok` and `val` take a field of a response
word the agent holds. DESIGN CHOICE, unsafe for claims about every script: R14 and R65 leave open what an agent can
compute; that these two fields, constants and sums are all is the model's (log 4). -/
inductive LocalExpr where
  | const (n : Nat)
  | var (v : Nat)
  | ok (e : LocalExpr)
  | val (e : LocalExpr)
  | add (e f : LocalExpr)
  deriving DecidableEq, Repr

/-- A condition on an agent's own variables (R65). DESIGN CHOICE, unsafe for claims about every script: R65 leaves open
what a condition is; equality and order of two values are the model's (log 4). -/
inductive LocalCond where
  | eq (e f : LocalExpr)
  | lt (e f : LocalExpr)
  deriving DecidableEq, Repr

/-- One position of an agent's script: it issues a request, changes or tests an agent-local value, or stops
(R65, 70 R120). A request is a word in which the agent may put its own values as UNIT and as VAL; that these are the only
fields it can fill is the model's (DESIGN CHOICE, unsafe for claims about every script; log 4). -/
inductive ScriptLine where
  /-- `r <- request`: the response goes to variable `dst` -/
  | issue (dst : Nat) (base : Packet) (unit val : Option LocalExpr)
  | assign (dst : Nat) (e : LocalExpr)
  | branch (c : LocalCond) (target : Nat)
  | goto (target : Nat)
  | stop
  deriving DecidableEq, Repr

/-- One agent: its script, its position in it, its variables, and the response last delivered to it. -/
structure AgentPort where
  script : List ScriptLine
  pos : Nat
  vars : Sparse Nat
  resp : Option Packet
  deriving DecidableEq, Repr

/-- What the host may do to the block (70_reset_and_hazards.md R113 to R119). -/
inductive HostAction where
  | reset
  | preload (q : Nat) (value : Word32)
  | release
  deriving DecidableEq, Repr

/-- Whether the host has released the agents (R114, R118). -/
inductive Phase where
  | held
  | released
  deriving DecidableEq, Repr

/-! ### The state -/

/-- Everything the spec gives the machine, and the model's own fields from `phase` on (INVENTORY.md). -/
structure State where
  /-- the configuration (R7): no step changes it -/
  cfg : Config
  /-- the ring queues 0 to NQ - 1 -/
  queues : List Queue
  /-- the encoded buffers 0 to NBUF - 1 -/
  bufs : List Buffer
  /-- the frame buffer -/
  fb : FrameBuffer
  /-- the FAULT register -/
  fault : FaultReg
  /-- VC[P] -/
  vcP : Clock
  /-- VC[C] -/
  vcC : Clock
  /-- whether the agents are released -/
  phase : Phase
  /-- the host actions to come -/
  host : List HostAction
  /-- agent P -/
  agentP : AgentPort
  /-- agent C -/
  agentC : AgentPort
  /-- the agent whose request is being performed -/
  issuer : Agent
  /-- the working registers of the decode procedure -/
  dec : DecodeWork
  /-- which agent goes at the coming choices, where that is given -/
  sched : List Agent
  /-- how many choices between the two agents have been made -/
  turns : Nat
  deriving DecidableEq, Repr

/-- Why the machine stands still. -/
inductive Fault where
  /-- Raised by every request, and by a step, of a block whose FAULT.valid is 1 and that the host does not reset:
  the block has no enabled step (R103, log 12). Safe. -/
  | halted
  deriving DecidableEq, Repr

/-- What the model has no machine or no run for. -/
inductive Refusal where
  /-- Raised by exec's arm of an instruction without a meaning; no arm of this model. Safe. -/
  | notModelled (mnemonic : String)
  /-- Raised by `State.configure` and by a step where the configuration breaks R7: the model has no machine for
  it (R7, R8). Safe. -/
  | illegalConfig
  /-- Raised by a step whose host action is a preload on a full queue: the model has no run for it (R115). Safe. -/
  | preloadFull
  /-- Raised by a step whose host action is a preload on a queue number at or beyond NQ; the spec gives it no effect
  (log 9). Safe. -/
  | preloadNoQueue
  deriving DecidableEq, Repr

/-! ### Reset (R113) -/

/-- The clock (0, 0). -/
def Clock.zero : Clock := ⟨0, 0⟩

/-- A queue after reset: both cursors 0, every slot unwritten (R16 to R18, R20). -/
def Queue.reset : Queue := ⟨0, 0, []⟩

/-- A buffer after reset: every byte unwritten, cursor 0, not writable, no access recorded (R21, R23, R24, R31). -/
def Buffer.reset : Buffer := ⟨[], 0, false, none, Clock.zero⟩

/-- The frame buffer after reset (R27, R28). -/
def FrameBuffer.reset : FrameBuffer := ⟨0, []⟩

/-- FAULT after reset (R29). -/
def FaultReg.reset : FaultReg := ⟨false, 0, 0, 0⟩

/-- The decode procedure's variables while no decode runs. DESIGN CHOICE (log 7). -/
def DecodeWork.idle : DecodeWork := ⟨0, 0, [], none⟩

/-- An agent that has no script: it issues nothing. DESIGN CHOICE (log 4). -/
def AgentPort.idle : AgentPort := ⟨[], 0, [], none⟩

/-- The block of configuration `c` right after reset: every piece of state at the value R113 gives it, both agents
held (R114). The fields that are not the block's are empty (logs 1, 3, 4, 5, 6, 7). -/
def State.ofConfig (c : Config) : State where
  cfg := c
  queues := List.replicate c.nq Queue.reset
  bufs := List.replicate c.nbuf Buffer.reset
  fb := FrameBuffer.reset
  fault := FaultReg.reset
  vcP := ⟨1, 0⟩
  vcC := ⟨0, 1⟩
  phase := .held
  host := []
  agentP := AgentPort.idle
  agentC := AgentPort.idle
  issuer := .producer
  dec := DecodeWork.idle
  sched := []
  turns := 0

/-- The machine right after reset, in the configuration the model names (log 2). -/
def State.reset : State := State.ofConfig Config.default

end Sys2Proof.Machine
end

