-- ==== Sys2Proof/Machine/Flags.lean ====
section
/-! DEFINITION. The condition outputs of a request (10_state.md R15): OK, from a queue's occupancy (R19), and REASON,
why a decode stopped (42_decoder.md R79, R82); and the numbers of the fault causes (60_exceptions.md R90). -/

namespace Sys2Proof.Machine

/-! ### Occupancy of a queue and OK (R19) -/

/-- The cursor after `i` in a queue of `cap` slots: `(i + 1) AND M` (R19, R67, R68). -/
def cursorNext (cap i : Nat) : Nat := (i + 1) &&& (cap - 1)

/-- `full(q)` (R19). -/
def Queue.full (cap : Nat) (Q : Queue) : Bool := cursorNext cap Q.head == Q.tail

/-- `empty(q)` (R19). -/
def Queue.empty (Q : Queue) : Bool := Q.head == Q.tail

/-- `count(q) = (q.head - q.tail) mod N` (R19), for cursors below N. -/
def Queue.count (cap : Nat) (Q : Queue) : Nat := (Q.head + cap - Q.tail) % cap

/-- OK as a bit of the response (R57). -/
def okBit (ok : Bool) : BitVec 1 := BitVec.ofBool ok

/-! ### REASON (R79, R82) -/

/-- The code of a stop reason (R82). -/
def StopReason.code : StopReason → BitVec 4
  | .exhausted => 0
  | .truncated => 1
  | .badOpcode => 2
  | .fbFull => 3

/-- Why the loop of R79 is left before the record at `pos` is taken, `size` being the record's length or none for an
unrecognized opcode: the checks in the order of R79. None where the record is taken. -/
def stopReason (fbcap : Nat) (d : DecodeWork) (size : Option Nat) : Option StopReason :=
  if d.len ≤ d.pos then some .exhausted
  else
    match size with
    | none => some .badOpcode
    | some n =>
      if d.len < d.pos + n then some .truncated
      else if d.out.length = fbcap then some .fbFull
      else none

/-! ### FAULT.cause (R90) -/

/-- The code of a cause, which is also its priority (R90, R100). -/
def Cause.code : Cause → BitVec 4
  | .illegalRequest => 1
  | .badUnit => 2
  | .portViolation => 3
  | .dataRace => 4
  | .encNotWritable => 5
  | .encOverflow => 6
  | .badLength => 7
  | .fbIndex => 8
  | .unwrittenRead => 9

end Sys2Proof.Machine
end

