-- ==== Sys2Proof/Machine/Operands.lean ====
section
/-! DEFINITION. The operand forms (30_encoding.md R64) and the response word (R57, R58). Every operand of a request is a
field of its word, copied unchanged; the numbers below are how a rule reads a field. -/

namespace Sys2Proof.Machine

/-! ### Operands of a request (R64) -/

/-- A queue or buffer number, `zext(UNIT)`. -/
def unitNumber (unit : Byte) : Nat := unit.toNat

/-- A length or an entry index: VAL as an unsigned 32-bit number. -/
def valNumber (val : Word32) : Nat := val.toNat

/-- The number of a field x, y, w or h: `sext` of its 16-bit pattern, -32768 to 32767. -/
def signedNumber (field : Half) : Int := field.toInt

/-- A number reported in VAL (a cursor, a count). -/
def numberVal (n : Nat) : Word32 := BitVec.ofNat 32 n

/-! ### The response word (R57) -/

/-- The fields of a response; a field that R58 does not name for the request is 0. -/
structure Response where
  ok : Bool
  reason : BitVec 4 := 0
  tag : Byte := 0
  layer : Byte := 0
  val : Word32 := 0
  x : Half := 0
  y : Half := 0
  w : Half := 0
  h : Half := 0
  deriving DecidableEq, Repr

/-- The layout of R57; bits 3:1 and 31:24 are always 0. -/
def Response.word (r : Response) : Packet :=
  place 0 (okBit r.ok) ||| place 4 r.reason ||| place 8 r.tag ||| place 16 r.layer ||| place 32 r.val |||
  place 64 r.x ||| place 80 r.y ||| place 96 r.w ||| place 112 r.h

/-- OK of a response word, as an agent reads it (R57). -/
def responseOk (r : Packet) : Bool := r.getLsbD 0

/-- VAL of a response word, as an agent reads it (R57). -/
def responseVal (r : Packet) : Word32 := r.extractLsb' 32 32

/-- PUSH: OK tells whether the value was enqueued (R58). -/
def pushResponse (ok : Bool) : Response := { ok }

/-- POP of a value (R58). -/
def popResponse (val : Word32) : Response := { ok := true, val }

/-- POP of an empty queue: OK = 0 and VAL = 0 (R58). -/
def popEmptyResponse : Response := { ok := false }

/-- The encoder requests and ENC_SIZE: VAL is the cursor after the request (R58). -/
def cursorResponse (cursor : Nat) : Response := { ok := true, val := numberVal cursor }

/-- DECODE and DECODE_N: the count and why the decode stopped (R58). -/
def decodeResponse (count : Nat) (reason : StopReason) : Response :=
  { ok := true, val := numberVal count, reason := reason.code }

/-- FB_READ: the entry's fields, TAG 0 for a Clear and 1 for a Rect (R58, R85). -/
def commandResponse : Command → Response
  | .clear color => { ok := true, tag := 0, val := color }
  | .rect layer color x y w h => { ok := true, tag := 1, layer, val := color, x, y, w, h }

end Sys2Proof.Machine
end

