-- ==== Sys2Proof/Machine/Ops.lean ====
section
/-! DEFINITION. The shared operations: storage spaces, the state's accessors, the clocks and the access check
(20_memory.md R45, R46), the checks common to requests (60_exceptions.md R100), taking a fault (R102, R103) and the
one way back from it (R104, R113), and the decode procedure's steps (42_decoder.md R79). -/

namespace Sys2Proof.Machine

/-! ### Storage spaces -/

/-- What a place of a storage space holds; none where nothing has written it. -/
def Sparse.get {α : Type} : Sparse α → Nat → Option α
  | [], _ => none
  | (k, v) :: m, a => if k = a then some v else Sparse.get m a

/-- Write one place. The places stay strictly rising. -/
def Sparse.put {α : Type} : Sparse α → Nat → α → Sparse α
  | [], a, v => [(a, v)]
  | (k, u) :: m, a, v =>
    if a < k then (a, v) :: (k, u) :: m
    else if a = k then (a, v) :: m
    else (k, u) :: Sparse.put m a v

/-- The canonical form: places strictly rising. An unlisted place is unwritten, which no entry can equal. -/
def Sparse.wf {α : Type} : Sparse α → Bool
  | [] => true
  | (a, _) :: m =>
    (match m with
      | [] => true
      | (b, _) :: _ => decide (a < b)) && Sparse.wf m

/-- The canonical form of a buffer's byte region. -/
def Memory.wf (m : Memory) : Bool := Sparse.wf m

/-- One byte of a buffer; none where it was never written since reset (R21, R22). -/
def Memory.read (m : Memory) (i : Nat) : Option Byte := Sparse.get m i

/-- Write one byte. -/
def Memory.write (m : Memory) (i : Nat) (b : Byte) : Memory := Sparse.put m i b

/-- `BufWrite` (R11): a byte sequence at offset `i` and up. -/
def Memory.writeBytes (m : Memory) (i : Nat) : List Byte → Memory
  | [] => m
  | b :: bs => Memory.writeBytes (Memory.write m i b) (i + 1) bs

/-- `BufRead` (R11): `n` bytes from offset `i`, none where one of them was never written. -/
def Memory.readBytes (m : Memory) (i : Nat) : Nat → Option (List Byte)
  | 0 => some []
  | n + 1 =>
    match Memory.read m i, Memory.readBytes m (i + 1) n with
    | some b, some bs => some (b :: bs)
    | _, _ => none

/-- Replace the element at an index; a list that is too short is filled up with `d`, which is what an absent
element reads as. -/
def writeAt {α : Type} (d : α) : List α → Nat → α → List α
  | [], 0, x => [x]
  | [], i + 1, x => d :: writeAt d [] i x
  | _ :: l, 0, x => x :: l
  | y :: l, i + 1, x => y :: writeAt d l i x

/-! ### Clocks (R20, R30) -/

/-- A component of a clock. -/
def Clock.get (k : Clock) : Agent → Nat
  | .producer => k.p
  | .consumer => k.c

/-- A clock with one component replaced. -/
def Clock.set (k : Clock) (a : Agent) (n : Nat) : Clock :=
  match a with
  | .producer => { k with p := n }
  | .consumer => { k with c := n }

/-- The component-wise maximum, POP's acquire (R45). -/
def Clock.join (k l : Clock) : Clock := ⟨max k.p l.p, max k.c l.c⟩

/-! ### Accessors of the state -/

/-- Queue `q`. -/
def State.queue (s : State) (q : Nat) : Queue := s.queues.getD q Queue.reset

/-- Replace queue `q`. -/
def State.setQueue (s : State) (q : Nat) (Q : Queue) : State :=
  { s with queues := writeAt Queue.reset s.queues q Q }

/-- Buffer `b`. -/
def State.buf (s : State) (b : Nat) : Buffer := s.bufs.getD b Buffer.reset

/-- Replace buffer `b`. -/
def State.setBuf (s : State) (b : Nat) (B : Buffer) : State :=
  { s with bufs := writeAt Buffer.reset s.bufs b B }

/-- Replace the frame buffer. -/
def State.setFb (s : State) (fb : FrameBuffer) : State := { s with fb := fb }

/-- Write the FAULT register. -/
def State.setFault (s : State) (f : FaultReg) : State := { s with fault := f }

/-- VC[a] (R30). -/
def State.vc (s : State) : Agent → Clock
  | .producer => s.vcP
  | .consumer => s.vcC

/-- Replace VC[a]. -/
def State.setVc (s : State) (a : Agent) (k : Clock) : State :=
  match a with
  | .producer => { s with vcP := k }
  | .consumer => { s with vcC := k }

/-- An agent's side of its port. -/
def State.agent (s : State) : Agent → AgentPort
  | .producer => s.agentP
  | .consumer => s.agentC

/-- Replace an agent's side of its port. -/
def State.setAgent (s : State) (a : Agent) (p : AgentPort) : State :=
  match a with
  | .producer => { s with agentP := p }
  | .consumer => { s with agentC := p }

/-- Replace the decode procedure's variables. -/
def State.setDec (s : State) (d : DecodeWork) : State := { s with dec := d }

/-- `respond(fields)` (R11): the response word reaches the issuing agent. -/
def State.respond (s : State) (r : Response) : State :=
  s.setAgent s.issuer { s.agent s.issuer with resp := some r.word }

/-- One byte of buffer `b`, as the host observes it (R119). -/
def State.byte (s : State) (b i : Nat) : Option Byte := Memory.read (s.buf b).bytes i

/-- `contents(q)` (R19), oldest first. A slot that nothing has written shows as none. -/
def Queue.contents (cap : Nat) (Q : Queue) : List (Option Word32) :=
  (List.range (Q.count cap)).map fun i => (Sparse.get Q.slots ((Q.tail + i) &&& (cap - 1))).map Slot.val

/-- Write the slot at head and advance head: what PUSH and a host preload do to a queue that is not full (R67, R115). -/
def Queue.enqueue (cap : Nat) (Q : Queue) (v : Word32) (k : Clock) : Queue :=
  { Q with slots := Sparse.put Q.slots Q.head ⟨v, k⟩, head := cursorNext cap Q.head }

/-- The slot POP reads. It is written whenever the queue is not empty (R16); for one that is not, the value is free
and no clock is joined (log 8). -/
def Queue.front (Q : Queue) : Slot :=
  (Sparse.get Q.slots Q.tail).getD ⟨Config.unwrittenSlot Q.tail, Clock.zero⟩

/-- Advance tail: what POP does to a queue that is not empty (R68). -/
def Queue.dequeue (cap : Nat) (Q : Queue) : Queue := { Q with tail := cursorNext cap Q.tail }

/-! ### The access check (R46) -/

/-- The two `raise` lines of `access(a, b, kind)`: a conflicting access of the other agent that VC[a], here `k`, does not
order before this one. -/
def Buffer.races (B : Buffer) (a : Agent) (k : Clock) (kind : AccessKind) : Bool :=
  (match B.lastWrite with
    | some (x, t) => decide (x = a.other) && decide (k.get a.other < t)
    | none => false) ||
  (decide (kind = .write) && decide (k.get a.other < B.lastRead.get a.other))

/-- The updates of `access(a, b, kind)`, `t` being the epoch VC[a][a]. -/
def Buffer.noteAccess (B : Buffer) (a : Agent) (t : Nat) : AccessKind → Buffer
  | .read => { B with lastRead := B.lastRead.set a t }
  | .write => { B with lastWrite := some (a, t), lastRead := Clock.zero }

/-! ### Taking a fault, and the way back -/

/-- Fault entry (R102): FAULT records the cause, the issuing agent and the request word; nothing else changes and no
response is sent. -/
def State.takeFault (s : State) (c : Cause) (r : Packet) : State :=
  s.setFault ⟨true, c.code, s.issuer.ident, r⟩

/-- There is no return from a fault but the host's reset (R104): every piece of the block's state takes its reset
value (R113) and the agents are held (R114). The agents' own scripts and the inputs to come are not the block's. -/
def State.hostReset (s : State) : State :=
  { State.ofConfig s.cfg with
    host := s.host, agentP := s.agentP, agentC := s.agentC, sched := s.sched, turns := s.turns }

/-- What every request does around its own effect: a halted block performs no request (R103); a request that breaks a
precondition has no effect but the fault entry (R12, R102). `r` is the request's word. -/
def perform (r : Packet) (result : Except Cause State) (s : State) : Host.Outcome State Fault Refusal :=
  if s.fault.valid then .fault .halted
  else
    match result with
    | .ok t => .next t
    | .error c => .next (s.takeFault c r)

/-- A precondition: the request faults with `c` where it does not hold. -/
def require (holds : Bool) (c : Cause) (k : Except Cause State) : Except Cause State :=
  if holds then k else .error c

/-- The checks of a queue request (R92, R93, in the order of R100): the queue exists, and the issuer is the agent its
port is wired to. -/
def onQueue (q : Nat) (wired : QueueConfig → Agent) (s : State) (k : Except Cause State) : Except Cause State :=
  require (decide (q < s.cfg.nq)) .badUnit <|
  require (decide (s.issuer = wired (s.cfg.queue q))) .portViolation k

/-- The checks of a buffer request (R92, R93, R94, in the order of R100), then the updates of the access (R46). The
request's own effect `k` works on the state with these updates. -/
def onBuffer (b : Nat) (wired : Bool) (kind : AccessKind) (s : State) (k : State → Except Cause State) :
    Except Cause State :=
  require (decide (b < s.cfg.nbuf)) .badUnit <|
  require wired .portViolation <|
  require (!(s.buf b).races s.issuer (s.vc s.issuer) kind) .dataRace <|
  k (s.setBuf b ((s.buf b).noteAccess s.issuer ((s.vc s.issuer).get s.issuer) kind))

/-! ### The encoder's common effect -/

/-- Append one record to buffer `b` (R73, R74): the window must be open and the whole record must fit. -/
def appendRecord (b : Nat) (c : Command) (s : State) : Except Cause State :=
  let B := s.buf b
  require B.writable .encNotWritable <|
  require (decide (B.cursor + commandSize c ≤ s.cfg.bufcap)) .encOverflow <|
  .ok ((s.setBuf b { B with bytes := Memory.writeBytes B.bytes B.cursor (encodeCommand c),
                            cursor := B.cursor + commandSize c }).respond
        (cursorResponse (B.cursor + commandSize c)))

/-! ### The decode procedure (R79) -/

/-- Leave the loop with a reason. -/
def State.stopDecode (s : State) (r : StopReason) : State := s.setDec { s.dec with stop := some r }

/-- One record meets the decode procedure: the loop is left where a check of R79 says so, else the command becomes
entry n and pos moves past the record. `record` is the command, or none for an unrecognized opcode. A decode that
has stopped takes nothing. -/
def State.takeRecord (s : State) (record : Option Command) : State :=
  match s.dec.stop with
  | some _ => s
  | none =>
    match stopReason s.cfg.fbcap s.dec (record.map commandSize) with
    | some r => s.stopDecode r
    | none =>
      match record with
      | none => s
      | some c => s.setDec { s.dec with out := s.dec.out ++ [c], pos := s.dec.pos + commandSize c }

/-- One round of the loop of R79 over the bytes `m`: none where a byte it reads was never written. The payload is read
only when the whole record is taken. -/
def decodeRound (m : Memory) (s : State) : Option State :=
  if s.dec.len ≤ s.dec.pos then some (s.stopDecode .exhausted)
  else
    match Memory.read m s.dec.pos with
    | none => none
    | some op =>
      match recordSize op with
      | none => some (s.takeRecord none)
      | some size =>
        match stopReason s.cfg.fbcap s.dec (some size) with
        | some r => some (s.stopDecode r)
        | none =>
          match Memory.readBytes m (s.dec.pos + 1) (size - 1) with
          | none => none
          | some p => some (s.takeRecord (some (parseCommand op p)))

/-- The loop of R79. `fuel` bounds the rounds: each takes a byte or more, so len + 1 are enough. -/
def decodeLoop (m : Memory) : Nat → State → Option State
  | 0, s => some s
  | fuel + 1, s =>
    match decodeRound m s with
    | none => none
    | some t => if t.dec.stop.isSome then some t else decodeLoop m fuel t

/-- `FB.entry[0 .. n-1] <- new_entry`, `FB.count <- n` (R79): entries from n on keep what they held. -/
def FrameBuffer.rebuild (fb : FrameBuffer) (new : List Command) : FrameBuffer :=
  ⟨new.length, new ++ fb.entry.drop new.length⟩

/-- `decode(b, len)` (R79), whole: it faults before it has written anything, or rebuilds the frame buffer and
responds. -/
def decodeBuffer (b len : Nat) (s : State) : Except Cause State :=
  match decodeLoop (s.buf b).bytes (len + 1) (s.setDec ⟨len, 0, [], none⟩) with
  | none => .error .unwrittenRead
  | some t =>
    .ok (((t.setFb (t.fb.rebuild t.dec.out)).setDec DecodeWork.idle).respond
      (decodeResponse t.dec.out.length (t.dec.stop.getD .exhausted)))

end Sys2Proof.Machine
end

