-- ==== Sys2Proof/Machine/Decoder.lean ====
section
/-! DEFINITION. The decoder requests (42_decoder.md R83 to R85), wired to C (60_exceptions.md R93). -/

namespace Sys2Proof.Machine

/-- The decoder port belongs to C (R93). -/
def State.byConsumer (s : State) : Bool := decide (s.issuer = .consumer)

/-- DECODE (R83): the input is what P has recorded, `B[b].cursor` bytes. The writable flag is not looked at (R86). -/
def decodeEffect (b : Nat) (s : State) : Except Cause State :=
  onBuffer b s.byConsumer .read s fun t => decodeBuffer b (t.buf b).cursor t

/-- DECODE_N (R84): the input is the first `len` bytes, whatever the cursor says, up to BUFCAP. -/
def decodeNEffect (b len : Nat) (s : State) : Except Cause State :=
  onBuffer b s.byConsumer .read s fun t =>
    require (decide (len ≤ t.cfg.bufcap)) .badLength (decodeBuffer b len t)

/-- Entry `i` of the frame buffer. An entry below count is written (R28); for one that is not, the command is free
(log 8). -/
def FrameBuffer.at (fb : FrameBuffer) (i : Nat) : Command := fb.entry.getD i (Config.unwrittenEntry i)

/-- FB_READ (R85): the fields of entry `i`; nothing changes. -/
def fbReadEffect (i : Nat) (s : State) : Except Cause State :=
  require s.byConsumer .portViolation <|
  require (decide (i < s.fb.count)) .fbIndex <|
  .ok (s.respond (commandResponse (s.fb.at i)))

/-- DECODE b. -/
def execDecode (b : Byte) (s : State) : Host.Outcome State Fault Refusal :=
  perform (requestWord (.decode b)) (decodeEffect (unitNumber b) s) s

/-- DECODE_N b, len. -/
def execDecodeN (b : Byte) (len : Word32) (s : State) : Host.Outcome State Fault Refusal :=
  perform (requestWord (.decodeN b len)) (decodeNEffect (unitNumber b) (valNumber len) s) s

/-- FB_READ i. -/
def execFbRead (idx : Word32) (s : State) : Host.Outcome State Fault Refusal :=
  perform (requestWord (.fbRead idx)) (fbReadEffect (valNumber idx) s) s

end Sys2Proof.Machine
end

