-- ==== Sys2Proof/Machine/Encoder.lean ====
section
/-! DEFINITION. The encoder requests (41_encoder.md R72 to R76). ENC_BEGIN, PUSH_CLEAR, PUSH_RECT and ENC_SEAL are wired
to P, ENC_SIZE to both agents (60_exceptions.md R93). -/

namespace Sys2Proof.Machine

/-- The encoder port belongs to P (R93). -/
def State.byProducer (s : State) : Bool := decide (s.issuer = .producer)

/-- ENC_BEGIN (R72): the cursor goes to 0 and the writable flag to 1; the bytes stay. -/
def encBeginEffect (b : Nat) (s : State) : Except Cause State :=
  onBuffer b s.byProducer .write s fun t =>
    .ok ((t.setBuf b { t.buf b with cursor := 0, writable := true }).respond (cursorResponse 0))

/-- ENC_SEAL (R75): the writable flag goes to 0. -/
def encSealEffect (b : Nat) (s : State) : Except Cause State :=
  onBuffer b s.byProducer .write s fun t =>
    .ok ((t.setBuf b { t.buf b with writable := false }).respond (cursorResponse (t.buf b).cursor))

/-- ENC_SIZE (R76): the cursor is reported. -/
def encSizeEffect (b : Nat) (s : State) : Except Cause State :=
  onBuffer b true .read s fun t => .ok (t.respond (cursorResponse (t.buf b).cursor))

/-- ENC_BEGIN b. -/
def execEncBegin (b : Byte) (s : State) : Host.Outcome State Fault Refusal :=
  perform (requestWord (.encBegin b)) (encBeginEffect (unitNumber b) s) s

/-- PUSH_CLEAR b, color (R73): append one Clear record. -/
def execPushClear (b : Byte) (color : Word32) (s : State) : Host.Outcome State Fault Refusal :=
  perform (requestWord (.pushClear b color))
    (onBuffer (unitNumber b) s.byProducer .write s (appendRecord (unitNumber b) (.clear color))) s

/-- PUSH_RECT b, layer, color, x, y, w, h (R74): append one Rect record. -/
def execPushRect (b layer : Byte) (color : Word32) (x y w h : Half) (s : State) :
    Host.Outcome State Fault Refusal :=
  perform (requestWord (.pushRect b layer color x y w h))
    (onBuffer (unitNumber b) s.byProducer .write s (appendRecord (unitNumber b) (.rect layer color x y w h))) s

/-- ENC_SEAL b. -/
def execEncSeal (b : Byte) (s : State) : Host.Outcome State Fault Refusal :=
  perform (requestWord (.encSeal b)) (encSealEffect (unitNumber b) s) s

/-- ENC_SIZE b. -/
def execEncSize (b : Byte) (s : State) : Host.Outcome State Fault Refusal :=
  perform (requestWord (.encSize b)) (encSizeEffect (unitNumber b) s) s

end Sys2Proof.Machine
end

