-- ==== Sys2Proof/Machine/Queue.lean ====
section
/-! DEFINITION. The ring queue requests (40_ring_queue.md R67, R68). -/

namespace Sys2Proof.Machine

/-- PUSH (R67): a full queue answers OK = 0 and nothing changes; else the value and VC[a] go into the slot at head
(the release of R45), VC[a][a] counts on and head advances. -/
def pushEffect (q : Nat) (value : Word32) (s : State) : Except Cause State :=
  onQueue q QueueConfig.pusher s <|
    let cap := (s.cfg.queue q).cap
    let k := s.vc s.issuer
    if (s.queue q).full cap then .ok (s.respond (pushResponse false))
    else .ok (((s.setQueue q ((s.queue q).enqueue cap value k)).setVc s.issuer
      (k.set s.issuer (k.get s.issuer + 1))).respond (pushResponse true))

/-- POP (R68): an empty queue answers OK = 0, VAL = 0 and nothing changes; else the slot at tail is read, its clock
joined into VC[a] (the acquire of R45) and tail advances. -/
def popEffect (q : Nat) (s : State) : Except Cause State :=
  onQueue q QueueConfig.popper s <|
    let cap := (s.cfg.queue q).cap
    let slot := (s.queue q).front
    if (s.queue q).empty then .ok (s.respond popEmptyResponse)
    else .ok (((s.setVc s.issuer ((s.vc s.issuer).join slot.clk)).setQueue q ((s.queue q).dequeue cap)).respond
      (popResponse slot.val))

/-- PUSH q, value. -/
def execPush (q : Byte) (value : Word32) (s : State) : Host.Outcome State Fault Refusal :=
  perform (requestWord (.push q value)) (pushEffect (unitNumber q) value s) s

/-- POP q. -/
def execPop (q : Byte) (s : State) : Host.Outcome State Fault Refusal :=
  perform (requestWord (.pop q)) (popEffect (unitNumber q) s) s

end Sys2Proof.Machine
end

