-- ==== Sys2Proof/Machine/Records.lean ====
section
/-! DEFINITION. The records (30_encoding.md R60 to R62) as the decode procedure meets them (42_decoder.md R79): a
record's meaning is one round of the loop, on the procedure's variables `State.dec` (log 7). -/

namespace Sys2Proof.Machine

/-- A Clear record (R60, R80): one more entry, pos moves on by 5, unless a check of R79 stops the decode. -/
def execRecClear (color : Word32) (s : State) : Host.Outcome State Fault Refusal :=
  .next (s.takeRecord (some (.clear color)))

/-- A Rect record (R61, R81): one more entry, pos moves on by 14, unless a check of R79 stops the decode. -/
def execRecRect (layer : Byte) (color : Word32) (x y w h : Half) (s : State) :
    Host.Outcome State Fault Refusal :=
  .next (s.takeRecord (some (.rect layer color x y w h)))

/-- An unrecognized opcode byte (R62): the decode stops before it with BAD_OPCODE, whichever byte it is; no fault. -/
def execRecUnrecognized (_op : Byte) (s : State) : Host.Outcome State Fault Refusal :=
  .next (s.takeRecord none)

end Sys2Proof.Machine
end

