-- ==== Sys2Proof/Machine/Reserved.lean ====
section
/-! DEFINITION. Request words that are no operation (30_encoding.md R59): each faults with ILLEGAL_REQUEST
(60_exceptions.md R91) before anything else is looked at. -/

namespace Sys2Proof.Machine

/-- A request word with ILLEGAL_REQUEST as its only effect. -/
def performIllegal (r : Packet) (s : State) : Host.Outcome State Fault Refusal :=
  perform r (.error .illegalRequest) s

/-- OP 0xA or 0xB. -/
def execReservedOpAB (op : BitVec 4) (rest : BitVec 124) (s : State) : Host.Outcome State Fault Refusal :=
  performIllegal (requestWord (.reservedOpAB op rest)) s

/-- OP 0xC to 0xF. -/
def execReservedOpCF (op : BitVec 4) (rest : BitVec 124) (s : State) : Host.Outcome State Fault Refusal :=
  performIllegal (requestWord (.reservedOpCF op rest)) s

end Sys2Proof.Machine
end

