-- ==== Sys2Proof/Machine/Dispatch.lean ====
section
/-! DEFINITION. One arm per constructor of Instr, each one call of the instruction's meaning. -/

namespace Sys2Proof.Machine

def exec (i : Instr) (s : State) : Host.Outcome State Fault Refusal :=
  match i with
  -- ring queue requests
  | .push q value => Sys2Proof.Machine.execPush q value s
  | .pop q => Sys2Proof.Machine.execPop q s
  -- encoder requests
  | .encBegin b => Sys2Proof.Machine.execEncBegin b s
  | .pushClear b color => Sys2Proof.Machine.execPushClear b color s
  | .pushRect b layer color x y w h => Sys2Proof.Machine.execPushRect b layer color x y w h s
  | .encSeal b => Sys2Proof.Machine.execEncSeal b s
  | .encSize b => Sys2Proof.Machine.execEncSize b s
  -- decoder requests
  | .decode b => Sys2Proof.Machine.execDecode b s
  | .decodeN b len => Sys2Proof.Machine.execDecodeN b len s
  | .fbRead idx => Sys2Proof.Machine.execFbRead idx s
  -- reserved OP values
  | .reservedOpAB op rest => Sys2Proof.Machine.execReservedOpAB op rest s
  | .reservedOpCF op rest => Sys2Proof.Machine.execReservedOpCF op rest s
  -- records
  | .recClear color => Sys2Proof.Machine.execRecClear color s
  | .recRect layer color x y w h => Sys2Proof.Machine.execRecRect layer color x y w h s
  | .recUnrecognized op => Sys2Proof.Machine.execRecUnrecognized op s

end Sys2Proof.Machine
end

