-- ==== Sys2Proof/Machine/Agents.lean ====
section
/-! DEFINITION. The agents around the block: their scripts (30_encoding.md R65, 10_state.md R14), the interleaving of the
two (00_scope.md R6, R12), and one request from a port word to its response (R53). -/

namespace Sys2Proof.Machine

/-! ### An agent's own values (R65) -/

/-- The value of an agent-local expression. A variable that the script has not set reads as 0 (log 4). -/
def LocalExpr.eval (vars : Sparse Nat) : LocalExpr → Nat
  | .const n => n
  | .var v => (Sparse.get vars v).getD 0
  | .ok e => (responseOk (BitVec.ofNat 128 (e.eval vars))).toNat
  | .val e => (responseVal (BitVec.ofNat 128 (e.eval vars))).toNat
  | .add e f => e.eval vars + f.eval vars

/-- Whether an agent-local condition holds. -/
def LocalCond.holds (vars : Sparse Nat) : LocalCond → Bool
  | .eq e f => decide (e.eval vars = f.eval vars)
  | .lt e f => decide (e.eval vars < f.eval vars)

/-- An agent's value as a field of a request word: the value's low bits (log 4). -/
def placeValue (width lo : Nat) (vars : Sparse Nat) : Option LocalExpr → Packet
  | none => 0
  | some e => place lo (BitVec.ofNat width (e.eval vars))

/-- The request word of an issuing line: the written word with the agent's values as UNIT and VAL (R54). -/
def issuedWord (base : Packet) (unit val : Option LocalExpr) (vars : Sparse Nat) : Packet :=
  base ||| placeValue 8 8 vars unit ||| placeValue 32 32 vars val

/-- The line an agent stands at; behind the end of its script it has stopped. -/
def AgentPort.line (p : AgentPort) : ScriptLine := p.script.getD p.pos .stop

/-- An agent that has not reached `stop` (R120). -/
def AgentPort.active (p : AgentPort) : Bool := decide (p.line ≠ .stop)

/-- The request word an agent has outstanding, if it stands at a request (R53). -/
def AgentPort.outstanding (p : AgentPort) : Option Packet :=
  match p.line with
  | .issue _ base unit val => some (issuedWord base unit val p.vars)
  | .assign _ _ => none
  | .branch _ _ => none
  | .goto _ => none
  | .stop => none

/-- Take a response into variable `dst` and go on to the next line. -/
def AgentPort.receive (p : AgentPort) (dst : Nat) (r : Packet) : AgentPort :=
  { p with vars := Sparse.put p.vars dst r.toNat, pos := p.pos + 1 }

/-- A position that touches agent-local values only. -/
def AgentPort.move (p : AgentPort) : ScriptLine → AgentPort
  | .issue _ _ _ _ => p
  | .assign dst e => { p with vars := Sparse.put p.vars dst (e.eval p.vars), pos := p.pos + 1 }
  | .branch c target => { p with pos := if c.holds p.vars then target else p.pos + 1 }
  | .goto target => { p with pos := target }
  | .stop => p

/-- The local lines from where the agent stands up to its next request or `stop`, at most `fuel` of them. -/
def AgentPort.runLocal : Nat → AgentPort → AgentPort
  | 0, p => p
  | fuel + 1, p =>
    match p.line with
    | .issue _ _ _ _ => p
    | .assign dst e => AgentPort.runLocal fuel (p.move (.assign dst e))
    | .branch c target => AgentPort.runLocal fuel (p.move (.branch c target))
    | .goto target => AgentPort.runLocal fuel (p.move (.goto target))
    | .stop => p

/-- An agent goes from request to request (R14): what it does with its own values in between takes no step of the
block. Where that is more lines than the script has, it goes on with them in its next step (log 4). -/
def AgentPort.goLocal (p : AgentPort) : AgentPort := p.runLocal p.script.length

/-! ### The interleaving (R6, R12, R48) -/

/-- Both agents have something to do. -/
def State.contended (s : State) : Bool := s.agentP.active && s.agentC.active

/-- Which agent goes when both can: the interleaving where it is given, else a free value (log 1). -/
def State.choice (s : State) : Agent :=
  match s.sched with
  | a :: _ => a
  | [] => Config.arbiter s.turns

/-- The agent that goes next; none when both have stopped. -/
def State.nextAgent (s : State) : Option Agent :=
  if s.contended then some s.choice
  else if s.agentP.active then some .producer
  else if s.agentC.active then some .consumer
  else none

/-- A choice between the agents is used up. -/
def State.countChoice (s : State) : State :=
  if s.contended then { s with sched := s.sched.tail, turns := s.turns + 1 } else s

/-! ### One request (R53) -/

/-- The request of agent `a` stands at the block; no response to it has come yet. -/
def State.issuing (s : State) (a : Agent) : State :=
  { s.setAgent a { s.agent a with resp := none } with issuer := a }

/-- The block performs one request word of the issuing agent: the decoded instruction's meaning, or ILLEGAL_REQUEST for
a word that is no encoding (R59, R91). -/
def performWord (r : Packet) (s : State) : Host.Outcome State Fault Refusal :=
  match decodeRequest r with
  | .ok i => exec i s
  | .error _ => performIllegal r s

/-- The agent goes on to its next request if the response has come; an agent whose request faulted gets none and waits
(R102). -/
def State.settle (s : State) (a : Agent) (dst : Nat) : State :=
  match (s.agent a).resp with
  | some r => s.setAgent a ((s.agent a).receive dst r).goLocal
  | none => s

/-- What follows a performed request, for a step that answers a next state. -/
def settled (a : Agent) (dst : Nat) : Host.Outcome State Fault Refusal → Host.Outcome State Fault Refusal
  | .next t => .next (t.settle a dst)
  | .fault f => .fault f
  | .refused r => .refused r

/-- One step of agent `a`: its request, or local lines that stand before its first request. -/
def agentStep (a : Agent) (s : State) : Host.Outcome State Fault Refusal :=
  match (s.agent a).line with
  | .issue dst base unit val =>
    settled a dst (performWord (issuedWord base unit val (s.agent a).vars) (s.issuing a))
  | .assign _ _ => .next (s.setAgent a (s.agent a).goLocal)
  | .branch _ _ => .next (s.setAgent a (s.agent a).goLocal)
  | .goto _ => .next (s.setAgent a (s.agent a).goLocal)
  | .stop => .next s

/-! ### Placing one instruction (for State.withFetchWord) -/

/-- The agent whose port a request word belongs to (R32, R55); P for a word that belongs to none. -/
def wiredAgent (c : Config) (r : Packet) : Agent :=
  match decodeRequest r with
  | .ok (.push q _) => (c.queue q.toNat).pusher
  | .ok (.pop q) => (c.queue q.toNat).popper
  | .ok (.decode _) => .consumer
  | .ok (.decodeN _ _) => .consumer
  | .ok (.fbRead _) => .consumer
  | _ => .producer

/-- The agents released, `a` standing at the one request `r`, and `a` the next to go. -/
def State.placeRequest (s : State) (a : Agent) (r : Packet) : State :=
  { s.setAgent a ⟨[.issue 0 r none none], 0, [], none⟩ with phase := .released, sched := a :: s.sched }

/-- How many bytes of a record word make its record: an unrecognized one has its opcode byte (R62, R63). -/
def recordLength (bytes : List Byte) : Nat := ((bytes.head?.bind recordSize).getD 1)

/-- Buffer 0 recorded with one record, no access to it outstanding. -/
def State.placeRecord (s : State) (bytes : List Byte) : State :=
  s.setBuf 0 { Buffer.reset with
    bytes := Memory.writeBytes [] 0 (bytes.take (recordLength bytes)), cursor := recordLength bytes }

end Sys2Proof.Machine
end

