-- ==== Sys2Proof/Machine/HostPort.lean ====
section
/-! DEFINITION. What the host does to the block (70_reset_and_hazards.md R113 to R119): configure, reset, preload,
release. -/

namespace Sys2Proof.Machine

/-- Configure and reset (R7, R8, R116): a legal configuration gives a block in its reset state, an illegal one has no
machine. -/
def State.configure (c : Config) : Host.Outcome State Fault Refusal :=
  if c.legal then .next (State.ofConfig c) else .refused .illegalConfig

/-- One preload (R115): a PUSH by the host, with the slot clock (0, 0) and no vector clock changed. -/
def hostPreload (q : Nat) (value : Word32) (s : State) : Host.Outcome State Fault Refusal :=
  if s.cfg.nq ≤ q then .refused .preloadNoQueue
  else if (s.queue q).full (s.cfg.queue q).cap then .refused .preloadFull
  else .next (s.setQueue q ((s.queue q).enqueue (s.cfg.queue q).cap value Clock.zero))

/-- Release both agents together (R118). -/
def State.release (s : State) : State := { s with phase := .released }

/-- One host action. -/
def hostAct : HostAction → State → Host.Outcome State Fault Refusal
  | .reset, s => .next s.hostReset
  | .preload q value, s => hostPreload q value s
  | .release, s => .next s.release

/-- A step while the agents are held: the host's next action, or nothing (R114). -/
def heldStep (s : State) : Host.Outcome State Fault Refusal :=
  match s.host with
  | [] => .next s
  | act :: rest => hostAct act { s with host := rest }

/-- After release the host only observes (R118, R119), but for the reset that ends the run: it is performed where no
request can be, else `otherwise` happens (log 3). -/
def resetOr (otherwise : Host.Outcome State Fault Refusal) (s : State) : Host.Outcome State Fault Refusal :=
  match s.host with
  | .reset :: rest => .next { s with host := rest }.hostReset
  | _ => otherwise

end Sys2Proof.Machine
end

