-- ==== Sys2Proof/Machine/Step.lean ====
section
/-! DEFINITION. One step of the machine, and how an instruction is placed where the next step runs it. -/

namespace Sys2Proof.Machine

/-- One step (00_scope.md R12): of the host while the agents are held; of a halted block none but a reset (R103, R104);
else one request of one agent, with the local lines behind it. When both agents have stopped the block is idle, and idling changes nothing
(R112). -/
def step (s : State) : Host.Outcome State Fault Refusal :=
  if s.cfg.legal then
    match s.phase with
    | .held => heldStep s
    | .released =>
      if s.fault.valid then resetOr (.fault .halted) s
      else
        match s.nextAgent with
        | some a => agentStep a s.countChoice
        | none => resetOr (.next s) s
  else .refused .illegalConfig

/-- `s` with one instruction, its bits as the opcode table numbers them, where the next step runs it. A request word
stands on the port of the agent it is wired to, released and next to go. A record stands in buffer 0, recorded, with
C's request `decode 0` on its port: the decode procedure meets exactly that record (log 11). -/
def State.withFetchWord (s : State) (nbits w : Nat) : State :=
  if isRecordWord nbits w then
    (s.placeRecord (recordBytesOf w)).placeRequest .consumer (requestWord (.decode 0))
  else s.placeRequest (wiredAgent s.cfg (BitVec.ofNat 128 w)) (BitVec.ofNat 128 w)

end Sys2Proof.Machine
end

