-- ==== Sys2Proof/Machine/Asm.lean ====
section
/-! DEFINITION. The assembler's textual syntax of requests (30_encoding.md R65): one request a line, operands separated
by commas, a comment from a semicolon on. An operand outside its field's range is refused (log 14). -/

namespace Sys2Proof.Machine

/-- A number as R65 writes it. -/
inductive Numeral where
  | decimal (n : Int)
  | hex (n : Nat)
  deriving DecidableEq, Repr

/-- The value of a numeral. -/
def Numeral.value : Numeral → Int
  | .decimal n => n
  | .hex n => n

/-- The pieces of a line between the characters `sep`. -/
def splitAt (sep : Char) : List Char → List (List Char)
  | [] => [[]]
  | c :: cs =>
    if c = sep then [] :: splitAt sep cs
    else
      match splitAt sep cs with
      | [] => [[c]]
      | p :: ps => (c :: p) :: ps

/-- Spaces and tabs. -/
def isBlank (c : Char) : Bool := c = ' ' || c = '\t'

/-- A piece without the blanks around it. -/
def trimmed (cs : List Char) : List Char := ((cs.dropWhile isBlank).reverse.dropWhile isBlank).reverse

/-- The digit a character stands for, in a base up to 16. -/
def digitOf (base : Nat) (c : Char) : Option Nat :=
  let n := c.toNat
  let d := if 48 ≤ n ∧ n ≤ 57 then some (n - 48) else if 97 ≤ n ∧ n ≤ 102 then some (n - 87)
    else if 65 ≤ n ∧ n ≤ 70 then some (n - 55) else none
  d.filter (· < base)

/-- The number a row of digits stands for, `acc` being the number of the digits before it. -/
def digitsFrom (base acc : Nat) : List Char → Option Nat
  | [] => some acc
  | c :: cs => (digitOf base c).bind fun d => digitsFrom base (acc * base + d) cs

/-- The number of a non-empty row of digits. -/
def digits (base : Nat) : List Char → Option Nat
  | [] => none
  | c :: cs => digitsFrom base 0 (c :: cs)

/-- A numeral: decimal, `0x` hexadecimal, or a signed decimal (R65). -/
def numeral : List Char → Option Numeral
  | '-' :: cs => (digits 10 cs).map fun n => .decimal (-(n : Int))
  | '0' :: 'x' :: cs => (digits 16 cs).map .hex
  | cs => (digits 10 cs).map fun n => .decimal n

/-- An unsigned operand of `width` bits: q, b, layer, value, color, len, i (R65). -/
def unsignedOperand (width : Nat) (n : Numeral) : Option (BitVec width) :=
  if 0 ≤ n.value ∧ n.value < 2 ^ width then some (BitVec.ofInt width n.value) else none

/-- An operand x, y, w or h: -32768 to 32767, or 0x0000 to 0xFFFF (R65). -/
def signedOperand : Numeral → Option Half
  | .decimal n => if -32768 ≤ n ∧ n ≤ 32767 then some (BitVec.ofInt 16 n) else none
  | .hex n => if n < 2 ^ 16 then some (BitVec.ofNat 16 n) else none

/-- The requests whose only operand is a unit number (R65). -/
def unitRequest (mnemonic : List Char) (u : Byte) : Option Instr :=
  if mnemonic = "pop".toList then some (.pop u)
  else if mnemonic = "enc.begin".toList then some (.encBegin u)
  else if mnemonic = "enc.seal".toList then some (.encSeal u)
  else if mnemonic = "enc.size".toList then some (.encSize u)
  else if mnemonic = "decode".toList then some (.decode u)
  else none

/-- The requests with a unit number and a 32-bit operand (R65). -/
def unitValRequest (mnemonic : List Char) (u : Byte) (v : Word32) : Option Instr :=
  if mnemonic = "push".toList then some (.push u v)
  else if mnemonic = "push_clear".toList then some (.pushClear u v)
  else if mnemonic = "decode_n".toList then some (.decodeN u v)
  else none

/-- The request of a mnemonic and its operands. -/
def assemble (mnemonic : List Char) : List Numeral → Option Instr
  | [a] =>
    if mnemonic = "fb_read".toList then (unsignedOperand 32 a).map .fbRead
    else (unsignedOperand 8 a).bind (unitRequest mnemonic)
  | [a, v] => (unsignedOperand 8 a).bind fun u => (unsignedOperand 32 v).bind (unitValRequest mnemonic u)
  | [b, layer, color, x, y, w, h] =>
    if mnemonic = "push_rect".toList then do
      let b ← unsignedOperand 8 b
      let layer ← unsignedOperand 8 layer
      let color ← unsignedOperand 32 color
      let x ← signedOperand x
      let y ← signedOperand y
      let w ← signedOperand w
      let h ← signedOperand h
      return .pushRect b layer color x y w h
    else none
  | _ => none

/-- All the numerals of a list of pieces, none where one is no numeral. -/
def numerals : List (List Char) → Option (List Numeral)
  | [] => some []
  | p :: ps => (numeral (trimmed p)).bind fun n => (numerals ps).map (n :: ·)

/-- One line of text as a request (R65); none where the assembler refuses it. -/
def assembleLine (line : String) : Option Instr :=
  let text := trimmed (line.toList.takeWhile (· ≠ ';'))
  let mnemonic := text.takeWhile fun c => !isBlank c
  (numerals (splitAt ',' (text.drop mnemonic.length))).bind (assemble mnemonic)

end Sys2Proof.Machine
end

