-- ==== Sys2Proof/Machine/Order.lean ====
section
/-! DEFINITION. Runs of performed requests as sequences of events, and the happens-before relation over them
(20_memory.md R44), beside the clocks that the block's state holds (R45). -/

namespace Sys2Proof.Machine

/-- The state with agent `a` about to issue. -/
def State.setIssuer (s : State) (a : Agent) : State := { s with issuer := a }

/-- One performed request: who, what, and the states around it (`before` has its issuer set). -/
structure Event where
  agent : Agent
  instr : Instr
  before : State
  after : State
  deriving DecidableEq, Repr

/-- Perform a row of requests, in this order, whichever agent each is of; none where one faults. Any interleaving of the
two agents' requests is such a row (R48). -/
def runRequests : List (Agent × Instr) → State → Option State
  | [], s => some s
  | (a, i) :: rs, s =>
    match exec i (s.setIssuer a) with
    | .next t => if t.fault.valid then none else runRequests rs t
    | .fault _ => none
    | .refused _ => none

/-- The events of such a run. -/
def eventsOf : List (Agent × Instr) → State → Option (List Event)
  | [], _ => some []
  | (a, i) :: rs, s =>
    match exec i (s.setIssuer a) with
    | .next t =>
      if t.fault.valid then none
      else (eventsOf rs t).map (⟨a, i, s.setIssuer a, t⟩ :: ·)
    | .fault _ => none
    | .refused _ => none

/-- QCAP of queue `q`. -/
def State.cap (s : State) (q : Nat) : Nat := (s.cfg.queue q).cap

/-- `contents(q)` in a state (R19). -/
def State.contents (s : State) (q : Nat) : List (Option Word32) := (s.queue q).contents (s.cap q)

/-- The value an event enqueues on `q`: a successful PUSH. -/
def Event.pushed (q : Nat) (e : Event) : Option Word32 :=
  match e.instr with
  | .push u v => if u.toNat = q ∧ (e.before.queue q).full (e.before.cap q) = false then some v else none
  | _ => none

/-- The slot content an event dequeues from `q`: a successful POP. -/
def Event.popped (q : Nat) (e : Event) : Option Word32 :=
  match e.instr with
  | .pop u => if u.toNat = q ∧ (e.before.queue q).empty = false then some (e.before.queue q).front.val else none
  | _ => none

/-- An access to buffer `b` (R46). -/
def Event.accesses (b : Nat) (e : Event) : Bool :=
  match e.instr with
  | .encBegin u => u.toNat == b
  | .pushClear u _ => u.toNat == b
  | .pushRect u _ _ _ _ _ _ => u.toNat == b
  | .encSeal u => u.toNat == b
  | .encSize u => u.toNat == b
  | .decode u => u.toNat == b
  | .decodeN u _ => u.toNat == b
  | _ => false

/-- The epoch of an event: the issuer's own component of its clock at that moment (R45). -/
def Event.epoch (e : Event) : Nat := (e.before.vc e.agent).get e.agent

/-- `hb` (R44) over the events of a run that starts in `s`, by their places: program order, the successful PUSH of an
entry before its successful POP, and what follows from these. Entry number n of `q` is read by POP number n; the
entries that stood in `q` at the start come first. -/
inductive HappensBefore (s : State) (es : List Event) : Nat → Nat → Prop where
  | po {i j : Nat} {e f : Event} : i < j → es[i]? = some e → es[j]? = some f → e.agent = f.agent →
      HappensBefore s es i j
  | sw {i j : Nat} {e f : Event} (q : Nat) : i < j → es[i]? = some e → es[j]? = some f →
      (e.pushed q).isSome → (f.popped q).isSome →
      ((es.take j).filterMap (Event.popped q)).length =
        (s.contents q).length + ((es.take i).filterMap (Event.pushed q)).length →
      HappensBefore s es i j
  | trans {i j k : Nat} : HappensBefore s es i j → HappensBefore s es j k → HappensBefore s es i k

/-- The commands recorded in buffer `b` since the last ENC_BEGIN on it, in call order, `acc` being those before
these requests (R25). -/
def recordedBy (b : Nat) : List Command → List (Agent × Instr) → List Command
  | acc, [] => acc
  | acc, (_, i) :: rs =>
    recordedBy b
      (match i with
        | .encBegin u => if u.toNat = b then [] else acc
        | .pushClear u color => if u.toNat = b then acc ++ [.clear color] else acc
        | .pushRect u layer color x y w h => if u.toNat = b then acc ++ [.rect layer color x y w h] else acc
        | _ => acc) rs

end Sys2Proof.Machine
end

