-- ==== Sys2Proof/Machine/Schedule.lean ====
section
/-! DEFINITION. Schedules: the choices between the two agents of a whole run, given beforehand, and weak fairness, the one
assumption on them (70_reset_and_hazards.md R129). -/

namespace Sys2Proof.Machine

/-- The request the next step performs, and whose it is; none for a step of another kind. -/
def State.nextRequest (s : State) : Option (Agent × Instr) :=
  match s.nextAgent with
  | none => none
  | some a =>
    match (s.agent a).outstanding with
    | none => none
    | some r =>
      match decodeRequest r with
      | .ok i => some (a, i)
      | .error _ => none

/-- A step in which agent `a` goes where both could. The schedule that stands in the state is neither used nor
changed. -/
def stepBy (a : Agent) (s : State) : Host.Outcome State Fault Refusal :=
  match step { s with sched := [a] } with
  | .next t => .next { t with sched := s.sched }
  | .fault f => .fault f
  | .refused r => .refused r

/-- The run of `n` steps from `s` under a schedule: its choice number k is for step k, and is used only where both agents
could go. -/
def runBy (schedule : Nat → Agent) (s : State) : Nat → Host.Outcome State Fault Refusal
  | 0 => .next s
  | n + 1 =>
    match runBy schedule s n with
    | .next t => stepBy (schedule n) t
    | .fault f => .fault f
    | .refused r => .refused r

/-- Agent `a` has something to do: it is released, no fault is recorded, and its script has not come to `stop`. Then it
stands at a request, or at local lines before one (R120). -/
def State.waiting (s : State) (a : Agent) : Bool :=
  decide (s.phase = .released) && !s.fault.valid && (s.agent a).active

/-- The agent that goes next where the choice is `a`. -/
def State.granted (s : State) (a : Agent) : Option Agent := ({ s with sched := [a] } : State).nextAgent

/-- Weak fairness (R129) of a schedule, for runs from `s`: an agent that has something to do from some step on without end
is let go at one of those steps. -/
def WeaklyFair (schedule : Nat → Agent) (s : State) : Prop :=
  ∀ (a : Agent) (n : Nat), (∀ m, n ≤ m → ∃ t, runBy schedule s m = .next t ∧ t.waiting a = true) →
    ∃ m t, n ≤ m ∧ runBy schedule s m = .next t ∧ t.granted (schedule m) = some a

end Sys2Proof.Machine
end

