-- ==== Sys2Proof/Machine/Pool.lean ====
section
/-! DEFINITION. The pool pseudo-instructions as lines of an agent's script (30_encoding.md R66), and the pool's boot
(70_reset_and_hazards.md R117). They are software around the block (00_scope.md R4). Each takes `pos`, the position its
first line stands at. -/

namespace Sys2Proof.Machine

/-- The sentinel "no index held" (R66): a number that no 32-bit entry is. -/
def poolNone : LocalExpr := .const (2 ^ 32)

/-- `r` of R66: the variable that the response of a POP or PUSH goes to. -/
def respVar : Nat := 0

/-- The variable that holds the result of a pseudo-instruction. -/
def resultVar : Nat := 1

/-- `P.held`, or `C.cur`: the index the agent holds, or NONE (R66). -/
def heldVar : Nat := 2

/-- The second result of `try_consume`: the number of the buffer in view, NONE for the empty view. -/
def viewVar : Nat := 3

/-- `b` of `begin_frame` (R66). -/
def frameVar : Nat := 4

/-- The variable for a response that R66 does not name (those of ENC_BEGIN and ENC_SEAL). -/
def unnamedVar : Nat := 5

/-- `r.OK = 0` of the response in `r`. -/
def lastFailed : LocalCond := .eq (.ok (.var respVar)) (.const 0)

/-- A request with fixed operands. -/
def issueFixed (i : Instr) : ScriptLine := .issue respVar (requestWord i) none none

/-- The first line of a script that uses the pool: nothing is held yet (R66). -/
def poolInit : ScriptLine := .assign heldVar poolNone

/-- `begin_frame` (R66). -/
def beginFrame (free : Byte) (pos : Nat) : List ScriptLine :=
  [issueFixed (.pop free),
   .branch lastFailed (pos + 7),
   .assign frameVar (.val (.var respVar)),
   .issue unnamedVar (requestWord (.encBegin 0)) (some (.var frameVar)) none,
   .assign heldVar (.var frameVar),
   .assign resultVar (.var frameVar),
   .goto (pos + 8),
   .assign resultVar poolNone]

/-- `submit_frame` (R66): a no-op while nothing is held. -/
def submitFrame (ready : Byte) (pos : Nat) : List ScriptLine :=
  [.branch (.eq (.var heldVar) poolNone) (pos + 4),
   .issue unnamedVar (requestWord (.encSeal 0)) (some (.var heldVar)) none,
   .issue respVar (requestWord (.push ready 0)) none (some (.var heldVar)),
   .assign heldVar poolNone]

/-- `try_consume` (R66). Its results are the buffer in view and the index; both are `C.cur`, or NONE for the empty view and
the sentinel. -/
def tryConsume (ready : Byte) (pos : Nat) : List ScriptLine :=
  [issueFixed (.pop ready),
   .branch lastFailed (pos + 4),
   .assign heldVar (.val (.var respVar)),
   .goto (pos + 5),
   .assign heldVar poolNone,
   .assign viewVar (.var heldVar),
   .assign resultVar (.var heldVar)]

/-- `release_buffer idx` (R66); the result is the OK of the push. -/
def releaseBuffer (free : Byte) (idx : LocalExpr) : List ScriptLine :=
  [.issue respVar (requestWord (.push free 0)) none (some idx),
   .assign heldVar poolNone,
   .assign resultVar (.ok (.var respVar))]

/-- The pool's boot (R116, R117): after the reset, FREE gets the indices 0 to NBUF - 1 in increasing order, READY stays
empty, and the agents are released. -/
def poolBoot (free nbuf : Nat) : List HostAction :=
  .reset :: (List.range nbuf).map (fun b => .preload free (BitVec.ofNat 32 b)) ++ [.release]

/-! ### Who holds which index (R130) -/

/-- `P.held` or `C.cur` (R66): the index in the agent's variable, none for NONE. -/
def State.heldIndex (s : State) (a : Agent) : Option Nat :=
  (Sparse.get (s.agent a).vars heldVar).filter (· ≠ 2 ^ 32)

/-- The buffer that P is about to open: its ENC_BEGIN is the request outstanding. -/
def State.opening (s : State) : Option Nat :=
  match s.agentP.outstanding with
  | none => none
  | some r =>
    match decodeRequest r with
    | .ok (.encBegin b) => some b.toNat
    | _ => none

/-- The index an agent holds, as R130 counts it: `P.held`, or `C.cur`. Where `P.held` is NONE and P stands at an ENC_BEGIN
b, in the middle of `begin_frame`, P holds b: it has popped it (R122), and `P.held` takes it with ENC_BEGIN's response
(log 15). -/
def State.heldBy (s : State) : Agent → Option Nat
  | .producer => (s.heldIndex .producer).or s.opening
  | .consumer => s.heldIndex .consumer

/-- The requests of the pool's users (R66, R122): POP only with nothing held, accesses only to the buffer held, PUSH only
of the index held, FREE and READY each from its own side. -/
def poolAllows (free ready : Nat) : Agent → Option Nat → Instr → Bool
  | .producer, none, .pop q => q.toNat == free
  | .producer, some n, .encBegin b => b.toNat == n
  | .producer, some n, .pushClear b _ => b.toNat == n
  | .producer, some n, .pushRect b _ _ _ _ _ _ => b.toNat == n
  | .producer, some n, .encSeal b => b.toNat == n
  | .producer, some n, .encSize b => b.toNat == n
  | .producer, some n, .push q v => q.toNat == ready && v.toNat == n
  | .consumer, none, .pop q => q.toNat == ready
  | .consumer, some n, .encSize b => b.toNat == n
  | .consumer, some n, .decode b => b.toNat == n
  | .consumer, some n, .decodeN b _ => b.toNat == n
  | .consumer, _, .fbRead _ => true
  | .consumer, some n, .push q v => q.toNat == free && v.toNat == n
  | _, _, _ => false

/-- What an agent holds after its request `i`, performed in `s` without a fault: the index a POP has given it, nothing
after a PUSH, else what it held. -/
def State.heldAfter (s : State) (a : Agent) : Instr → Option Nat
  | .pop q => if (s.queue q.toNat).empty then none else some (s.queue q.toNat).front.val.toNat
  | .push _ _ => none
  | _ => s.heldBy a

/-- A step from `s` to `t` in which the agent that goes uses the pool as R66 says: its request is allowed, and afterwards it
holds what that request gives it. After a POP that is `C.cur`, or for P the ENC_BEGIN of the popped index comes next. -/
def poolStep (free ready : Nat) (s t : State) : Bool :=
  match s.nextAgent with
  | none => true
  | some a =>
    match (s.agent a).outstanding with
    | none => t.heldBy a == s.heldBy a
    | some r =>
      match decodeRequest r with
      | .error _ => false
      | .ok i => poolAllows free ready a (s.heldBy a) i && (t.fault.valid || t.heldBy a == s.heldAfter a i)

/-- The frame the next step submits: the index P pushes on READY, with the buffer as P leaves it. -/
def State.submitted (ready : Nat) (s : State) : List (Nat × Buffer) :=
  match s.nextRequest with
  | some (.producer, .push q v) =>
    if q.toNat = ready ∧ (s.queue ready).full (s.cfg.queue ready).cap = false then [(v.toNat, s.buf v.toNat)] else []
  | _ => []

/-- How many frames the next step takes from READY. -/
def State.consumed (ready : Nat) (s : State) : Nat :=
  match s.nextRequest with
  | some (.consumer, .pop q) => if q.toNat = ready ∧ (s.queue ready).empty = false then 1 else 0
  | _ => 0

/-- All the places of R130 together: FREE, READY, what P holds, what C holds. -/
def State.poolPlaces (free ready : Nat) (s : State) : List (Option Word32) :=
  (s.queue free).contents (s.cfg.queue free).cap ++ (s.queue ready).contents (s.cfg.queue ready).cap ++
  ((s.heldBy .producer).toList ++ (s.heldBy .consumer).toList).map fun n => some (BitVec.ofNat 32 n)

end Sys2Proof.Machine
end

