-- ==== Sys2Proof/Safety.lean ====
section
/-! DEFINITION. What counts as a good state and a good run of EGE-RQCC, in the terms the statements use: the shape of the
state, the content of a buffer, the causes that apply to a request, what a request leaves alone, and the end of a
run. -/

namespace Sys2Proof.Machine

/-! ### Good states -/

/-- A queue of `cap` slots: cursors in range (R17, R18), slots canonical and in range (R16), and every slot of
`contents(q)` written (R19). -/
def Queue.ok (cap : Nat) (Q : Queue) : Bool :=
  decide (Q.head < cap) && decide (Q.tail < cap) && Sparse.wf Q.slots && Q.slots.all (fun p => decide (p.1 < cap)) &&
  (Q.contents cap).all Option.isSome

/-- A buffer of `bufcap` bytes: cursor in range (R23), bytes canonical and in range (R21), every byte below the cursor
written (R25). -/
def Buffer.ok (bufcap : Nat) (B : Buffer) : Bool :=
  decide (B.cursor ≤ bufcap) && Memory.wf B.bytes && B.bytes.all (fun p => decide (p.1 < bufcap)) &&
  (List.range B.cursor).all fun i => (Memory.read B.bytes i).isSome

/-- A frame buffer of `fbcap` entries: the valid entries are written, and there are no more than fit (R27, R28). -/
def FrameBuffer.ok (fbcap : Nat) (fb : FrameBuffer) : Bool :=
  decide (fb.count ≤ fb.entry.length) && decide (fb.entry.length ≤ fbcap)

/-- FAULT: all zero, or a cause of R90 recorded (R29). -/
def FaultReg.ok (f : FaultReg) : Bool :=
  if f.valid then decide (1 ≤ f.cause.toNat) && decide (f.cause.toNat ≤ 9) else decide (f = FaultReg.reset)

/-- The shape of the state that reset establishes and every step keeps. -/
def State.inv (s : State) : Bool :=
  s.cfg.legal &&
  decide (s.queues.length = s.cfg.nq) && (List.range s.cfg.nq).all (fun q => (s.queue q).ok (s.cap q)) &&
  decide (s.bufs.length = s.cfg.nbuf) && s.bufs.all (Buffer.ok s.cfg.bufcap) &&
  s.fb.ok s.cfg.fbcap && s.fault.ok && decide (s.dec = DecodeWork.idle)

/-- No clock runs ahead of the agent it counts (R30, R45): what an agent knows of the other and the slot clocks are
behind VC[a][a], the access records are not beyond it; and only P writes buffers (R32). -/
def State.clocksOk (s : State) : Bool :=
  decide (s.vcC.p < s.vcP.p) && decide (s.vcP.c < s.vcC.c) &&
  s.queues.all (fun Q => Q.slots.all fun e => decide (e.2.clk.p < s.vcP.p) && decide (e.2.clk.c < s.vcC.c)) &&
  s.bufs.all (fun B =>
    (match B.lastWrite with
      | some (a, t) => decide (a = .producer) && decide (t ≤ s.vcP.p)
      | none => true) &&
    decide (B.lastRead.p ≤ s.vcP.p) && decide (B.lastRead.c ≤ s.vcC.c))

/-- The clocks as reset and preloads leave them (R20, R30, R115). -/
def State.clocksFresh (s : State) : Bool :=
  decide (s.vcP = ⟨1, 0⟩) && decide (s.vcC = ⟨0, 1⟩) &&
  s.queues.all fun Q => Q.slots.all fun e => decide (e.2.clk = Clock.zero)

/-- The bytes of a row of records (R71). -/
def recordsBytes (cmds : List Command) : List Byte := cmds.flatMap encodeCommand

/-- The sum of the sizes of a row of records (R71, R87). -/
def recordsSize (cmds : List Command) : Nat := (cmds.map commandSize).sum

/-- The content of a buffer below its cursor is the records of `cmds`, one after another (R25). -/
def Buffer.holds (B : Buffer) (cmds : List Command) : Bool :=
  decide (B.cursor = recordsSize cmds) && decide (Memory.readBytes B.bytes 0 B.cursor = some (recordsBytes cmds))

/-- The request that appends a command to buffer `b` (R73, R74). -/
def recordRequest (b : Byte) : Command → Instr
  | .clear color => .pushClear b color
  | .rect layer color x y w h => .pushRect b layer color x y w h

/-- Every buffer holds whole records below its cursor (R25). -/
def State.recordsOk (s : State) : Prop := ∀ b, ∃ cmds, (s.buf b).holds cmds = true

/-- The command of a record row. -/
def commandOf : Instr → Option Command
  | .recClear color => some (.clear color)
  | .recRect layer color x y w h => some (.rect layer color x y w h)
  | _ => none

/-- The leading records of a byte sequence, at most `room` of them, and why the parse stops there (R79, R82), said over
the decoder of bytes. -/
def recordsOf (room : Nat) : Nat → List Byte → List Command × StopReason
  | 0, _ => ([], .exhausted)
  | fuel + 1, bs =>
    match decodeRecord bs with
    | .error .noRecord => ([], .exhausted)
    | .error _ => ([], .truncated)
    | .ok (i, rest) =>
      match commandOf i with
      | none => ([], .badOpcode)
      | some c =>
        if room = 0 then ([], .fbFull)
        else (c :: (recordsOf (room - 1) fuel rest).1, (recordsOf (room - 1) fuel rest).2)

/-- What the procedure of R79 decodes from the bytes `m` below `len`, from a position on, with room for so many more
entries: the checks in their order, each with the bytes it reads. Where a byte it reads is not written, nothing. -/
inductive DecodesTo (m : Memory) (len : Nat) : Nat → Nat → List Command → StopReason → Prop where
  | exhausted {pos room : Nat} : len ≤ pos → DecodesTo m len pos room [] .exhausted
  | badOpcode {pos room : Nat} {op : Byte} : pos < len → Memory.read m pos = some op → recordSize op = none →
      DecodesTo m len pos room [] .badOpcode
  | truncated {pos room size : Nat} {op : Byte} : pos < len → Memory.read m pos = some op →
      recordSize op = some size → len < pos + size → DecodesTo m len pos room [] .truncated
  | fbFull {pos size : Nat} {op : Byte} : Memory.read m pos = some op →
      recordSize op = some size → pos + size ≤ len → DecodesTo m len pos 0 [] .fbFull
  | record {pos room size : Nat} {op : Byte} {bytes : List Byte} {i : Instr} {c : Command} {cmds : List Command}
      {reason : StopReason} : Memory.read m pos = some op → recordSize op = some size → pos + size ≤ len →
      Memory.readBytes m pos size = some bytes → decodeRecord bytes = .ok (i, []) → commandOf i = some c →
      DecodesTo m len (pos + size) room cmds reason → DecodesTo m len pos (room + 1) (c :: cmds) reason

/-! ### What can go wrong with a request (R90 to R99) -/

/-- The buffer a request accesses, and how (R46). -/
def bufferAccess : Instr → Option (Nat × AccessKind)
  | .encBegin b => some (b.toNat, .write)
  | .pushClear b _ => some (b.toNat, .write)
  | .pushRect b _ _ _ _ _ _ => some (b.toNat, .write)
  | .encSeal b => some (b.toNat, .write)
  | .encSize b => some (b.toNat, .read)
  | .decode b => some (b.toNat, .read)
  | .decodeN b _ => some (b.toNat, .read)
  | _ => none

/-- The record a request appends to a buffer. -/
def appendedRecord : Instr → Option (Nat × Command)
  | .pushClear b color => some (b.toNat, .clear color)
  | .pushRect b layer color x y w h => some (b.toNat, .rect layer color x y w h)
  | _ => none

/-- The bytes a request decodes: the buffer and the length (R83, R84). -/
def decodedInput (s : State) : Instr → Option (Nat × Nat)
  | .decode b => some (b.toNat, (s.buf b.toNat).cursor)
  | .decodeN b len => some (b.toNat, len.toNat)
  | _ => none

/-- The agents a request's port is wired to (R55, R93). -/
def portOpenTo (c : Config) (a : Agent) : Instr → Bool
  | .push q _ => decide (a = (c.queue q.toNat).pusher)
  | .pop q => decide (a = (c.queue q.toNat).popper)
  | .encBegin _ => decide (a = .producer)
  | .pushClear _ _ => decide (a = .producer)
  | .pushRect _ _ _ _ _ _ _ => decide (a = .producer)
  | .encSeal _ => decide (a = .producer)
  | .encSize _ => true
  | .decode _ => decide (a = .consumer)
  | .decodeN _ _ => decide (a = .consumer)
  | .fbRead _ => decide (a = .consumer)
  | .reservedOpAB _ _ => true
  | .reservedOpCF _ _ => true
  | .recClear _ => true
  | .recRect _ _ _ _ _ _ => true
  | .recUnrecognized _ => true

/-- An access by `a` to buffer `b` conflicts with one of the other agent that does not happen before it (R46, R94). -/
def conflicts (s : State) (a : Agent) (b : Nat) (kind : AccessKind) : Prop :=
  (∃ t, (s.buf b).lastWrite = some (a.other, t) ∧ (s.vc a).get a.other < t) ∨
  (kind = .write ∧ (s.vc a).get a.other < (s.buf b).lastRead.get a.other)

/-- Cause `c` applies to request `i` of the issuing agent, whatever other causes apply too (R91 to R99). -/
def applies (i : Instr) (s : State) : Cause → Prop
  | .illegalRequest => (∃ op rest, i = .reservedOpAB op rest) ∨ (∃ op rest, i = .reservedOpCF op rest)
  | .badUnit =>
    (∃ q v, i = .push q v ∧ s.cfg.nq ≤ q.toNat) ∨ (∃ q, i = .pop q ∧ s.cfg.nq ≤ q.toNat) ∨
    (∃ b kind, bufferAccess i = some (b, kind) ∧ s.cfg.nbuf ≤ b)
  | .portViolation => portOpenTo s.cfg s.issuer i = false
  | .dataRace => ∃ b kind, bufferAccess i = some (b, kind) ∧ conflicts s s.issuer b kind
  | .encNotWritable => ∃ b c, appendedRecord i = some (b, c) ∧ (s.buf b).writable = false
  | .encOverflow => ∃ b c, appendedRecord i = some (b, c) ∧ s.cfg.bufcap < (s.buf b).cursor + commandSize c
  | .badLength => ∃ b len, i = .decodeN b len ∧ s.cfg.bufcap < len.toNat
  | .fbIndex => ∃ idx, i = .fbRead idx ∧ s.fb.count ≤ idx.toNat
  | .unwrittenRead => ∃ b len, decodedInput s i = some (b, len) ∧
      decodeLoop (s.buf b).bytes (len + 1) (s.setDec ⟨len, 0, [], none⟩) = none

/-! ### Request words that are no operation (R54 to R56, R59) -/

/-- The bits of a request word that the OP uses, OP itself among them (R56). -/
def usedBits (op : Nat) : Packet :=
  match op with
  | 0 => 0x0000000000000000ffffffff0000ff0f
  | 1 => 0x0000000000000000000000000000ff0f
  | 2 => 0x0000000000000000000000000000ff0f
  | 3 => 0x0000000000000000ffffffff0000ff0f
  | 4 => 0xffffffffffffffffffffffff00ffff0f
  | 5 => 0x0000000000000000000000000000ff0f
  | 6 => 0x0000000000000000000000000000ff0f
  | 7 => 0x0000000000000000000000000000ff0f
  | 8 => 0x0000000000000000ffffffff0000ff0f
  | 9 => 0x0000000000000000ffffffff0000000f
  | _ => 0

/-- The words of R59: a reserved OP, or a bit set that the OP does not use. -/
def illegalWord (r : Packet) : Prop := 10 ≤ r.toNat % 16 ∨ r &&& ~~~(usedBits (r.toNat % 16)) ≠ 0

/-! ### What a request leaves alone -/

/-- Every queue but `n` is unchanged. -/
def sameQueuesBut (n : Nat) (s t : State) : Prop := ∀ q, q ≠ n → t.queue q = s.queue q

/-- Every queue is unchanged. -/
def sameQueues (s t : State) : Prop := ∀ q, t.queue q = s.queue q

/-- Every buffer but `n` is unchanged: bytes, cursor, flag and access record. -/
def sameBufsBut (n : Nat) (s t : State) : Prop := ∀ b, b ≠ n → t.buf b = s.buf b

/-- Every buffer is unchanged. -/
def sameBufs (s t : State) : Prop := ∀ b, t.buf b = s.buf b

/-- Every byte of every buffer reads as before. -/
def sameBytes (s t : State) : Prop := ∀ b i, t.byte b i = s.byte b i

/-- Both vector clocks are unchanged. -/
def sameClocks (s t : State) : Prop := ∀ a, t.vc a = s.vc a

/-- The configuration and the model's own fields are unchanged: phase, host, issuer, dec, sched, turns. -/
def sameOwn (s t : State) : Prop :=
  t.cfg = s.cfg ∧ t.phase = s.phase ∧ t.host = s.host ∧ t.issuer = s.issuer ∧ t.dec = s.dec ∧
  t.sched = s.sched ∧ t.turns = s.turns

/-- The issuing agent has response `r`, the other agent's port is as it was, and neither agent's script, position and
variables change. -/
def answers (s t : State) (r : Packet) : Prop :=
  t.agent s.issuer = { s.agent s.issuer with resp := some r } ∧ t.agent s.issuer.other = s.agent s.issuer.other

/-- What the issuing agent has after a request that left no trace but response `r`. -/
def onlyAnswers (s t : State) (r : Packet) : Prop :=
  answers s t r ∧ sameQueues s t ∧ sameBufs s t ∧ sameClocks s t ∧ t.fb = s.fb ∧ t.fault = s.fault ∧ sameOwn s t

/-- Fault entry as R102 states it: FAULT records cause number `code`, the issuer and the request word; everything else
is as before. -/
def faultsWith (i : Instr) (s : State) (code : BitVec 4) : Prop :=
  exec i s = .next { s with fault := ⟨true, code, if s.issuer = .consumer then 1 else 0, requestWord i⟩ }

/-! ### Runs -/

/-- A run has ended normally (R120): both agents have stopped and no fault is recorded. -/
def State.ended (s : State) : Bool := !s.agentP.active && !s.agentC.active && !s.fault.valid

/-- The states a run from `s` reaches. -/
inductive Reaches (s : State) : State → Prop where
  | start : Reaches s s
  | step {t u : State} : Reaches s t → step t = .next u → Reaches s u

/-- A safe run: no state it reaches records a fault (R103: a faulted state refutes that the run completes). -/
def safeFrom (s : State) : Prop := ∀ t, Reaches s t → t.fault.valid = false

/-- What a claim about every fair schedule says (R129, 95_test_vectors.md section 3): under each the run from `s` comes to
a normal end (R120), and that state has `P`. -/
def endsFairly (s : State) (P : State → Prop) : Prop :=
  ∀ schedule, WeaklyFair schedule s → ∃ n t, runBy schedule s n = .next t ∧ t.ended = true ∧ P t

/-! ### The pool (R117, R130) -/

/-- The configuration of the pool: FREE is pushed by C and popped by P, READY the other way, and each can hold all the
indices (R66, R117, R126). -/
def poolConfig (c : Config) (free ready : Nat) : Prop :=
  c.legal = true ∧ free < c.nq ∧ ready < c.nq ∧
  (c.queue free).pusher = .consumer ∧ (c.queue free).popper = .producer ∧
  (c.queue ready).pusher = .producer ∧ (c.queue ready).popper = .consumer ∧
  c.nbuf + 1 ≤ (c.queue free).cap ∧ c.nbuf + 1 ≤ (c.queue ready).cap

/-- The states a run of the machine reaches from `s` while both agents use the pool as R66 says, with the frames submitted
so far, oldest first, and how many of them have been taken. -/
inductive PoolRun (free ready : Nat) (s : State) : State → List (Nat × Buffer) → Nat → Prop where
  | start : PoolRun free ready s s [] 0
  | step {t u : State} {frames : List (Nat × Buffer)} {taken : Nat} : PoolRun free ready s t frames taken →
      step t = .next u → poolStep free ready t u = true →
      PoolRun free ready s u (frames ++ t.submitted ready) (taken + t.consumed ready)

end Sys2Proof.Machine
end

