-- ==== Sys2Proof/Certificates/Slice0/Obligations.lean ====
section
/-! DEFINITION. The statements for the provers. Rules R<n> are those of spec/. -/

open Sys2Proof Sys2Proof.Machine

/-! ### Encodings -/

/-- Decoding what the encoder writes gives the instruction back, for every well-formed instruction and every operand
(R54 to R56, R60 to R62). -/
def Obligations.DecodeOfEncodeIsTheInstruction : Prop :=
  ∀ i : Instr, i.wellFormed = true → decode (encode i) = .ok i

/-- A request word the decoder accepts is the one word of its instruction: no bit of it is dropped (R54 to R56). -/
def Obligations.AcceptedWordEncodesBack : Prop :=
  ∀ (r : Packet) (i : Instr), decodeRequest r = .ok i →
    i.wellFormed = true ∧ i.isRequest = true ∧ encode i = .request r

/-- Each request row of the opcode table is selected exactly by its mask and match (R55, R56, R59). -/
def Obligations.TableRowsSelectTheirInstruction : Prop :=
  ∀ r : Packet,
    ((∃ q v, decodeRequest r = .ok (.push q v)) ↔
      r &&& 0xffffffffffffffff00000000ffff00ff = 0x00000000000000000000000000000000) ∧
    ((∃ q, decodeRequest r = .ok (.pop q)) ↔
      r &&& 0xffffffffffffffffffffffffffff00ff = 0x00000000000000000000000000000001) ∧
    ((∃ b, decodeRequest r = .ok (.encBegin b)) ↔
      r &&& 0xffffffffffffffffffffffffffff00ff = 0x00000000000000000000000000000002) ∧
    ((∃ b c, decodeRequest r = .ok (.pushClear b c)) ↔
      r &&& 0xffffffffffffffff00000000ffff00ff = 0x00000000000000000000000000000003) ∧
    ((∃ b l c x y w h, decodeRequest r = .ok (.pushRect b l c x y w h)) ↔
      r &&& 0x000000000000000000000000ff0000ff = 0x00000000000000000000000000000004) ∧
    ((∃ b, decodeRequest r = .ok (.encSeal b)) ↔
      r &&& 0xffffffffffffffffffffffffffff00ff = 0x00000000000000000000000000000005) ∧
    ((∃ b, decodeRequest r = .ok (.encSize b)) ↔
      r &&& 0xffffffffffffffffffffffffffff00ff = 0x00000000000000000000000000000006) ∧
    ((∃ b, decodeRequest r = .ok (.decode b)) ↔
      r &&& 0xffffffffffffffffffffffffffff00ff = 0x00000000000000000000000000000007) ∧
    ((∃ b n, decodeRequest r = .ok (.decodeN b n)) ↔
      r &&& 0xffffffffffffffff00000000ffff00ff = 0x00000000000000000000000000000008) ∧
    ((∃ n, decodeRequest r = .ok (.fbRead n)) ↔
      r &&& 0xffffffffffffffff00000000ffffffff = 0x00000000000000000000000000000009) ∧
    ((∃ op rest, decodeRequest r = .ok (.reservedOpAB op rest)) ↔
      r &&& 0x0000000000000000000000000000000e = 0x0000000000000000000000000000000a) ∧
    ((∃ op rest, decodeRequest r = .ok (.reservedOpCF op rest)) ↔
      r &&& 0x0000000000000000000000000000000c = 0x0000000000000000000000000000000c)

/-- R59, R91: a word with a reserved OP, or with a bit set that its OP does not use, faults with ILLEGAL_REQUEST whatever
else is wrong with it, recording the word and the issuer and changing nothing else; every other word is one of the ten
requests. -/
def Obligations.IllegalWordsFault : Prop :=
  ∀ (r : Packet) (s : State), s.fault.valid = false →
    (illegalWord r →
      performWord r s = .next { s with fault := ⟨true, 1, if s.issuer = .consumer then 1 else 0, r⟩ }) ∧
    (¬ illegalWord r → ∃ i, decodeRequest r = .ok i ∧ encode i = .request r ∧
      (∀ op rest, i ≠ .reservedOpAB op rest) ∧ (∀ op rest, i ≠ .reservedOpCF op rest))

/-- A few request words and records of 95_test_vectors.md decode to the instruction they stand for (R54 to R61). -/
def Obligations.SpecWordsDecode : Prop :=
  decodeRequest 0x00000000000000000000000700000000 = .ok (.push 0 7) ∧
  decodeRequest 0x00000000000000000000000000000101 = .ok (.pop 1) ∧
  decodeRequest 0x00080007fffafffb000000aa00010004 =
    .ok (.pushRect 0 1 0xaa 0xfffb 0xfffa 7 8) ∧
  decodeRequest 0x00000000000000000000000e00000008 = .ok (.decodeN 0 14) ∧
  decodeRequest 0x0000000000000000000000000000000f = .ok (.reservedOpCF 0xf 0) ∧
  decodeRequest 0x00000000000000000000000000000109 = .error (.unusedFieldNotZero 9) ∧
  decode (.record [0x00, 0x44, 0x33, 0x22, 0x11]) = .ok (.recClear 0x11223344) ∧
  decode (.record [0x01, 0x02, 0xff, 0, 0, 0, 1, 0, 2, 0, 3, 0, 4, 0]) = .ok (.recRect 2 0xff 1 2 3 4)

/-- R60, R61: the bytes of a Clear and of a Rect record, offset by offset, least significant byte first; they are what the
encoder writes and what the decoder reads. -/
def Obligations.RecordBytesStandAtTheirOffsets : Prop :=
  ∀ (layer : Byte) (color : Word32) (x y w h : Half),
    let clearBytes : List Byte :=
      [0x00, color.extractLsb' 0 8, color.extractLsb' 8 8, color.extractLsb' 16 8, color.extractLsb' 24 8]
    let rectBytes : List Byte :=
      [0x01, layer, color.extractLsb' 0 8, color.extractLsb' 8 8, color.extractLsb' 16 8, color.extractLsb' 24 8,
       x.extractLsb' 0 8, x.extractLsb' 8 8, y.extractLsb' 0 8, y.extractLsb' 8 8,
       w.extractLsb' 0 8, w.extractLsb' 8 8, h.extractLsb' 0 8, h.extractLsb' 8 8]
    encodeCommand (.clear color) = clearBytes ∧ decode (.record clearBytes) = .ok (.recClear color) ∧
    encodeCommand (.rect layer color x y w h) = rectBytes ∧
    decode (.record rectBytes) = .ok (.recRect layer color x y w h)

/-- R62: every opcode byte 0x02 to 0xFF stops the decode before it, with BAD_OPCODE and no fault; 0x00 and 0x01 are the two
record opcodes, and the encoder writes no other. -/
def Obligations.UnrecognizedOpcodeStopsTheDecode : Prop :=
  (∀ (m : Memory) (s : State) (op : Byte), s.dec.stop = none → s.dec.pos < s.dec.len →
    Memory.read m s.dec.pos = some op → 2 ≤ op.toNat →
    decodeRound m s = some { s with dec := { s.dec with stop := some .badOpcode } }) ∧
  (∀ op : Byte, recordSize op = if op.toNat = 0 then some 5 else if op.toNat = 1 then some 14 else none) ∧
  (∀ c : Command, ∃ op rest, encodeCommand c = op :: rest ∧
    op.toNat = match c with | .clear _ => 0 | .rect _ _ _ _ _ _ => 1)

/-- The layout of the response word (R57). -/
def Obligations.ResponseFieldsStandAtTheirBits : Prop :=
  ∀ r : Response,
    r.word.extractLsb' 0 1 = (if r.ok then 1 else 0) ∧ r.word.extractLsb' 1 3 = 0 ∧
    r.word.extractLsb' 4 4 = r.reason ∧ r.word.extractLsb' 8 8 = r.tag ∧ r.word.extractLsb' 16 8 = r.layer ∧
    r.word.extractLsb' 24 8 = 0 ∧ r.word.extractLsb' 32 32 = r.val ∧ r.word.extractLsb' 64 16 = r.x ∧
    r.word.extractLsb' 80 16 = r.y ∧ r.word.extractLsb' 96 16 = r.w ∧ r.word.extractLsb' 112 16 = r.h

/-! ### Steps -/

/-- When the agent that goes next stands at a request whose word decodes to `i`, the step is `exec i` on the state with
that agent issuing (a used choice counted, its old response gone), and then the agent takes the response and goes on
one line and over the local lines behind it, to its next request (R12, R14, R53). The scripts, the response held and the count of choices are the model's (logs 1, 4, 5, 6). -/
def Obligations.StepRunsTheDecodedInstruction : Prop :=
  ∀ (s : State) (a : Agent) (dst : Nat) (base : Packet) (u v : Option LocalExpr) (i : Instr),
    s.cfg.legal = true → s.phase = .released → s.fault.valid = false → s.nextAgent = some a →
    (s.agent a).line = .issue dst base u v →
    decodeRequest (issuedWord base u v (s.agent a).vars) = .ok i →
    step s = settled a dst (exec i (s.countChoice.issuing a)) ∧
    (∀ t : State, settled a dst (.next t) = .next (t.settle a dst)) ∧
    (∀ (t : State) (r : Packet), (t.agent a).resp = some r →
      (t.settle a dst).agent a = AgentPort.goLocal { t.agent a with
        vars := Sparse.put (t.agent a).vars dst r.toNat
        pos := (t.agent a).pos + 1 }) ∧
    (∀ p : AgentPort, p.outstanding.isSome ∨ p.active = false → p.goLocal = p) ∧
    (∀ t : State, (t.agent a).resp = none → t.settle a dst = t)

/-- Whichever agent has not stopped can be the next to go: the interleaving is any (R6, R12, R48). How a given
interleaving stands in the state is the model's choice (log 1). -/
def Obligations.AnyActiveAgentCanGoNext : Prop :=
  ∀ (s : State) (a : Agent), s.cfg.legal = true → s.phase = .released → s.fault.valid = false →
    (s.agent a).active = true →
    step { s with sched := a :: s.sched } =
      agentStep a (if (s.agent a.other).active then { s with turns := s.turns + 1 }
        else { s with sched := a :: s.sched })

/-- An ended run: both agents have stopped, and without a host reset to come the block stays as it is (R112,
R120; that a reset may come then is log 3). -/
def Obligations.IdleChangesNothing : Prop :=
  ∀ s : State, s.cfg.legal = true → s.phase = .released → s.ended = true →
    (∀ rest, s.host ≠ .reset :: rest) → step s = .next s

/-! ### Ring queues -/

/-- PUSH (R67): full answers OK = 0 and changes nothing; else the value and the issuer's clock stand in the slot at head,
head moves on by the mask, VC[a][a] counts on, OK = 1, and nothing else changes. -/
def Obligations.PushEnqueuesOrReportsFull : Prop :=
  ∀ (s : State) (q : Byte) (v : Word32), s.fault.valid = false → q.toNat < s.cfg.nq →
    s.issuer = (s.cfg.queue q.toNat).pusher →
    let Q := s.queue q.toNat
    let next := (Q.head + 1) &&& (s.cap q.toNat - 1)
    let a := s.issuer
    (next = Q.tail → ∃ t, exec (.push q v) s = .next t ∧ onlyAnswers s t (Response.word { ok := false })) ∧
    (next ≠ Q.tail → ∃ t, exec (.push q v) s = .next t ∧
      (t.queue q.toNat).head = next ∧ (t.queue q.toNat).tail = Q.tail ∧
      (∀ i, Sparse.get (t.queue q.toNat).slots i =
        if i = Q.head then some ⟨v, s.vc a⟩ else Sparse.get Q.slots i) ∧
      (t.vc a).get a = (s.vc a).get a + 1 ∧ (t.vc a).get a.other = (s.vc a).get a.other ∧
      t.vc a.other = s.vc a.other ∧
      answers s t (Response.word { ok := true }) ∧ sameQueuesBut q.toNat s t ∧ sameBufs s t ∧ sameBytes s t ∧
      t.fb = s.fb ∧ t.fault = s.fault ∧ sameOwn s t)

/-- POP (R68): empty answers OK = 0, VAL = 0 and changes nothing; else the slot at tail is answered, its clock is joined
into the issuer's, tail moves on by the mask, and nothing else changes. -/
def Obligations.PopDequeuesOrReportsEmpty : Prop :=
  ∀ (s : State) (q : Byte), s.fault.valid = false → q.toNat < s.cfg.nq →
    s.issuer = (s.cfg.queue q.toNat).popper →
    let Q := s.queue q.toNat
    let a := s.issuer
    (Q.head = Q.tail → ∃ t, exec (.pop q) s = .next t ∧
      onlyAnswers s t (Response.word { ok := false, val := 0 })) ∧
    (∀ slot, Q.head ≠ Q.tail → Sparse.get Q.slots Q.tail = some slot → ∃ t, exec (.pop q) s = .next t ∧
      t.queue q.toNat = { Q with tail := (Q.tail + 1) &&& (s.cap q.toNat - 1) } ∧
      (∀ x, (t.vc a).get x = max ((s.vc a).get x) (slot.clk.get x)) ∧ t.vc a.other = s.vc a.other ∧
      answers s t (Response.word { ok := true, val := slot.val }) ∧ sameQueuesBut q.toNat s t ∧ sameBufs s t ∧
      sameBytes s t ∧ t.fb = s.fb ∧ t.fault = s.fault ∧ sameOwn s t)

/-- A successful PUSH puts its value behind `contents(q)`, a successful POP takes its value from the front, and neither
touches another queue's contents (R19, R69). -/
def Obligations.PushAndPopAreFirstInFirstOut : Prop :=
  ∀ (s : State) (q : Byte), s.inv = true → s.fault.valid = false → q.toNat < s.cfg.nq →
    (∀ v, s.issuer = (s.cfg.queue q.toNat).pusher →
      (s.contents q.toNat).length ≠ s.cap q.toNat - 1 →
      ∃ t, exec (.push q v) s = .next t ∧ t.contents q.toNat = s.contents q.toNat ++ [some v] ∧
        ∀ n, n ≠ q.toNat → t.contents n = s.contents n) ∧
    (s.issuer = (s.cfg.queue q.toNat).popper → s.contents q.toNat ≠ [] →
      ∃ t v, exec (.pop q) s = .next t ∧ s.contents q.toNat = some v :: t.contents q.toNat ∧
        (t.agent s.issuer).resp = some (Response.word { ok := true, val := v }) ∧
        ∀ n, n ≠ q.toNat → t.contents n = s.contents n)

/-- R9: a queue of N slots holds at most N - 1 entries; a PUSH answers OK = 0 exactly when it holds N - 1, and a POP exactly
when it holds none. -/
def Obligations.UsableCapacityIsOneLessThanTheSlots : Prop :=
  ∀ (s : State) (q : Byte), s.inv = true → s.fault.valid = false → q.toNat < s.cfg.nq →
    (s.contents q.toNat).length ≤ s.cap q.toNat - 1 ∧
    (∀ v, s.issuer = (s.cfg.queue q.toNat).pusher →
      ∃ t r, exec (.push q v) s = .next t ∧ (t.agent s.issuer).resp = some r ∧
        (responseOk r = false ↔ (s.contents q.toNat).length = s.cap q.toNat - 1)) ∧
    (s.issuer = (s.cfg.queue q.toNat).popper →
      ∃ t r, exec (.pop q) s = .next t ∧ (t.agent s.issuer).resp = some r ∧
        (responseOk r = false ↔ (s.contents q.toNat).length = 0))

/-- The FIFO law over runs (R69): what stood in the queue and what was pushed, in order, is what was popped, in order, and
what stands there now. -/
def Obligations.FifoLawOverRuns : Prop :=
  ∀ (s t : State) (rs : List (Agent × Instr)) (es : List Event) (q : Nat),
    s.inv = true → q < s.cfg.nq → eventsOf rs s = some es → runRequests rs s = some t →
    s.contents q ++ (es.filterMap (Event.pushed q)).map some =
      (es.filterMap (Event.popped q)).map some ++ t.contents q

/-! ### Encoder -/

/-- ENC_BEGIN (R72): cursor 0, writable 1, no byte changed. -/
def Obligations.EncBeginOpensTheBuffer : Prop :=
  ∀ (s : State) (b : Byte), s.fault.valid = false → b.toNat < s.cfg.nbuf → s.issuer = .producer →
    ¬ conflicts s .producer b.toNat .write →
    ∃ t, exec (.encBegin b) s = .next t ∧
      t.buf b.toNat = { s.buf b.toNat with
        cursor := 0
        writable := true
        lastWrite := some (.producer, s.vcP.p)
        lastRead := ⟨0, 0⟩ } ∧
      sameBytes s t ∧ sameBufsBut b.toNat s t ∧ sameQueues s t ∧ sameClocks s t ∧ t.fb = s.fb ∧
      t.fault = s.fault ∧ sameOwn s t ∧ answers s t (Response.word { ok := true, val := 0 })

/-- PUSH_CLEAR (R73): five bytes at the old cursor, the cursor past them, every other byte as it was. -/
def Obligations.PushClearAppendsFiveBytes : Prop :=
  ∀ (s : State) (b : Byte) (color : Word32), s.fault.valid = false → b.toNat < s.cfg.nbuf →
    s.issuer = .producer → ¬ conflicts s .producer b.toNat .write →
    let B := s.buf b.toNat
    B.writable = true → B.cursor + 5 ≤ s.cfg.bufcap →
    ∃ t, exec (.pushClear b color) s = .next t ∧
      (∀ n i, t.byte n i =
        if n = b.toNat ∧ B.cursor ≤ i ∧ i < B.cursor + 5 then
          [(0x00 : Byte), color.extractLsb' 0 8, color.extractLsb' 8 8, color.extractLsb' 16 8,
            color.extractLsb' 24 8][i - B.cursor]?
        else s.byte n i) ∧
      (t.buf b.toNat).cursor = B.cursor + 5 ∧ (t.buf b.toNat).writable = true ∧
      (t.buf b.toNat).lastWrite = some (.producer, s.vcP.p) ∧ (t.buf b.toNat).lastRead = ⟨0, 0⟩ ∧
      sameBufsBut b.toNat s t ∧ sameQueues s t ∧ sameClocks s t ∧ t.fb = s.fb ∧ t.fault = s.fault ∧
      sameOwn s t ∧ answers s t (Response.word { ok := true, val := BitVec.ofNat 32 (B.cursor + 5) })

/-- PUSH_RECT (R74): fourteen bytes at the old cursor, the cursor past them, every other byte as it was. -/
def Obligations.PushRectAppendsFourteenBytes : Prop :=
  ∀ (s : State) (b layer : Byte) (color : Word32) (x y w h : Half), s.fault.valid = false →
    b.toNat < s.cfg.nbuf → s.issuer = .producer → ¬ conflicts s .producer b.toNat .write →
    let B := s.buf b.toNat
    B.writable = true → B.cursor + 14 ≤ s.cfg.bufcap →
    ∃ t, exec (.pushRect b layer color x y w h) s = .next t ∧
      (∀ n i, t.byte n i =
        if n = b.toNat ∧ B.cursor ≤ i ∧ i < B.cursor + 14 then
          [(0x01 : Byte), layer, color.extractLsb' 0 8, color.extractLsb' 8 8, color.extractLsb' 16 8,
            color.extractLsb' 24 8, x.extractLsb' 0 8, x.extractLsb' 8 8, y.extractLsb' 0 8, y.extractLsb' 8 8,
            w.extractLsb' 0 8, w.extractLsb' 8 8, h.extractLsb' 0 8, h.extractLsb' 8 8][i - B.cursor]?
        else s.byte n i) ∧
      (t.buf b.toNat).cursor = B.cursor + 14 ∧ (t.buf b.toNat).writable = true ∧
      (t.buf b.toNat).lastWrite = some (.producer, s.vcP.p) ∧ (t.buf b.toNat).lastRead = ⟨0, 0⟩ ∧
      sameBufsBut b.toNat s t ∧ sameQueues s t ∧ sameClocks s t ∧ t.fb = s.fb ∧ t.fault = s.fault ∧
      sameOwn s t ∧ answers s t (Response.word { ok := true, val := BitVec.ofNat 32 (B.cursor + 14) })

/-- ENC_SEAL (R75): writable 0, cursor and bytes as they were. -/
def Obligations.EncSealClosesTheBuffer : Prop :=
  ∀ (s : State) (b : Byte), s.fault.valid = false → b.toNat < s.cfg.nbuf → s.issuer = .producer →
    ¬ conflicts s .producer b.toNat .write →
    ∃ t, exec (.encSeal b) s = .next t ∧
      t.buf b.toNat = { s.buf b.toNat with
        writable := false
        lastWrite := some (.producer, s.vcP.p)
        lastRead := ⟨0, 0⟩ } ∧
      sameBytes s t ∧ sameBufsBut b.toNat s t ∧ sameQueues s t ∧ sameClocks s t ∧ t.fb = s.fb ∧
      t.fault = s.fault ∧ sameOwn s t ∧
      answers s t (Response.word { ok := true, val := BitVec.ofNat 32 (s.buf b.toNat).cursor })

/-- ENC_SIZE (R76), by either agent: the cursor is answered; only the access is noted. -/
def Obligations.EncSizeReportsTheCursor : Prop :=
  ∀ (s : State) (b : Byte), s.fault.valid = false → b.toNat < s.cfg.nbuf →
    ¬ conflicts s s.issuer b.toNat .read →
    ∃ t, exec (.encSize b) s = .next t ∧
      t.buf b.toNat = { s.buf b.toNat with
        lastRead := (s.buf b.toNat).lastRead.set s.issuer ((s.vc s.issuer).get s.issuer) } ∧
      sameBytes s t ∧ sameBufsBut b.toNat s t ∧ sameQueues s t ∧ sameClocks s t ∧ t.fb = s.fb ∧
      t.fault = s.fault ∧ sameOwn s t ∧
      answers s t (Response.word { ok := true, val := BitVec.ofNat 32 (s.buf b.toNat).cursor })

/-- R95, R96: appending to a buffer that is not writable faults with ENC_NOT_WRITABLE, and where the record does not fit, a
writable one with ENC_OVERFLOW; nothing is written and the cursor stays. -/
def Obligations.AppendOutsideWindowOrCapacityFaults : Prop :=
  ∀ (s : State) (i : Instr) (b : Nat) (c : Command), appendedRecord i = some (b, c) →
    s.fault.valid = false → b < s.cfg.nbuf → s.issuer = .producer → ¬ conflicts s .producer b .write →
    ((s.buf b).writable = false → faultsWith i s 5) ∧
    ((s.buf b).writable = true →
      s.cfg.bufcap < (s.buf b).cursor + (match c with | .clear _ => 5 | .rect _ _ _ _ _ _ => 14) →
      faultsWith i s 6)

/-- ENC_BEGIN, ENC_SEAL, ENC_SIZE and FB_READ are idempotent: issued again at once, they leave the very same state (R41). -/
def Obligations.RepeatedReadsAndFlagWritesChangeNothing : Prop :=
  ∀ (s t : State) (i : Instr),
    ((∃ b, i = .encBegin b) ∨ (∃ b, i = .encSeal b) ∨ (∃ b, i = .encSize b) ∨ ∃ n, i = .fbRead n) →
    exec i s = .next t → t.fault.valid = false → exec i t = .next t

/-- The records of a buffer in call order (R25): from a buffer that holds the records `cmds`, any run without a fault
leaves it holding the records that the run's ENC_BEGIN, PUSH_CLEAR and PUSH_RECT on it leave; after reset it holds
none. -/
def Obligations.ContentIsTheRecordsInCallOrder : Prop :=
  (∀ (s t : State) (rs : List (Agent × Instr)) (b : Nat) (cmds : List Command),
    (s.buf b).holds cmds = true → runRequests rs s = some t →
    (t.buf b).holds (recordedBy b cmds rs) = true) ∧
  (∀ (c : Config) (b : Nat), ((State.ofConfig c).buf b).holds [] = true)

/-! ### Decoder -/

/-- DECODE and DECODE_N over written bytes do what a parser of the byte sequence does (R79, R82 to R84): the frame buffer
is rebuilt from its leading records, entries behind keep what they held, the count and the reason are answered, and
nothing else changes but the note of the access. -/
def Obligations.DecodeRefinesTheRecordParser : Prop :=
  ∀ (s : State) (i : Instr) (b : Byte) (len : Nat) (bs : List Byte),
    s.fault.valid = false → b.toNat < s.cfg.nbuf → s.issuer = .consumer →
    ¬ conflicts s .consumer b.toNat .read →
    ((i = .decode b ∧ len = (s.buf b.toNat).cursor) ∨
      ∃ n, i = .decodeN b n ∧ len = n.toNat ∧ len ≤ s.cfg.bufcap) →
    Memory.readBytes (s.buf b.toNat).bytes 0 len = some bs →
    let cmds := (recordsOf s.cfg.fbcap (len + 1) bs).1
    let reason := (recordsOf s.cfg.fbcap (len + 1) bs).2
    ∃ t, exec i s = .next t ∧ t.fb.count = cmds.length ∧ t.fb.entry = cmds ++ s.fb.entry.drop cmds.length ∧
      answers s t (Response.word
        { ok := true, val := BitVec.ofNat 32 cmds.length, reason := match reason with
          | .exhausted => 0
          | .truncated => 1
          | .badOpcode => 2
          | .fbFull => 3 }) ∧
      t.buf b.toNat = { s.buf b.toNat with
        lastRead := (s.buf b.toNat).lastRead.set .consumer s.vcC.c } ∧
      sameBytes s t ∧ sameBufsBut b.toNat s t ∧ sameQueues s t ∧ sameClocks s t ∧ t.fault = s.fault ∧
      t.cfg = s.cfg ∧ t.phase = s.phase ∧ t.host = s.host ∧ t.issuer = s.issuer ∧ t.dec = DecodeWork.idle ∧
      t.sched = s.sched ∧ t.turns = s.turns

/-- DECODE and DECODE_N do what the procedure of R79 does, over written and unwritten bytes alike: they answer what it
decodes, and where it comes to an unwritten byte they fault with UNWRITTEN_READ (R22, R83, R84, R99). -/
def Obligations.DecodeFollowsTheProcedure : Prop :=
  ∀ (s : State) (i : Instr) (b : Byte) (len : Nat),
    s.fault.valid = false → b.toNat < s.cfg.nbuf → s.issuer = .consumer →
    ¬ conflicts s .consumer b.toNat .read →
    ((i = .decode b ∧ len = (s.buf b.toNat).cursor) ∨
      ∃ n, i = .decodeN b n ∧ len = n.toNat ∧ len ≤ s.cfg.bufcap) →
    (∀ cmds reason, DecodesTo (s.buf b.toNat).bytes len 0 s.cfg.fbcap cmds reason →
      ∃ t, exec i s = .next t ∧ t.fb = ⟨cmds.length, cmds ++ s.fb.entry.drop cmds.length⟩ ∧
        answers s t (Response.word
          { ok := true, val := BitVec.ofNat 32 cmds.length, reason := match reason with
            | .exhausted => 0
            | .truncated => 1
            | .badOpcode => 2
            | .fbFull => 3 }) ∧
        t.buf b.toNat = { s.buf b.toNat with
          lastRead := (s.buf b.toNat).lastRead.set .consumer s.vcC.c } ∧
        sameBytes s t ∧ sameBufsBut b.toNat s t ∧ sameQueues s t ∧ sameClocks s t ∧ t.fault = s.fault ∧
        t.cfg = s.cfg ∧ t.phase = s.phase ∧ t.host = s.host ∧ t.issuer = s.issuer ∧ t.dec = DecodeWork.idle ∧
        t.sched = s.sched ∧ t.turns = s.turns) ∧
    ((∀ cmds reason, ¬ DecodesTo (s.buf b.toNat).bytes len 0 s.cfg.fbcap cmds reason) → faultsWith i s 9)

/-- R87, the truncation law: j is the largest number of leading records that fit in `len` bytes. -/
def Obligations.TruncationLaw : Prop :=
  ∀ (s : State) (b : Byte) (len : Word32) (cmds : List Command) (j : Nat),
    s.fault.valid = false → b.toNat < s.cfg.nbuf → s.issuer = .consumer →
    ¬ conflicts s .consumer b.toNat .read → (s.buf b.toNat).holds cmds = true →
    (s.buf b.toNat).cursor ≤ s.cfg.bufcap → len.toNat ≤ (s.buf b.toNat).cursor →
    j ≤ cmds.length → recordsSize (cmds.take j) ≤ len.toNat →
    (j < cmds.length → len.toNat < recordsSize (cmds.take (j + 1))) →
    ∃ t, exec (.decodeN b len) s = .next t ∧ t.fault = s.fault ∧ t.fb.count = min j s.cfg.fbcap ∧
      t.fb.entry.take t.fb.count = cmds.take (min j s.cfg.fbcap) ∧
      answers s t (Response.word
        { ok := true
          val := BitVec.ofNat 32 (min j s.cfg.fbcap)
          reason := if s.cfg.fbcap < j then 3 else if len.toNat = recordsSize (cmds.take j) then 0 else 1 })

/-- R88, the round-trip law: P begins a recording and appends the commands in order; whatever both agents then do without
writing the buffer, a DECODE of C that no race stops gives the commands back in order, as many as the frame buffer
takes. Handing the buffer over through an empty queue is one way to order the accesses. -/
def Obligations.RoundTripLaw : Prop :=
  ∀ (s : State) (b : Byte) (cmds : List Command),
    s.inv = true → s.fault.valid = false → b.toNat < s.cfg.nbuf → ¬ conflicts s .producer b.toNat .write →
    recordsSize cmds ≤ s.cfg.bufcap →
    ∃ u, runRequests ((Agent.producer, Instr.encBegin b) ::
        cmds.map (fun c => (Agent.producer, recordRequest b c))) s = some u ∧
      (∀ (q : Byte) (v : Word32), q.toNat < s.cfg.nq → (s.cfg.queue q.toNat).pusher = .producer →
        (s.cfg.queue q.toNat).popper = .consumer → s.contents q.toNat = [] →
        ∃ t, runRequests [(.producer, .push q v), (.consumer, .pop q)] u = some t ∧
          ¬ conflicts t .consumer b.toNat .read) ∧
      ∀ (rs : List (Agent × Instr)) (t : State), (∀ r ∈ rs, bufferAccess r.2 ≠ some (b.toNat, .write)) →
        runRequests rs u = some t → ¬ conflicts t .consumer b.toNat .read →
        ∃ w, runRequests [(.consumer, .decode b)] t = some w ∧
          w.fb.count = min cmds.length s.cfg.fbcap ∧
          w.fb.entry.take w.fb.count = cmds.take (min cmds.length s.cfg.fbcap) ∧
          w.agentC.resp = some (Response.word
            { ok := true
              val := BitVec.ofNat 32 (min cmds.length s.cfg.fbcap)
              reason := if cmds.length ≤ s.cfg.fbcap then 0 else 3 })

/-- FB_READ (R85): the entry's fields, and nothing changes. -/
def Obligations.FbReadAnswersTheEntry : Prop :=
  ∀ (s : State) (idx : Word32) (c : Command), s.fault.valid = false → s.issuer = .consumer →
    idx.toNat < s.fb.count → s.fb.entry[idx.toNat]? = some c →
    ∃ t, exec (.fbRead idx) s = .next t ∧ onlyAnswers s t
      (match c with
        | .clear color => Response.word { ok := true, tag := 0, val := color }
        | .rect layer color x y w h =>
          Response.word { ok := true, tag := 1, layer := layer, val := color, x := x, y := y, w := w, h := h })

/-- A record meets the decode procedure (R60 to R63, R79): the checks in their order, else one more entry and pos past
the record; nothing but the procedure's variables changes; after a stop nothing does. That a record is run as a step of its own is the model's
choice (log 7). -/
def Obligations.RecordsExtendOrStopTheDecode : Prop :=
  ∀ (s : State) (i : Instr) (c : Option Command),
    ((∃ color, i = .recClear color ∧ c = some (.clear color)) ∨
      (∃ layer color x y w h, i = .recRect layer color x y w h ∧ c = some (.rect layer color x y w h)) ∨
      (∃ op, i = .recUnrecognized op ∧ c = none)) →
    (s.dec.stop ≠ none → exec i s = .next s) ∧
    (s.dec.stop = none → exec i s = .next { s with dec :=
      if s.dec.len ≤ s.dec.pos then { s.dec with stop := some .exhausted }
      else match c with
        | none => { s.dec with stop := some .badOpcode }
        | some cmd =>
          let size := match cmd with | .clear _ => 5 | .rect _ _ _ _ _ _ => 14
          if s.dec.len < s.dec.pos + size then { s.dec with stop := some .truncated }
          else if s.dec.out.length = s.cfg.fbcap then { s.dec with stop := some .fbFull }
          else { s.dec with out := s.dec.out ++ [cmd], pos := s.dec.pos + size } })

/-- The bytes at the decode's position that decode to a record are run as that record: the round of the loop is `exec` of
it (R63, R79; a record as a step of its own is log 7). -/
def Obligations.DecodeRoundRunsTheDecodedRecord : Prop :=
  ∀ (m : Memory) (s : State) (i : Instr) (n : Nat) (bs : List Byte),
    s.dec.stop = none → s.dec.pos + n ≤ s.dec.len → 0 < n →
    Memory.readBytes m s.dec.pos n = some bs → decodeRecord bs = .ok (i, []) →
    ∃ t, exec i s = .next t ∧ decodeRound m s = some t

/-! ### Faults -/

/-- The reserved OP values fault with ILLEGAL_REQUEST, recording the word (R59, R91). -/
def Obligations.ReservedOpsFault : Prop :=
  ∀ (s : State) (op : BitVec 4) (rest : BitVec 124), s.fault.valid = false →
    faultsWith (.reservedOpAB op rest) s 1 ∧ faultsWith (.reservedOpCF op rest) s 1 ∧
    (∀ r, r = requestWord (.reservedOpAB op rest) ∨ r = requestWord (.reservedOpCF op rest) →
      r.extractLsb' 0 4 = op ∧ r.extractLsb' 4 124 = rest)

/-- R92: a queue number at or beyond NQ, or a buffer number at or beyond NBUF, faults with BAD_UNIT, whichever agent
issues; an FB_READ word with a unit number is ILLEGAL_REQUEST instead. -/
def Obligations.UnitOutOfRangeFaults : Prop :=
  ∀ s : State, s.fault.valid = false →
    (∀ (q : Byte) (v : Word32), s.cfg.nq ≤ q.toNat → faultsWith (.push q v) s 2 ∧ faultsWith (.pop q) s 2) ∧
    (∀ (i : Instr) (b : Nat) (kind : AccessKind), bufferAccess i = some (b, kind) → s.cfg.nbuf ≤ b →
      faultsWith i s 2) ∧
    (∀ r : Packet, r.extractLsb' 0 4 = 9 → r.extractLsb' 8 8 ≠ 0 →
      performWord r s = .next { s with fault := ⟨true, 1, if s.issuer = .consumer then 1 else 0, r⟩ })

/-- R93: a request from an agent that its port is not wired to faults with PORT_VIOLATION; ENC_SIZE never does. -/
def Obligations.WrongPortFaults : Prop :=
  ∀ s : State, s.fault.valid = false →
    (∀ (q : Byte) (v : Word32), q.toNat < s.cfg.nq →
      (s.issuer ≠ (s.cfg.queue q.toNat).pusher → faultsWith (.push q v) s 3) ∧
      (s.issuer ≠ (s.cfg.queue q.toNat).popper → faultsWith (.pop q) s 3)) ∧
    (s.issuer = .consumer → ∀ (i : Instr) (b : Nat), bufferAccess i = some (b, .write) → b < s.cfg.nbuf →
      faultsWith i s 3) ∧
    (s.issuer = .producer → ∀ (b : Byte) (n : Word32),
      (b.toNat < s.cfg.nbuf → faultsWith (.decode b) s 3 ∧ faultsWith (.decodeN b n) s 3) ∧
      faultsWith (.fbRead n) s 3) ∧
    (∀ (b : Byte) (t : State), exec (.encSize b) s = .next t → t.fault = s.fault ∨ t.fault.cause ≠ 3)

/-- R94: a buffer access faults with DATA_RACE exactly when a conflicting access of the other agent does not happen before
it. -/
def Obligations.UnorderedConflictIsADataRace : Prop :=
  ∀ (s : State) (i : Instr) (b : Nat) (kind : AccessKind), bufferAccess i = some (b, kind) →
    s.fault.valid = false → b < s.cfg.nbuf → portOpenTo s.cfg s.issuer i = true →
    (conflicts s s.issuer b kind → faultsWith i s 4) ∧
    (¬ conflicts s s.issuer b kind → ∃ t, exec i s = .next t ∧ (t.fault = s.fault ∨ t.fault.cause ≠ 4))

/-- R97: DECODE_N of more than BUFCAP bytes faults with BAD_LENGTH. -/
def Obligations.LengthBeyondCapacityFaults : Prop :=
  ∀ (s : State) (b : Byte) (len : Word32), s.fault.valid = false → b.toNat < s.cfg.nbuf →
    s.issuer = .consumer → ¬ conflicts s .consumer b.toNat .read → s.cfg.bufcap < len.toNat →
    faultsWith (.decodeN b len) s 7

/-- R98: FB_READ at or beyond the count faults with FB_INDEX. -/
def Obligations.IndexBeyondCountFaults : Prop :=
  ∀ (s : State) (idx : Word32), s.fault.valid = false → s.issuer = .consumer → s.fb.count ≤ idx.toNat →
    faultsWith (.fbRead idx) s 8

/-- R99: a decode that comes to a byte never written faults with UNWRITTEN_READ; DECODE never does, nor DECODE_N with a
length up to the cursor. -/
def Obligations.OnlyDecodeBeyondTheCursorReadsUnwrittenBytes : Prop :=
  (∀ (s : State) (b : Byte) (len : Word32) (cmds : List Command),
    s.fault.valid = false → b.toNat < s.cfg.nbuf → s.issuer = .consumer →
    ¬ conflicts s .consumer b.toNat .read → (s.buf b.toNat).holds cmds = true →
    cmds.length ≤ s.cfg.fbcap → (s.buf b.toNat).cursor < len.toNat → len.toNat ≤ s.cfg.bufcap →
    s.byte b.toNat (s.buf b.toNat).cursor = none → faultsWith (.decodeN b len) s 9) ∧
  (∀ (s t : State) (i : Instr) (b : Byte), s.inv = true → s.fault.valid = false →
    (i = .decode b ∨ ∃ len, i = .decodeN b len ∧ len.toNat ≤ (s.buf b.toNat).cursor) →
    exec i s = .next t → t.fault = s.fault ∨ t.fault.cause ≠ 9)

/-- R102: a request that faults changes FAULT alone: valid, one of the nine causes, the issuer and the request word bit by
bit; it sends no response. -/
def Obligations.FaultsArePrecise : Prop :=
  ∀ (r : Packet) (s t : State), s.fault.valid = false → performWord r s = .next t → t.fault ≠ s.fault →
    ∃ code : BitVec 4, 1 ≤ code.toNat ∧ code.toNat ≤ 9 ∧
      t = { s with fault := ⟨true, code, if s.issuer = .consumer then 1 else 0, r⟩ }

/-- Where causes apply to a request, the one with the lowest code is raised (R100); where none applies, the request
completes, as one whole effect (R12, R50). A word that is no request has the lowest code of all, 1. -/
def Obligations.TheLowestCauseIsRaised : Prop :=
  ∀ s : State, s.fault.valid = false →
    (∀ r : Packet, illegalWord r →
      performWord r s = .next { s with fault := ⟨true, 1, if s.issuer = .consumer then 1 else 0, r⟩ }) ∧
    ∀ i : Instr, i.isRequest = true →
      (∀ c, applies i s c → (∀ e, applies i s e → c.code.toNat ≤ e.code.toNat) → faultsWith i s c.code) ∧
      ((∀ c, ¬ applies i s c) → ∃ t, exec i s = .next t ∧ t.fault = s.fault)

/-- While a fault is recorded (R103) no request is performed, no step is enabled (but for a reset of the host), and the
state is no normal end of a run. That standing still is the outcome fault is the model's reading (log 12), and when a
reset of the host can come is log 3. -/
def Obligations.HaltedBlockPerformsNothing : Prop :=
  ∀ s : State, s.fault.valid = true →
    (∀ i : Instr, i.isRequest = true → exec i s = .fault .halted) ∧
    (∀ r : Packet, performWord r s = .fault .halted) ∧ s.ended = false ∧
    (s.cfg.legal = true → s.phase = .released → (∀ rest, s.host ≠ .reset :: rest) → step s = .fault .halted)

/-- A recorded fault stays as it is until the host resets the block (R29, R104, R105); while the agents are held nothing
but a reset writes FAULT. When a host reset can come is the model's choice (log 3). -/
def Obligations.OnlyAResetClearsTheFault : Prop :=
  ∀ s t : State, s.fault.valid = true ∨ s.phase = .held → step s = .next t →
    t.fault = s.fault ∨ ∃ rest, s.host = .reset :: rest ∧ t = ({ s with host := rest } : State).hostReset ∧
      t.fault = ⟨false, 0, 0, 0⟩

/-! ### The whole machine -/

/-- Access rights (R32): C's requests write no buffer content, P's no frame buffer; head and slots of a queue are written
only by its pusher, tail only by its popper. -/
def Obligations.RequestsWriteOnlyWhatTheirAgentMay : Prop :=
  ∀ (i : Instr) (s t : State), i.isRequest = true → exec i s = .next t →
    (s.issuer = .consumer → ∀ b, (t.buf b).bytes = (s.buf b).bytes ∧ (t.buf b).cursor = (s.buf b).cursor ∧
      (t.buf b).writable = (s.buf b).writable) ∧
    (s.issuer = .producer → t.fb = s.fb) ∧
    (∀ q, s.issuer ≠ (s.cfg.queue q).pusher →
      (t.queue q).head = (s.queue q).head ∧ (t.queue q).slots = (s.queue q).slots) ∧
    (∀ q, s.issuer ≠ (s.cfg.queue q).popper → (t.queue q).tail = (s.queue q).tail)

/-- No step changes the configuration (R7). -/
def Obligations.NoStepChangesTheConfiguration : Prop :=
  ∀ s t : State, step s = .next t → t.cfg = s.cfg

/-- The reset state of every legal configuration is in shape, its clocks are in order and every buffer holds whole
records (none). The configuration of State.reset is the model's choice (log 2). -/
def Obligations.ResetEstablishesTheInvariants : Prop :=
  Config.default.legal = true ∧ State.reset = State.ofConfig Config.default ∧
  ∀ c : Config, c.legal = true →
    (State.ofConfig c).inv = true ∧ (State.ofConfig c).clocksOk = true ∧
    (State.ofConfig c).clocksFresh = true ∧ (State.ofConfig c).recordsOk

/-- Every step keeps the shape of the state: cursors, storage, counts and FAULT in range, storage canonical, every slot of
`contents(q)` and every byte below a cursor written, no decode left under way (R16 to R19, R21, R23, R25, R27 to R29). -/
def Obligations.EveryStepKeepsTheStateInShape : Prop :=
  ∀ s t : State, s.inv = true → step s = .next t → t.inv = true

/-- Every step keeps the clocks in order: no agent, slot or access record is ahead of the clock it counts (R30, R31, R45). -/
def Obligations.EveryStepKeepsTheClocksInOrder : Prop :=
  ∀ s t : State, s.clocksOk = true → step s = .next t → t.clocksOk = true

/-- Every step keeps every buffer a row of whole records below its cursor (R25, R78). -/
def Obligations.EveryStepKeepsBuffersRowsOfRecords : Prop :=
  ∀ s t : State, s.recordsOk → step s = .next t → t.recordsOk

/-! ### Ordering -/

/-- R47: what an agent has done to a buffer before it pushes an entry is ordered before what the other agent does after
it has popped that entry, and the bytes, the cursor and the flag are then as the first agent left them. The entry is
behind those the queue already holds. -/
def Obligations.HandOffMakesABufferVisible : Prop :=
  ∀ (s : State) (q : Byte) (v : Word32) (b : Nat) (a : Agent),
    s.inv = true → s.clocksOk = true → s.fault.valid = false → q.toNat < s.cfg.nq →
    (s.cfg.queue q.toNat).pusher = a → (s.cfg.queue q.toNat).popper = a.other →
    (s.contents q.toNat).length < s.cap q.toNat - 1 →
    ∃ t, runRequests ((a, .push q v) ::
        List.replicate ((s.contents q.toNat).length + 1) (a.other, .pop q)) s = some t ∧
      (∀ kind, ¬ conflicts t a.other b kind) ∧ t.buf b = s.buf b ∧
      (t.agent a.other).resp = some (Response.word { ok := true, val := v })

/-- A POP orders nothing of the popper's before the pusher (R44: there is no tail-side edge): C reads a buffer and pops;
P's next write of that buffer is a race, P having popped nothing that C pushed since. -/
def Obligations.PopGivesNoTailSideOrder : Prop :=
  ∀ (s t : State) (b q : Byte), s.clocksOk = true → b.toNat < s.cfg.nbuf →
    runRequests [(.consumer, .encSize b), (.consumer, .pop q)] s = some t →
    faultsWith (.encBegin b) (t.setIssuer .producer) 4

/-- R123: an ENC_SEAL after the index was pushed races with the consumer's read, whichever of the two comes first. -/
def Obligations.SealAfterSubmitRaces : Prop :=
  ∀ (s t : State) (b q : Byte) (v : Word32), s.inv = true → s.clocksOk = true → b.toNat < s.cfg.nbuf →
    s.contents q.toNat = [] → runRequests [(.producer, .push q v), (.consumer, .pop q)] s = some t →
    (∀ u, runRequests [(.producer, .encSeal b)] t = some u → faultsWith (.decode b) (u.setIssuer .consumer) 4) ∧
    (∀ u, runRequests [(.consumer, .decode b)] t = some u → faultsWith (.encSeal b) (u.setIssuer .producer) 4)

/-- The clocks compute happens-before (R44, R45): in a run from fresh clocks, of two accesses to a buffer by different
agents the earlier happens before the later exactly when its epoch is known to the later one's agent. -/
def Obligations.ClocksDecideHappensBefore : Prop :=
  ∀ (s : State) (rs : List (Agent × Instr)) (es : List Event) (i j : Nat) (e f : Event) (b c : Nat),
    s.inv = true → s.clocksFresh = true → eventsOf rs s = some es → es[i]? = some e → es[j]? = some f →
    i < j → e.agent ≠ f.agent → e.accesses b = true → f.accesses c = true →
    (e.epoch ≤ (f.before.vc f.agent).get e.agent ↔ HappensBefore s es i j)

/-! ### Reset, host, assembler -/

/-- R113: every piece of the block's state after reset, in every configuration, and after a host reset of any state; an
illegal configuration has no reset state. -/
def Obligations.ResetGivesEveryPieceItsValue : Prop :=
  (∀ (c : Config) (s : State), s = State.ofConfig c ∨ (∃ u : State, s = u.hostReset) →
    (∀ q, (s.queue q).head = 0 ∧ (s.queue q).tail = 0 ∧ ∀ i, Sparse.get (s.queue q).slots i = none) ∧
    (∀ b, (∀ i, s.byte b i = none) ∧ (s.buf b).cursor = 0 ∧ (s.buf b).writable = false ∧
      (s.buf b).lastWrite = none ∧ (s.buf b).lastRead = ⟨0, 0⟩) ∧
    s.fb.count = 0 ∧ (∀ i : Nat, s.fb.entry[i]? = none) ∧
    s.fault = ⟨false, 0, 0, 0⟩ ∧ s.vcP = ⟨1, 0⟩ ∧ s.vcC = ⟨0, 1⟩ ∧ s.phase = .held) ∧
  (∀ c : Config, c.legal = false → State.configure c = .refused .illegalConfig)

/-- The legal configurations are those of the table of R7 (R7, R8). -/
def Obligations.LegalConfigurationsAreThoseOfTheTable : Prop :=
  ∀ c : Config,
    (State.configure c = .next (State.ofConfig c) ↔
      1 ≤ c.nq ∧ c.nq ≤ 256 ∧
      (∀ q, q < c.nq → (∃ k, 1 ≤ k ∧ k ≤ 31 ∧ (c.queue q).cap = 2 ^ k) ∧
        (c.queue q).popper ≠ (c.queue q).pusher) ∧
      1 ≤ c.nbuf ∧ c.nbuf ≤ 256 ∧ c.bufcap ≤ 2 ^ 32 - 1 ∧ c.fbcap ≤ 2 ^ 32 - 1)

/-- Host preload (R115; the host's actions as a list are the model's choice, log 3): an entry behind the others with slot
clock (0, 0), no vector clock changed; refused on a full queue. -/
def Obligations.PreloadEnqueuesWithoutAClock : Prop :=
  ∀ (s : State) (q : Nat) (v : Word32) (rest : List HostAction), s.inv = true → s.phase = .held →
    s.host = .preload q v :: rest → q < s.cfg.nq →
    ((s.contents q).length = s.cap q - 1 → step s = .refused .preloadFull) ∧
    ((s.contents q).length ≠ s.cap q - 1 → ∃ t, step s = .next t ∧
      t.contents q = s.contents q ++ [some v] ∧
      Sparse.get (t.queue q).slots (s.queue q).head = some ⟨v, ⟨0, 0⟩⟩ ∧ sameQueuesBut q s t ∧
      t.host = rest ∧ t.phase = .held ∧ t.vcP = s.vcP ∧ t.vcC = s.vcC ∧ sameBufs s t ∧ t.fb = s.fb ∧
      t.fault = s.fault ∧ t.agentP = s.agentP ∧ t.agentC = s.agentC ∧ t.cfg = s.cfg)

/-- After reset both agents are held: no step moves an agent or delivers a response until the host releases them
(R114, R118). A held step may be a further host reset, and that the scripts and positions are then as before is the
model's choice (log 3). -/
def Obligations.HeldAgentsDoNothing : Prop :=
  ∀ s t : State, s.phase = .held → step s = .next t →
    t.agentP = s.agentP ∧ t.agentC = s.agentC ∧
    (t.phase = .held ∨ ∃ rest, s.host = .release :: rest)

/-- The pool's boot (R117): after the host's actions FREE holds 0, 1, .., NBUF - 1 in this order, every other queue is empty
and the agents are released. -/
def Obligations.PoolBootFillsTheFreeQueue : Prop :=
  ∀ (c : Config) (free : Nat), c.legal = true → free < c.nq → c.nbuf + 1 ≤ (c.queue free).cap →
    ∃ t : State,
      core.run (c.nbuf + 2) ({ State.ofConfig c with host := poolBoot free c.nbuf } : State) = .next t ∧
      t.contents free = (List.range c.nbuf).map (fun n => some (BitVec.ofNat 32 n)) ∧
      (∀ q, q ≠ free → t.contents q = []) ∧ t.phase = .released ∧ t.host = []

/-- Weak fairness (R129): a schedule that names each agent again and again is weakly fair from every state, and there are
schedules that are not. Under a weakly fair schedule an agent that has something to do is let go, still standing where
it stood, unless a fault is recorded before. That a halted block lets no agent go is the model's reading (log 12), and how
a schedule stands beside the machine is its choice (log 1). -/
def Obligations.WeakFairnessServesAWaitingAgent : Prop :=
  (∀ (schedule : Nat → Agent) (s : State), (∀ a n, ∃ m, n ≤ m ∧ schedule m = a) → WeaklyFair schedule s) ∧
  (∃ (schedule : Nat → Agent) (s : State), s.inv = true ∧ ¬ WeaklyFair schedule s) ∧
  (∀ (schedule : Nat → Agent) (s : State) (a : Agent), WeaklyFair schedule s → s.cfg.legal = true → s.host = [] →
    s.waiting a = true →
    (∃ n t, runBy schedule s n = .next t ∧ t.agent a = s.agent a ∧ t.granted (schedule n) = some a) ∨
    (∃ n t, runBy schedule s n = .next t ∧ t.fault.valid = true))

/-- The pool conservation law (R130): from the pool's boot (R117), while both agents use the pool as R66 says, at every state
without a fault each index is in exactly one of FREE, READY, held by P and held by C, which is P.held and C.cur but for an
index that begin_frame has popped and is about to open; P's POP of FREE finds none exactly when FREE is empty, that is when
all the indices are in READY or held; no request that the discipline allows is a DATA_RACE or any
fault but those of the codec's own checks, and every PUSH succeeds (R126); READY holds the submitted frames that have not
been taken, in their order, and what C holds is the last one taken, with the content P left in it. That P holds an index
while begin_frame's ENC_BEGIN is outstanding, and the discipline that stands for R66's calls, are the model's reading
(log 15). -/
def Obligations.PoolConservationLaw : Prop :=
  ∀ (c : Config) (free ready : Nat) (p q : AgentPort) (sched : List Agent) (s t : State)
    (frames : List (Nat × Buffer)) (taken : Nat),
    poolConfig c free ready →
    core.run (c.nbuf + 2)
      ({ State.ofConfig c with host := poolBoot free c.nbuf, agentP := p, agentC := q, sched := sched } : State) =
      .next s →
    s.heldBy .producer = none → s.heldBy .consumer = none →
    PoolRun free ready s t frames taken → t.fault.valid = false →
    (t.poolPlaces free ready).Perm ((List.range c.nbuf).map fun n => some (BitVec.ofNat 32 n)) ∧
    t.heldBy .consumer = t.heldIndex .consumer ∧
    (t.heldBy .producer = t.heldIndex .producer ∨
      t.heldIndex .producer = none ∧ ∃ n, t.heldBy .producer = some n ∧ t.opening = some n) ∧
    (t.heldBy .producer = none → ∀ u : Byte, u.toNat = free →
      ∃ w r, exec (.pop u) (t.setIssuer .producer) = .next w ∧ w.agentP.resp = some r ∧
        (responseOk r = false ↔ t.contents free = []) ∧
        (t.contents free = [] ↔
          (t.contents ready).length + (t.heldBy .producer).toList.length + (t.heldBy .consumer).toList.length =
            c.nbuf)) ∧
    (∀ (a : Agent) (i : Instr), poolAllows free ready a (t.heldBy a) i = true →
      ∃ w, exec i (t.setIssuer a) = .next w ∧ (w.fault.valid = true → 5 ≤ w.fault.cause.toNat) ∧
        ∀ u v, i = .push u v → (w.agent a).resp = some (Response.word { ok := true })) ∧
    taken ≤ frames.length ∧
    t.contents ready = (frames.drop taken).map (fun f => some (BitVec.ofNat 32 f.1)) ∧
    (∀ n, t.heldBy .consumer = some n → ∃ B, 0 < taken ∧ frames[taken - 1]? = some (n, B) ∧
      (t.buf n).bytes = B.bytes ∧ (t.buf n).cursor = B.cursor ∧ (t.buf n).writable = B.writable)

/-- The assembler takes a decimal x, y, w or h exactly from -32768 to 32767, and the field it makes has that number; an
unsigned operand of 8 or 32 bits exactly in its field's range (R64, R65). -/
def Obligations.AssembledOperandsKeepTheirNumbers : Prop :=
  (∀ (n : Int) (f : Half), signedOperand (.decimal n) = some f ↔ (-32768 ≤ n ∧ n ≤ 32767 ∧ f.toInt = n)) ∧
  (∀ (n : Nat) (f : Half), signedOperand (.hex n) = some f ↔ f.toNat = n) ∧
  (∀ (n : Numeral) (u : Byte), unsignedOperand 8 n = some u ↔ (u.toNat : Int) = n.value) ∧
  (∀ (n : Numeral) (u : Word32), unsignedOperand 32 n = some u ↔ (u.toNat : Int) = n.value)
end

