-- ==== Sys2Proof/Laws/Bytes.lean ====
section
/-! SUPPORT. The byte sequences of numbers (R10): lengths, single bytes, and reading back. -/

namespace Sys2Proof

@[simp] theorem leBytes_length (n v : Nat) : (leBytes n v).length = n := by
  induction n generalizing v with
  | zero => rfl
  | succ n ih => simp [leBytes, ih]

/-- Reading back the bytes of a number gives the number modulo 256^n. -/
theorem fromLeNat_leBytes (n v : Nat) : fromLeNat (leBytes n v) = v % 256 ^ n := by
  induction n generalizing v with
  | zero => simp [leBytes, fromLeNat, Nat.mod_one]
  | succ n ih =>
    rw [leBytes, fromLeNat, ih, pow_succ', Nat.mod_mul, BitVec.toNat_ofNat]

@[simp] theorem le16_length (v : Half) : (le16 v).length = 2 := leBytes_length _ _

@[simp] theorem le32_length (v : Word32) : (le32 v).length = 4 := leBytes_length _ _

/-- `from_le` takes `le_16` back. -/
@[simp] theorem fromLe_le16 (v : Half) : fromLe 16 (le16 v) = v := by
  rw [fromLe, le16, fromLeNat_leBytes]
  exact BitVec.eq_of_toNat_eq (by have := v.isLt; simp; omega)

/-- `from_le` takes `le_32` back. -/
@[simp] theorem fromLe_le32 (v : Word32) : fromLe 32 (le32 v) = v := by
  rw [fromLe, le32, fromLeNat_leBytes]
  exact BitVec.eq_of_toNat_eq (by have := v.isLt; simp; omega)

/-- A record has the length its command's size says (R71). -/
@[simp] theorem encodeCommand_length (c : Command) : (encodeCommand c).length = commandSize c := by
  cases c <;> simp [encodeCommand, commandSize]

end Sys2Proof
end

