-- ==== Sys2Proof/Laws/State.lean ====
section
/-! SUPPORT. The small lemmas of the state's updates: what each update leaves in each field. -/

namespace Sys2Proof.Machine

/-! ### setQueue -/

@[simp] theorem State.setQueue_cfg (s : State) (q : Nat) (Q : Queue) : (s.setQueue q Q).cfg = s.cfg := rfl
@[simp] theorem State.setQueue_queues (s : State) (q : Nat) (Q : Queue) : (s.setQueue q Q).queues = writeAt Queue.reset s.queues q Q := rfl
@[simp] theorem State.setQueue_bufs (s : State) (q : Nat) (Q : Queue) : (s.setQueue q Q).bufs = s.bufs := rfl
@[simp] theorem State.setQueue_fb (s : State) (q : Nat) (Q : Queue) : (s.setQueue q Q).fb = s.fb := rfl
@[simp] theorem State.setQueue_fault (s : State) (q : Nat) (Q : Queue) : (s.setQueue q Q).fault = s.fault := rfl
@[simp] theorem State.setQueue_vcP (s : State) (q : Nat) (Q : Queue) : (s.setQueue q Q).vcP = s.vcP := rfl
@[simp] theorem State.setQueue_vcC (s : State) (q : Nat) (Q : Queue) : (s.setQueue q Q).vcC = s.vcC := rfl
@[simp] theorem State.setQueue_phase (s : State) (q : Nat) (Q : Queue) : (s.setQueue q Q).phase = s.phase := rfl
@[simp] theorem State.setQueue_host (s : State) (q : Nat) (Q : Queue) : (s.setQueue q Q).host = s.host := rfl
@[simp] theorem State.setQueue_agentP (s : State) (q : Nat) (Q : Queue) : (s.setQueue q Q).agentP = s.agentP := rfl
@[simp] theorem State.setQueue_agentC (s : State) (q : Nat) (Q : Queue) : (s.setQueue q Q).agentC = s.agentC := rfl
@[simp] theorem State.setQueue_issuer (s : State) (q : Nat) (Q : Queue) : (s.setQueue q Q).issuer = s.issuer := rfl
@[simp] theorem State.setQueue_dec (s : State) (q : Nat) (Q : Queue) : (s.setQueue q Q).dec = s.dec := rfl
@[simp] theorem State.setQueue_sched (s : State) (q : Nat) (Q : Queue) : (s.setQueue q Q).sched = s.sched := rfl
@[simp] theorem State.setQueue_turns (s : State) (q : Nat) (Q : Queue) : (s.setQueue q Q).turns = s.turns := rfl

/-! ### setBuf -/

@[simp] theorem State.setBuf_cfg (s : State) (b : Nat) (B : Buffer) : (s.setBuf b B).cfg = s.cfg := rfl
@[simp] theorem State.setBuf_queues (s : State) (b : Nat) (B : Buffer) : (s.setBuf b B).queues = s.queues := rfl
@[simp] theorem State.setBuf_bufs (s : State) (b : Nat) (B : Buffer) : (s.setBuf b B).bufs = writeAt Buffer.reset s.bufs b B := rfl
@[simp] theorem State.setBuf_fb (s : State) (b : Nat) (B : Buffer) : (s.setBuf b B).fb = s.fb := rfl
@[simp] theorem State.setBuf_fault (s : State) (b : Nat) (B : Buffer) : (s.setBuf b B).fault = s.fault := rfl
@[simp] theorem State.setBuf_vcP (s : State) (b : Nat) (B : Buffer) : (s.setBuf b B).vcP = s.vcP := rfl
@[simp] theorem State.setBuf_vcC (s : State) (b : Nat) (B : Buffer) : (s.setBuf b B).vcC = s.vcC := rfl
@[simp] theorem State.setBuf_phase (s : State) (b : Nat) (B : Buffer) : (s.setBuf b B).phase = s.phase := rfl
@[simp] theorem State.setBuf_host (s : State) (b : Nat) (B : Buffer) : (s.setBuf b B).host = s.host := rfl
@[simp] theorem State.setBuf_agentP (s : State) (b : Nat) (B : Buffer) : (s.setBuf b B).agentP = s.agentP := rfl
@[simp] theorem State.setBuf_agentC (s : State) (b : Nat) (B : Buffer) : (s.setBuf b B).agentC = s.agentC := rfl
@[simp] theorem State.setBuf_issuer (s : State) (b : Nat) (B : Buffer) : (s.setBuf b B).issuer = s.issuer := rfl
@[simp] theorem State.setBuf_dec (s : State) (b : Nat) (B : Buffer) : (s.setBuf b B).dec = s.dec := rfl
@[simp] theorem State.setBuf_sched (s : State) (b : Nat) (B : Buffer) : (s.setBuf b B).sched = s.sched := rfl
@[simp] theorem State.setBuf_turns (s : State) (b : Nat) (B : Buffer) : (s.setBuf b B).turns = s.turns := rfl

/-! ### setFb -/

@[simp] theorem State.setFb_cfg (s : State) (fb : FrameBuffer) : (s.setFb fb).cfg = s.cfg := rfl
@[simp] theorem State.setFb_queues (s : State) (fb : FrameBuffer) : (s.setFb fb).queues = s.queues := rfl
@[simp] theorem State.setFb_bufs (s : State) (fb : FrameBuffer) : (s.setFb fb).bufs = s.bufs := rfl
@[simp] theorem State.setFb_fb (s : State) (fb : FrameBuffer) : (s.setFb fb).fb = fb := rfl
@[simp] theorem State.setFb_fault (s : State) (fb : FrameBuffer) : (s.setFb fb).fault = s.fault := rfl
@[simp] theorem State.setFb_vcP (s : State) (fb : FrameBuffer) : (s.setFb fb).vcP = s.vcP := rfl
@[simp] theorem State.setFb_vcC (s : State) (fb : FrameBuffer) : (s.setFb fb).vcC = s.vcC := rfl
@[simp] theorem State.setFb_phase (s : State) (fb : FrameBuffer) : (s.setFb fb).phase = s.phase := rfl
@[simp] theorem State.setFb_host (s : State) (fb : FrameBuffer) : (s.setFb fb).host = s.host := rfl
@[simp] theorem State.setFb_agentP (s : State) (fb : FrameBuffer) : (s.setFb fb).agentP = s.agentP := rfl
@[simp] theorem State.setFb_agentC (s : State) (fb : FrameBuffer) : (s.setFb fb).agentC = s.agentC := rfl
@[simp] theorem State.setFb_issuer (s : State) (fb : FrameBuffer) : (s.setFb fb).issuer = s.issuer := rfl
@[simp] theorem State.setFb_dec (s : State) (fb : FrameBuffer) : (s.setFb fb).dec = s.dec := rfl
@[simp] theorem State.setFb_sched (s : State) (fb : FrameBuffer) : (s.setFb fb).sched = s.sched := rfl
@[simp] theorem State.setFb_turns (s : State) (fb : FrameBuffer) : (s.setFb fb).turns = s.turns := rfl

/-! ### setFault -/

@[simp] theorem State.setFault_cfg (s : State) (f : FaultReg) : (s.setFault f).cfg = s.cfg := rfl
@[simp] theorem State.setFault_queues (s : State) (f : FaultReg) : (s.setFault f).queues = s.queues := rfl
@[simp] theorem State.setFault_bufs (s : State) (f : FaultReg) : (s.setFault f).bufs = s.bufs := rfl
@[simp] theorem State.setFault_fb (s : State) (f : FaultReg) : (s.setFault f).fb = s.fb := rfl
@[simp] theorem State.setFault_fault (s : State) (f : FaultReg) : (s.setFault f).fault = f := rfl
@[simp] theorem State.setFault_vcP (s : State) (f : FaultReg) : (s.setFault f).vcP = s.vcP := rfl
@[simp] theorem State.setFault_vcC (s : State) (f : FaultReg) : (s.setFault f).vcC = s.vcC := rfl
@[simp] theorem State.setFault_phase (s : State) (f : FaultReg) : (s.setFault f).phase = s.phase := rfl
@[simp] theorem State.setFault_host (s : State) (f : FaultReg) : (s.setFault f).host = s.host := rfl
@[simp] theorem State.setFault_agentP (s : State) (f : FaultReg) : (s.setFault f).agentP = s.agentP := rfl
@[simp] theorem State.setFault_agentC (s : State) (f : FaultReg) : (s.setFault f).agentC = s.agentC := rfl
@[simp] theorem State.setFault_issuer (s : State) (f : FaultReg) : (s.setFault f).issuer = s.issuer := rfl
@[simp] theorem State.setFault_dec (s : State) (f : FaultReg) : (s.setFault f).dec = s.dec := rfl
@[simp] theorem State.setFault_sched (s : State) (f : FaultReg) : (s.setFault f).sched = s.sched := rfl
@[simp] theorem State.setFault_turns (s : State) (f : FaultReg) : (s.setFault f).turns = s.turns := rfl

/-! ### setDec -/

@[simp] theorem State.setDec_cfg (s : State) (d : DecodeWork) : (s.setDec d).cfg = s.cfg := rfl
@[simp] theorem State.setDec_queues (s : State) (d : DecodeWork) : (s.setDec d).queues = s.queues := rfl
@[simp] theorem State.setDec_bufs (s : State) (d : DecodeWork) : (s.setDec d).bufs = s.bufs := rfl
@[simp] theorem State.setDec_fb (s : State) (d : DecodeWork) : (s.setDec d).fb = s.fb := rfl
@[simp] theorem State.setDec_fault (s : State) (d : DecodeWork) : (s.setDec d).fault = s.fault := rfl
@[simp] theorem State.setDec_vcP (s : State) (d : DecodeWork) : (s.setDec d).vcP = s.vcP := rfl
@[simp] theorem State.setDec_vcC (s : State) (d : DecodeWork) : (s.setDec d).vcC = s.vcC := rfl
@[simp] theorem State.setDec_phase (s : State) (d : DecodeWork) : (s.setDec d).phase = s.phase := rfl
@[simp] theorem State.setDec_host (s : State) (d : DecodeWork) : (s.setDec d).host = s.host := rfl
@[simp] theorem State.setDec_agentP (s : State) (d : DecodeWork) : (s.setDec d).agentP = s.agentP := rfl
@[simp] theorem State.setDec_agentC (s : State) (d : DecodeWork) : (s.setDec d).agentC = s.agentC := rfl
@[simp] theorem State.setDec_issuer (s : State) (d : DecodeWork) : (s.setDec d).issuer = s.issuer := rfl
@[simp] theorem State.setDec_dec (s : State) (d : DecodeWork) : (s.setDec d).dec = d := rfl
@[simp] theorem State.setDec_sched (s : State) (d : DecodeWork) : (s.setDec d).sched = s.sched := rfl
@[simp] theorem State.setDec_turns (s : State) (d : DecodeWork) : (s.setDec d).turns = s.turns := rfl

/-! ### setIssuer -/

@[simp] theorem State.setIssuer_cfg (s : State) (a : Agent) : (s.setIssuer a).cfg = s.cfg := rfl
@[simp] theorem State.setIssuer_queues (s : State) (a : Agent) : (s.setIssuer a).queues = s.queues := rfl
@[simp] theorem State.setIssuer_bufs (s : State) (a : Agent) : (s.setIssuer a).bufs = s.bufs := rfl
@[simp] theorem State.setIssuer_fb (s : State) (a : Agent) : (s.setIssuer a).fb = s.fb := rfl
@[simp] theorem State.setIssuer_fault (s : State) (a : Agent) : (s.setIssuer a).fault = s.fault := rfl
@[simp] theorem State.setIssuer_vcP (s : State) (a : Agent) : (s.setIssuer a).vcP = s.vcP := rfl
@[simp] theorem State.setIssuer_vcC (s : State) (a : Agent) : (s.setIssuer a).vcC = s.vcC := rfl
@[simp] theorem State.setIssuer_phase (s : State) (a : Agent) : (s.setIssuer a).phase = s.phase := rfl
@[simp] theorem State.setIssuer_host (s : State) (a : Agent) : (s.setIssuer a).host = s.host := rfl
@[simp] theorem State.setIssuer_agentP (s : State) (a : Agent) : (s.setIssuer a).agentP = s.agentP := rfl
@[simp] theorem State.setIssuer_agentC (s : State) (a : Agent) : (s.setIssuer a).agentC = s.agentC := rfl
@[simp] theorem State.setIssuer_issuer (s : State) (a : Agent) : (s.setIssuer a).issuer = a := rfl
@[simp] theorem State.setIssuer_dec (s : State) (a : Agent) : (s.setIssuer a).dec = s.dec := rfl
@[simp] theorem State.setIssuer_sched (s : State) (a : Agent) : (s.setIssuer a).sched = s.sched := rfl
@[simp] theorem State.setIssuer_turns (s : State) (a : Agent) : (s.setIssuer a).turns = s.turns := rfl

/-! ### release -/

@[simp] theorem State.release_cfg (s : State) : (s.release).cfg = s.cfg := rfl
@[simp] theorem State.release_queues (s : State) : (s.release).queues = s.queues := rfl
@[simp] theorem State.release_bufs (s : State) : (s.release).bufs = s.bufs := rfl
@[simp] theorem State.release_fb (s : State) : (s.release).fb = s.fb := rfl
@[simp] theorem State.release_fault (s : State) : (s.release).fault = s.fault := rfl
@[simp] theorem State.release_vcP (s : State) : (s.release).vcP = s.vcP := rfl
@[simp] theorem State.release_vcC (s : State) : (s.release).vcC = s.vcC := rfl
@[simp] theorem State.release_phase (s : State) : (s.release).phase = .released := rfl
@[simp] theorem State.release_host (s : State) : (s.release).host = s.host := rfl
@[simp] theorem State.release_agentP (s : State) : (s.release).agentP = s.agentP := rfl
@[simp] theorem State.release_agentC (s : State) : (s.release).agentC = s.agentC := rfl
@[simp] theorem State.release_issuer (s : State) : (s.release).issuer = s.issuer := rfl
@[simp] theorem State.release_dec (s : State) : (s.release).dec = s.dec := rfl
@[simp] theorem State.release_sched (s : State) : (s.release).sched = s.sched := rfl
@[simp] theorem State.release_turns (s : State) : (s.release).turns = s.turns := rfl

/-! ### takeFault -/

@[simp] theorem State.takeFault_cfg (s : State) (c : Cause) (r : Packet) : (s.takeFault c r).cfg = s.cfg := rfl
@[simp] theorem State.takeFault_queues (s : State) (c : Cause) (r : Packet) : (s.takeFault c r).queues = s.queues := rfl
@[simp] theorem State.takeFault_bufs (s : State) (c : Cause) (r : Packet) : (s.takeFault c r).bufs = s.bufs := rfl
@[simp] theorem State.takeFault_fb (s : State) (c : Cause) (r : Packet) : (s.takeFault c r).fb = s.fb := rfl
@[simp] theorem State.takeFault_fault (s : State) (c : Cause) (r : Packet) : (s.takeFault c r).fault = ⟨true, c.code, s.issuer.ident, r⟩ := rfl
@[simp] theorem State.takeFault_vcP (s : State) (c : Cause) (r : Packet) : (s.takeFault c r).vcP = s.vcP := rfl
@[simp] theorem State.takeFault_vcC (s : State) (c : Cause) (r : Packet) : (s.takeFault c r).vcC = s.vcC := rfl
@[simp] theorem State.takeFault_phase (s : State) (c : Cause) (r : Packet) : (s.takeFault c r).phase = s.phase := rfl
@[simp] theorem State.takeFault_host (s : State) (c : Cause) (r : Packet) : (s.takeFault c r).host = s.host := rfl
@[simp] theorem State.takeFault_agentP (s : State) (c : Cause) (r : Packet) : (s.takeFault c r).agentP = s.agentP := rfl
@[simp] theorem State.takeFault_agentC (s : State) (c : Cause) (r : Packet) : (s.takeFault c r).agentC = s.agentC := rfl
@[simp] theorem State.takeFault_issuer (s : State) (c : Cause) (r : Packet) : (s.takeFault c r).issuer = s.issuer := rfl
@[simp] theorem State.takeFault_dec (s : State) (c : Cause) (r : Packet) : (s.takeFault c r).dec = s.dec := rfl
@[simp] theorem State.takeFault_sched (s : State) (c : Cause) (r : Packet) : (s.takeFault c r).sched = s.sched := rfl
@[simp] theorem State.takeFault_turns (s : State) (c : Cause) (r : Packet) : (s.takeFault c r).turns = s.turns := rfl

/-! ### stopDecode -/

@[simp] theorem State.stopDecode_cfg (s : State) (r : StopReason) : (s.stopDecode r).cfg = s.cfg := rfl
@[simp] theorem State.stopDecode_queues (s : State) (r : StopReason) : (s.stopDecode r).queues = s.queues := rfl
@[simp] theorem State.stopDecode_bufs (s : State) (r : StopReason) : (s.stopDecode r).bufs = s.bufs := rfl
@[simp] theorem State.stopDecode_fb (s : State) (r : StopReason) : (s.stopDecode r).fb = s.fb := rfl
@[simp] theorem State.stopDecode_fault (s : State) (r : StopReason) : (s.stopDecode r).fault = s.fault := rfl
@[simp] theorem State.stopDecode_vcP (s : State) (r : StopReason) : (s.stopDecode r).vcP = s.vcP := rfl
@[simp] theorem State.stopDecode_vcC (s : State) (r : StopReason) : (s.stopDecode r).vcC = s.vcC := rfl
@[simp] theorem State.stopDecode_phase (s : State) (r : StopReason) : (s.stopDecode r).phase = s.phase := rfl
@[simp] theorem State.stopDecode_host (s : State) (r : StopReason) : (s.stopDecode r).host = s.host := rfl
@[simp] theorem State.stopDecode_agentP (s : State) (r : StopReason) : (s.stopDecode r).agentP = s.agentP := rfl
@[simp] theorem State.stopDecode_agentC (s : State) (r : StopReason) : (s.stopDecode r).agentC = s.agentC := rfl
@[simp] theorem State.stopDecode_issuer (s : State) (r : StopReason) : (s.stopDecode r).issuer = s.issuer := rfl
@[simp] theorem State.stopDecode_dec (s : State) (r : StopReason) : (s.stopDecode r).dec = { s.dec with stop := some r } := rfl
@[simp] theorem State.stopDecode_sched (s : State) (r : StopReason) : (s.stopDecode r).sched = s.sched := rfl
@[simp] theorem State.stopDecode_turns (s : State) (r : StopReason) : (s.stopDecode r).turns = s.turns := rfl

/-! ### setVc -/

@[simp] theorem State.setVc_cfg (s : State) (a : Agent) (k : Clock) : (s.setVc a k).cfg = s.cfg := by cases a <;> rfl
@[simp] theorem State.setVc_queues (s : State) (a : Agent) (k : Clock) : (s.setVc a k).queues = s.queues := by cases a <;> rfl
@[simp] theorem State.setVc_bufs (s : State) (a : Agent) (k : Clock) : (s.setVc a k).bufs = s.bufs := by cases a <;> rfl
@[simp] theorem State.setVc_fb (s : State) (a : Agent) (k : Clock) : (s.setVc a k).fb = s.fb := by cases a <;> rfl
@[simp] theorem State.setVc_fault (s : State) (a : Agent) (k : Clock) : (s.setVc a k).fault = s.fault := by cases a <;> rfl
@[simp] theorem State.setVc_phase (s : State) (a : Agent) (k : Clock) : (s.setVc a k).phase = s.phase := by cases a <;> rfl
@[simp] theorem State.setVc_host (s : State) (a : Agent) (k : Clock) : (s.setVc a k).host = s.host := by cases a <;> rfl
@[simp] theorem State.setVc_agentP (s : State) (a : Agent) (k : Clock) : (s.setVc a k).agentP = s.agentP := by cases a <;> rfl
@[simp] theorem State.setVc_agentC (s : State) (a : Agent) (k : Clock) : (s.setVc a k).agentC = s.agentC := by cases a <;> rfl
@[simp] theorem State.setVc_issuer (s : State) (a : Agent) (k : Clock) : (s.setVc a k).issuer = s.issuer := by cases a <;> rfl
@[simp] theorem State.setVc_dec (s : State) (a : Agent) (k : Clock) : (s.setVc a k).dec = s.dec := by cases a <;> rfl
@[simp] theorem State.setVc_sched (s : State) (a : Agent) (k : Clock) : (s.setVc a k).sched = s.sched := by cases a <;> rfl
@[simp] theorem State.setVc_turns (s : State) (a : Agent) (k : Clock) : (s.setVc a k).turns = s.turns := by cases a <;> rfl

/-! ### setAgent -/

@[simp] theorem State.setAgent_cfg (s : State) (a : Agent) (p : AgentPort) : (s.setAgent a p).cfg = s.cfg := by cases a <;> rfl
@[simp] theorem State.setAgent_queues (s : State) (a : Agent) (p : AgentPort) : (s.setAgent a p).queues = s.queues := by cases a <;> rfl
@[simp] theorem State.setAgent_bufs (s : State) (a : Agent) (p : AgentPort) : (s.setAgent a p).bufs = s.bufs := by cases a <;> rfl
@[simp] theorem State.setAgent_fb (s : State) (a : Agent) (p : AgentPort) : (s.setAgent a p).fb = s.fb := by cases a <;> rfl
@[simp] theorem State.setAgent_fault (s : State) (a : Agent) (p : AgentPort) : (s.setAgent a p).fault = s.fault := by cases a <;> rfl
@[simp] theorem State.setAgent_vcP (s : State) (a : Agent) (p : AgentPort) : (s.setAgent a p).vcP = s.vcP := by cases a <;> rfl
@[simp] theorem State.setAgent_vcC (s : State) (a : Agent) (p : AgentPort) : (s.setAgent a p).vcC = s.vcC := by cases a <;> rfl
@[simp] theorem State.setAgent_phase (s : State) (a : Agent) (p : AgentPort) : (s.setAgent a p).phase = s.phase := by cases a <;> rfl
@[simp] theorem State.setAgent_host (s : State) (a : Agent) (p : AgentPort) : (s.setAgent a p).host = s.host := by cases a <;> rfl
@[simp] theorem State.setAgent_issuer (s : State) (a : Agent) (p : AgentPort) : (s.setAgent a p).issuer = s.issuer := by cases a <;> rfl
@[simp] theorem State.setAgent_dec (s : State) (a : Agent) (p : AgentPort) : (s.setAgent a p).dec = s.dec := by cases a <;> rfl
@[simp] theorem State.setAgent_sched (s : State) (a : Agent) (p : AgentPort) : (s.setAgent a p).sched = s.sched := by cases a <;> rfl
@[simp] theorem State.setAgent_turns (s : State) (a : Agent) (p : AgentPort) : (s.setAgent a p).turns = s.turns := by cases a <;> rfl

/-! ### Clocks and agents, read through their accessors -/

@[simp] theorem State.vc_setVc (s : State) (a : Agent) (k : Clock) : (s.setVc a k).vc a = k := by cases a <;> rfl

theorem State.vc_setVc_ne (s : State) {a b : Agent} (k : Clock) (h : b ≠ a) : (s.setVc a k).vc b = s.vc b := by
  cases a <;> cases b <;> first | rfl | exact absurd rfl h

@[simp] theorem State.agent_setAgent (s : State) (a : Agent) (p : AgentPort) : (s.setAgent a p).agent a = p := by
  cases a <;> rfl

theorem State.agent_setAgent_ne (s : State) {a b : Agent} (p : AgentPort) (h : b ≠ a) :
    (s.setAgent a p).agent b = s.agent b := by
  cases a <;> cases b <;> first | rfl | exact absurd rfl h

@[simp] theorem Agent.other_ne (a : Agent) : a.other ≠ a := by cases a <;> decide

@[simp] theorem Agent.ne_other (a : Agent) : a ≠ a.other := by cases a <;> decide

@[simp] theorem Agent.other_other (a : Agent) : a.other.other = a := by cases a <;> rfl

theorem Agent.eq_or_other (a b : Agent) : b = a ∨ b = a.other := by cases a <;> cases b <;> decide

@[simp] theorem Clock.get_set (k : Clock) (a : Agent) (n : Nat) : (k.set a n).get a = n := by cases a <;> rfl

@[simp] theorem Clock.get_set_other (k : Clock) (a : Agent) (n : Nat) : (k.set a n).get a.other = k.get a.other := by
  cases a <;> rfl

@[simp] theorem Clock.get_join (k l : Clock) (a : Agent) : (k.join l).get a = max (k.get a) (l.get a) := by
  cases a <;> rfl

@[simp] theorem Clock.get_zero (a : Agent) : Clock.zero.get a = 0 := by cases a <;> rfl

@[simp] theorem State.vc_setAgent (s : State) (a b : Agent) (p : AgentPort) : (s.setAgent a p).vc b = s.vc b := by
  cases a <;> cases b <;> rfl

@[simp] theorem State.agent_setVc (s : State) (a b : Agent) (k : Clock) : (s.setVc a k).agent b = s.agent b := by
  cases a <;> cases b <;> rfl

/-! ### The other accessors across updates -/

@[simp] theorem State.buf_setQueue (s : State) (q : Nat) (Q : Queue) (n : Nat) : (s.setQueue q Q).buf n = s.buf n := rfl
@[simp] theorem State.vc_setQueue (s : State) (q : Nat) (Q : Queue) (x : Agent) : (s.setQueue q Q).vc x = s.vc x := by cases x <;> rfl
@[simp] theorem State.agent_setQueue (s : State) (q : Nat) (Q : Queue) (x : Agent) : (s.setQueue q Q).agent x = s.agent x := by cases x <;> rfl
@[simp] theorem State.byte_setQueue (s : State) (q : Nat) (Q : Queue) (b i : Nat) : (s.setQueue q Q).byte b i = s.byte b i := rfl
@[simp] theorem State.queue_setBuf (s : State) (b' : Nat) (B : Buffer) (n : Nat) : (s.setBuf b' B).queue n = s.queue n := rfl
@[simp] theorem State.vc_setBuf (s : State) (b' : Nat) (B : Buffer) (x : Agent) : (s.setBuf b' B).vc x = s.vc x := by cases x <;> rfl
@[simp] theorem State.agent_setBuf (s : State) (b' : Nat) (B : Buffer) (x : Agent) : (s.setBuf b' B).agent x = s.agent x := by cases x <;> rfl
@[simp] theorem State.queue_setFb (s : State) (fb : FrameBuffer) (n : Nat) : (s.setFb fb).queue n = s.queue n := rfl
@[simp] theorem State.buf_setFb (s : State) (fb : FrameBuffer) (n : Nat) : (s.setFb fb).buf n = s.buf n := rfl
@[simp] theorem State.vc_setFb (s : State) (fb : FrameBuffer) (x : Agent) : (s.setFb fb).vc x = s.vc x := by cases x <;> rfl
@[simp] theorem State.agent_setFb (s : State) (fb : FrameBuffer) (x : Agent) : (s.setFb fb).agent x = s.agent x := by cases x <;> rfl
@[simp] theorem State.byte_setFb (s : State) (fb : FrameBuffer) (b i : Nat) : (s.setFb fb).byte b i = s.byte b i := rfl
@[simp] theorem State.queue_setFault (s : State) (f : FaultReg) (n : Nat) : (s.setFault f).queue n = s.queue n := rfl
@[simp] theorem State.buf_setFault (s : State) (f : FaultReg) (n : Nat) : (s.setFault f).buf n = s.buf n := rfl
@[simp] theorem State.vc_setFault (s : State) (f : FaultReg) (x : Agent) : (s.setFault f).vc x = s.vc x := by cases x <;> rfl
@[simp] theorem State.agent_setFault (s : State) (f : FaultReg) (x : Agent) : (s.setFault f).agent x = s.agent x := by cases x <;> rfl
@[simp] theorem State.byte_setFault (s : State) (f : FaultReg) (b i : Nat) : (s.setFault f).byte b i = s.byte b i := rfl
@[simp] theorem State.queue_setDec (s : State) (d : DecodeWork) (n : Nat) : (s.setDec d).queue n = s.queue n := rfl
@[simp] theorem State.buf_setDec (s : State) (d : DecodeWork) (n : Nat) : (s.setDec d).buf n = s.buf n := rfl
@[simp] theorem State.vc_setDec (s : State) (d : DecodeWork) (x : Agent) : (s.setDec d).vc x = s.vc x := by cases x <;> rfl
@[simp] theorem State.agent_setDec (s : State) (d : DecodeWork) (x : Agent) : (s.setDec d).agent x = s.agent x := by cases x <;> rfl
@[simp] theorem State.byte_setDec (s : State) (d : DecodeWork) (b i : Nat) : (s.setDec d).byte b i = s.byte b i := rfl
@[simp] theorem State.queue_setIssuer (s : State) (a : Agent) (n : Nat) : (s.setIssuer a).queue n = s.queue n := rfl
@[simp] theorem State.buf_setIssuer (s : State) (a : Agent) (n : Nat) : (s.setIssuer a).buf n = s.buf n := rfl
@[simp] theorem State.vc_setIssuer (s : State) (a : Agent) (x : Agent) : (s.setIssuer a).vc x = s.vc x := by cases x <;> rfl
@[simp] theorem State.agent_setIssuer (s : State) (a : Agent) (x : Agent) : (s.setIssuer a).agent x = s.agent x := by cases x <;> rfl
@[simp] theorem State.byte_setIssuer (s : State) (a : Agent) (b i : Nat) : (s.setIssuer a).byte b i = s.byte b i := rfl
@[simp] theorem State.queue_release (s : State) (n : Nat) : (s.release).queue n = s.queue n := rfl
@[simp] theorem State.buf_release (s : State) (n : Nat) : (s.release).buf n = s.buf n := rfl
@[simp] theorem State.vc_release (s : State) (x : Agent) : (s.release).vc x = s.vc x := by cases x <;> rfl
@[simp] theorem State.agent_release (s : State) (x : Agent) : (s.release).agent x = s.agent x := by cases x <;> rfl
@[simp] theorem State.byte_release (s : State) (b i : Nat) : (s.release).byte b i = s.byte b i := rfl
@[simp] theorem State.queue_takeFault (s : State) (c : Cause) (r : Packet) (n : Nat) : (s.takeFault c r).queue n = s.queue n := rfl
@[simp] theorem State.buf_takeFault (s : State) (c : Cause) (r : Packet) (n : Nat) : (s.takeFault c r).buf n = s.buf n := rfl
@[simp] theorem State.vc_takeFault (s : State) (c : Cause) (r : Packet) (x : Agent) : (s.takeFault c r).vc x = s.vc x := by cases x <;> rfl
@[simp] theorem State.agent_takeFault (s : State) (c : Cause) (r : Packet) (x : Agent) : (s.takeFault c r).agent x = s.agent x := by cases x <;> rfl
@[simp] theorem State.byte_takeFault (s : State) (c : Cause) (r : Packet) (b i : Nat) : (s.takeFault c r).byte b i = s.byte b i := rfl
@[simp] theorem State.queue_stopDecode (s : State) (r : StopReason) (n : Nat) : (s.stopDecode r).queue n = s.queue n := rfl
@[simp] theorem State.buf_stopDecode (s : State) (r : StopReason) (n : Nat) : (s.stopDecode r).buf n = s.buf n := rfl
@[simp] theorem State.vc_stopDecode (s : State) (r : StopReason) (x : Agent) : (s.stopDecode r).vc x = s.vc x := by cases x <;> rfl
@[simp] theorem State.agent_stopDecode (s : State) (r : StopReason) (x : Agent) : (s.stopDecode r).agent x = s.agent x := by cases x <;> rfl
@[simp] theorem State.byte_stopDecode (s : State) (r : StopReason) (b i : Nat) : (s.stopDecode r).byte b i = s.byte b i := rfl
@[simp] theorem State.queue_setVc (s : State) (a : Agent) (k : Clock) (n : Nat) : (s.setVc a k).queue n = s.queue n := by cases a <;> rfl
@[simp] theorem State.buf_setVc (s : State) (a : Agent) (k : Clock) (n : Nat) : (s.setVc a k).buf n = s.buf n := by cases a <;> rfl
@[simp] theorem State.byte_setVc (s : State) (a : Agent) (k : Clock) (b i : Nat) : (s.setVc a k).byte b i = s.byte b i := by cases a <;> rfl
@[simp] theorem State.queue_setAgent (s : State) (a : Agent) (p : AgentPort) (n : Nat) : (s.setAgent a p).queue n = s.queue n := by cases a <;> rfl
@[simp] theorem State.buf_setAgent (s : State) (a : Agent) (p : AgentPort) (n : Nat) : (s.setAgent a p).buf n = s.buf n := by cases a <;> rfl
@[simp] theorem State.byte_setAgent (s : State) (a : Agent) (p : AgentPort) (b i : Nat) : (s.setAgent a p).byte b i = s.byte b i := by cases a <;> rfl

/-! ### respond -/

@[simp] theorem State.respond_cfg (s : State) (r : Response) : (s.respond r).cfg = s.cfg := by simp [State.respond]
@[simp] theorem State.respond_queues (s : State) (r : Response) : (s.respond r).queues = s.queues := by simp [State.respond]
@[simp] theorem State.respond_bufs (s : State) (r : Response) : (s.respond r).bufs = s.bufs := by simp [State.respond]
@[simp] theorem State.respond_fb (s : State) (r : Response) : (s.respond r).fb = s.fb := by simp [State.respond]
@[simp] theorem State.respond_fault (s : State) (r : Response) : (s.respond r).fault = s.fault := by simp [State.respond]
@[simp] theorem State.respond_vcP (s : State) (r : Response) : (s.respond r).vcP = s.vcP := by simp [State.respond]
@[simp] theorem State.respond_vcC (s : State) (r : Response) : (s.respond r).vcC = s.vcC := by simp [State.respond]
@[simp] theorem State.respond_phase (s : State) (r : Response) : (s.respond r).phase = s.phase := by simp [State.respond]
@[simp] theorem State.respond_host (s : State) (r : Response) : (s.respond r).host = s.host := by simp [State.respond]
@[simp] theorem State.respond_issuer (s : State) (r : Response) : (s.respond r).issuer = s.issuer := by simp [State.respond]
@[simp] theorem State.respond_dec (s : State) (r : Response) : (s.respond r).dec = s.dec := by simp [State.respond]
@[simp] theorem State.respond_sched (s : State) (r : Response) : (s.respond r).sched = s.sched := by simp [State.respond]
@[simp] theorem State.respond_turns (s : State) (r : Response) : (s.respond r).turns = s.turns := by simp [State.respond]
@[simp] theorem State.queue_respond (s : State) (r : Response) (n : Nat) : (s.respond r).queue n = s.queue n := by simp [State.respond]
@[simp] theorem State.buf_respond (s : State) (r : Response) (n : Nat) : (s.respond r).buf n = s.buf n := by simp [State.respond]
@[simp] theorem State.vc_respond (s : State) (r : Response) (x : Agent) : (s.respond r).vc x = s.vc x := by simp [State.respond]
@[simp] theorem State.byte_respond (s : State) (r : Response) (b i : Nat) : (s.respond r).byte b i = s.byte b i := by simp [State.respond]

/-- The issuing agent has the response, and its script, position and variables stay. -/
theorem State.agent_respond (s : State) (r : Response) :
    (s.respond r).agent s.issuer = { s.agent s.issuer with resp := some r.word } := by simp [State.respond]

/-- The other agent's port stays. -/
theorem State.agent_respond_other (s : State) (r : Response) :
    (s.respond r).agent s.issuer.other = s.agent s.issuer.other :=
  State.agent_setAgent_ne _ _ (Agent.other_ne _)

end Sys2Proof.Machine
end

