-- ==== Sys2Proof/Laws/Storage.lean ====
section
/-! SUPPORT. The laws of the storage spaces: read after write, canonical form, byte sequences, numbered queues and
buffers. -/

namespace Sys2Proof.Machine

/-! ### Sparse storage -/

/-- Read after write of one place: what was written there, elsewhere what stood there. -/
theorem Sparse.get_put {α : Type} (m : Sparse α) (a i : Nat) (v : α) :
    Sparse.get (Sparse.put m a v) i = if i = a then some v else Sparse.get m i := by
  induction m with
  | nil => simp [Sparse.put, Sparse.get, eq_comm]
  | cons e m ih =>
    obtain ⟨k, u⟩ := e
    unfold Sparse.put
    split
    · simp [Sparse.get, eq_comm]
    · split
      · rename_i h; subst h
        by_cases hi : a = i
        · simp [Sparse.get, hi]
        · simp [Sparse.get, hi, Ne.symm hi]
      · simp only [Sparse.get, ih]
        by_cases hk : k = i <;> by_cases hi : i = a <;> simp_all

/-- The places of a canonical storage behind its first entry lie above that entry's. -/
theorem Sparse.wf_cons {α : Type} (a : Nat) (u : α) (m : Sparse α) :
    Sparse.wf ((a, u) :: m) = true ↔ (∀ e ∈ m, a < e.1) ∧ Sparse.wf m = true := by
  induction m generalizing a u with
  | nil => simp [Sparse.wf]
  | cons e m ih =>
    obtain ⟨b, v⟩ := e
    rw [Sparse.wf, Bool.and_eq_true, decide_eq_true_eq]
    constructor
    · rintro ⟨hab, hw⟩
      refine ⟨fun e he => ?_, hw⟩
      rcases List.mem_cons.1 he with rfl | he
      · exact hab
      · exact lt_trans hab (((ih b v).1 hw).1 e he)
    · rintro ⟨h, hw⟩
      exact ⟨h (b, v) List.mem_cons_self, hw⟩

/-- The entries of a written storage: the new one and old ones. -/
theorem Sparse.mem_put {α : Type} {m : Sparse α} {a : Nat} {v : α} {e : Nat × α}
    (h : e ∈ Sparse.put m a v) : e = (a, v) ∨ e ∈ m := by
  induction m with
  | nil => simpa [Sparse.put] using h
  | cons x m ih =>
    obtain ⟨k, u⟩ := x
    unfold Sparse.put at h
    split at h
    · simpa using h
    · split at h
      · rcases List.mem_cons.1 h with h | h
        · exact .inl h
        · exact .inr (List.mem_cons_of_mem _ h)
      · rcases List.mem_cons.1 h with h | h
        · exact .inr (h ▸ List.mem_cons_self)
        · exact (ih h).imp_right (List.mem_cons_of_mem _)

/-- A write keeps the canonical form. -/
theorem Sparse.wf_put {α : Type} (m : Sparse α) (a : Nat) (v : α) (h : Sparse.wf m = true) :
    Sparse.wf (Sparse.put m a v) = true := by
  induction m with
  | nil => rfl
  | cons x m ih =>
    obtain ⟨k, u⟩ := x
    have hk := (Sparse.wf_cons k u m).1 h
    unfold Sparse.put
    split
    · rename_i hlt
      refine (Sparse.wf_cons _ _ _).2 ⟨fun e he => ?_, h⟩
      rcases List.mem_cons.1 he with rfl | he
      · exact hlt
      · exact lt_trans hlt (hk.1 e he)
    · split
      · rename_i heq; subst heq
        exact (Sparse.wf_cons _ _ _).2 hk
      · refine (Sparse.wf_cons _ _ _).2 ⟨fun e he => ?_, ih hk.2⟩
        rcases Sparse.mem_put he with rfl | he
        · simp only; omega
        · exact hk.1 e he

/-- What a storage holds at a place is one of its entries. -/
theorem Sparse.mem_of_get {α : Type} {m : Sparse α} {i : Nat} {v : α} (h : Sparse.get m i = some v) : (i, v) ∈ m := by
  induction m with
  | nil => simp [Sparse.get] at h
  | cons e m ih =>
    obtain ⟨k, u⟩ := e
    unfold Sparse.get at h
    split at h
    · rename_i hk; cases h; subst hk; exact List.mem_cons_self
    · exact List.mem_cons_of_mem _ (ih h)

/-! ### Bytes of a buffer -/

/-- A byte write keeps the canonical form. -/
theorem Memory.wf_write (m : Memory) (i : Nat) (b : Byte) (h : Memory.wf m = true) :
    Memory.wf (Memory.write m i b) = true := Sparse.wf_put m i b h

/-- Read after write of one byte. -/
theorem Memory.read_write (m : Memory) (i j : Nat) (b : Byte) :
    Memory.read (Memory.write m i b) j = if j = i then some b else Memory.read m j := Sparse.get_put m i j b

/-- `BufWrite` keeps the canonical form. -/
theorem Memory.wf_writeBytes (m : Memory) (i : Nat) (bs : List Byte) (h : Memory.wf m = true) :
    Memory.wf (Memory.writeBytes m i bs) = true := by
  induction bs generalizing m i with
  | nil => exact h
  | cons b bs ih => exact ih _ _ (Memory.wf_write m i b h)

/-- Read after `BufWrite`: the sequence where it was written, elsewhere what stood there. -/
theorem Memory.read_writeBytes (m : Memory) (i j : Nat) (bs : List Byte) :
    Memory.read (Memory.writeBytes m i bs) j =
      if i ≤ j ∧ j < i + bs.length then bs[j - i]? else Memory.read m j := by
  induction bs generalizing m i with
  | nil => simp only [Memory.writeBytes, List.length_nil]; rw [if_neg (by omega)]
  | cons b bs ih =>
    rw [Memory.writeBytes, ih, Memory.read_write]
    by_cases hj : j = i
    · subst hj
      rw [if_neg (by omega), if_pos rfl, if_pos (by simp)]
      simp
    · by_cases hr : i + 1 ≤ j ∧ j < i + 1 + bs.length
      · rw [if_pos hr, if_pos (by simp only [List.length_cons]; omega)]
        obtain ⟨k, rfl⟩ : ∃ k, j = i + 1 + k := ⟨j - (i + 1), by omega⟩
        rw [show i + 1 + k - (i + 1) = k by omega, show i + 1 + k - i = k + 1 by omega]
        simp
      · rw [if_neg hr, if_neg hj, if_neg (by simp only [List.length_cons]; omega)]

/-- `BufRead` succeeds exactly where every byte is written, and gives those bytes. -/
theorem Memory.readBytes_eq_some (m : Memory) (i n : Nat) (bs : List Byte) :
    Memory.readBytes m i n = some bs ↔ bs.length = n ∧ ∀ k < n, Memory.read m (i + k) = bs[k]? := by
  induction n generalizing i bs with
  | zero => cases bs <;> simp [Memory.readBytes]
  | succ n ih =>
    unfold Memory.readBytes
    constructor
    · intro h
      split at h
      · rename_i b cs hb hcs
        cases h
        obtain ⟨hl, hr⟩ := (ih (i + 1) cs).1 hcs
        refine ⟨by simp [hl], fun k hk => ?_⟩
        cases k with
        | zero => simpa using hb
        | succ k => rw [show i + (k + 1) = i + 1 + k by omega, hr k (by omega)]; simp
      · cases h
    · rintro ⟨hl, hr⟩
      cases bs with
      | nil => simp at hl
      | cons b cs =>
        have hb : Memory.read m i = some b := by simpa using hr 0 (by omega)
        have hcs : Memory.readBytes m (i + 1) n = some cs :=
          (ih (i + 1) cs).2 ⟨by simpa using hl, fun k hk => by
            rw [show i + 1 + k = i + (k + 1) by omega, hr (k + 1) (by omega)]; simp⟩
        rw [hb, hcs]

/-! ### Numbered queues and buffers -/

/-- Read after write of a numbered element. -/
theorem writeAt_getD {α : Type} (d : α) (l : List α) (i j : Nat) (x : α) :
    (writeAt d l i x).getD j d = if j = i then x else l.getD j d := by
  induction i generalizing l j with
  | zero => cases l <;> cases j <;> simp [writeAt]
  | succ i ih =>
    cases l with
    | nil =>
      cases j with
      | zero => simp [writeAt]
      | succ j => simpa [writeAt] using ih [] j
    | cons y l =>
      cases j with
      | zero => simp [writeAt]
      | succ j => simpa [writeAt] using ih l j

/-- A write in range keeps the number of elements. -/
theorem writeAt_length {α : Type} (d : α) (l : List α) (i : Nat) (x : α) (h : i < l.length) :
    (writeAt d l i x).length = l.length := by
  induction i generalizing l with
  | zero => cases l with
    | nil => simp at h
    | cons y l => rfl
  | succ i ih => cases l with
    | nil => simp at h
    | cons y l => simpa [writeAt] using ih l (by simpa using h)

/-- The elements after a write in range: the new one and old ones. -/
theorem mem_writeAt {α : Type} {d : α} {l : List α} {i : Nat} {x y : α} (h : i < l.length)
    (hy : y ∈ writeAt d l i x) : y = x ∨ y ∈ l := by
  induction i generalizing l with
  | zero => cases l with
    | nil => simp at h
    | cons z l => rcases List.mem_cons.1 hy with hy | hy
                  · exact .inl hy
                  · exact .inr (List.mem_cons_of_mem _ hy)
  | succ i ih => cases l with
    | nil => simp at h
    | cons z l =>
      rcases List.mem_cons.1 hy with hy | hy
      · exact .inr (hy ▸ List.mem_cons_self)
      · exact (ih (by simpa using h) hy).imp_right (List.mem_cons_of_mem _)

@[simp] theorem State.queue_setQueue (s : State) (q n : Nat) (Q : Queue) :
    (s.setQueue q Q).queue n = if n = q then Q else s.queue n := writeAt_getD _ _ _ _ _

@[simp] theorem State.buf_setBuf (s : State) (b n : Nat) (B : Buffer) :
    (s.setBuf b B).buf n = if n = b then B else s.buf n := writeAt_getD _ _ _ _ _

@[simp] theorem State.byte_setBuf (s : State) (b n i : Nat) (B : Buffer) :
    (s.setBuf b B).byte n i = if n = b then Memory.read B.bytes i else s.byte n i := by
  simp only [State.byte, State.buf_setBuf]; split <;> rfl

/-! ### The state after reset -/

/-- Buffer and queue storage of the reset state is canonical. -/
theorem State.reset_storage_wf :
    State.reset.bufs.all (fun B => Memory.wf B.bytes) = true ∧
    State.reset.queues.all (fun Q => Sparse.wf Q.slots) = true := by decide

end Sys2Proof.Machine
end

