-- ==== Sys2Proof/Laws/Requests.lean ====
section
/-! SUPPORT. One lemma per shared operation of the requests: everything it can answer. -/

namespace Sys2Proof.Machine

/-! ### perform and the checks -/

/-- A request that answers a next state ran in a block without a fault, and either has its own effect or faults. -/
theorem perform_next {r : Packet} {res : Except Cause State} {s t : State} (h : perform r res s = .next t) :
    s.fault.valid = false ∧ (res = .ok t ∨ ∃ c, res = .error c ∧ t = s.takeFault c r) := by
  unfold perform at h
  split at h
  · cases h
  · rename_i hv
    refine ⟨by simpa using hv, ?_⟩
    split at h
    · cases h; exact .inl rfl
    · rename_i c
      cases h; exact .inr ⟨c, rfl, rfl⟩

/-- In a block without a fault a request answers a next state. -/
theorem perform_of_ok {r : Packet} {t s : State} (hv : s.fault.valid = false) :
    perform r (.ok t) s = .next t := by simp [perform, hv]

/-- In a block without a fault a broken precondition is fault entry. -/
theorem perform_of_error {r : Packet} {c : Cause} {s : State} (hv : s.fault.valid = false) :
    perform r (.error c) s = .next (s.takeFault c r) := by simp [perform, hv]

/-- A halted block performs no request (R103). -/
theorem perform_halted {r : Packet} {res : Except Cause State} {s : State} (hv : s.fault.valid = true) :
    perform r res s = .fault .halted := by simp [perform, hv]

/-- A request never refuses. -/
theorem perform_ne_refused {r : Packet} {res : Except Cause State} {s : State} {e : Refusal} :
    perform r res s ≠ .refused e := by
  unfold perform; split
  · exact fun h => by cases h
  · split <;> exact fun h => by cases h

/-- A precondition passes on what comes behind it, or gives its cause. -/
theorem require_eq_ok {holds : Bool} {c : Cause} {k : Except Cause State} {t : State} :
    require holds c k = .ok t ↔ holds = true ∧ k = .ok t := by
  cases holds <;> simp [require]

/-- A precondition faults with its own cause, or with one of what comes behind it. -/
theorem require_eq_error {holds : Bool} {c e : Cause} {k : Except Cause State} :
    require holds c k = .error e ↔ (holds = false ∧ e = c) ∨ (holds = true ∧ k = .error e) := by
  cases holds <;> simp [require, eq_comm]

/-- A queue request has its effect exactly where the queue exists and the issuer is wired to the port. -/
theorem onQueue_eq_ok {q : Nat} {wired : QueueConfig → Agent} {s t : State} {k : Except Cause State} :
    onQueue q wired s k = .ok t ↔ q < s.cfg.nq ∧ s.issuer = wired (s.cfg.queue q) ∧ k = .ok t := by
  simp [onQueue, require_eq_ok]

/-- How a queue request faults. -/
theorem onQueue_eq_error {q : Nat} {wired : QueueConfig → Agent} {s : State} {k : Except Cause State} {e : Cause} :
    onQueue q wired s k = .error e ↔
      (s.cfg.nq ≤ q ∧ e = .badUnit) ∨
      (q < s.cfg.nq ∧ s.issuer ≠ wired (s.cfg.queue q) ∧ e = .portViolation) ∨
      (q < s.cfg.nq ∧ s.issuer = wired (s.cfg.queue q) ∧ k = .error e) := by
  simp only [onQueue, require_eq_error, decide_eq_false_iff_not, decide_eq_true_eq, not_lt]
  tauto

/-- The state a buffer request's own effect works on: the access is noted. -/
def State.accessed (s : State) (b : Nat) (kind : AccessKind) : State :=
  s.setBuf b ((s.buf b).noteAccess s.issuer ((s.vc s.issuer).get s.issuer) kind)

/-- A buffer request has its effect exactly where the buffer exists, the port is open to the issuer, and no access
races with it. -/
theorem onBuffer_eq_ok {b : Nat} {wired : Bool} {kind : AccessKind} {s t : State}
    {k : State → Except Cause State} :
    onBuffer b wired kind s k = .ok t ↔
      b < s.cfg.nbuf ∧ wired = true ∧ (s.buf b).races s.issuer (s.vc s.issuer) kind = false ∧
      k (s.accessed b kind) = .ok t := by
  simp [onBuffer, require_eq_ok, State.accessed]

/-- How a buffer request faults. -/
theorem onBuffer_eq_error {b : Nat} {wired : Bool} {kind : AccessKind} {s : State} {e : Cause}
    {k : State → Except Cause State} :
    onBuffer b wired kind s k = .error e ↔
      (s.cfg.nbuf ≤ b ∧ e = .badUnit) ∨
      (b < s.cfg.nbuf ∧ wired = false ∧ e = .portViolation) ∨
      (b < s.cfg.nbuf ∧ wired = true ∧ (s.buf b).races s.issuer (s.vc s.issuer) kind = true ∧ e = .dataRace) ∨
      (b < s.cfg.nbuf ∧ wired = true ∧ (s.buf b).races s.issuer (s.vc s.issuer) kind = false ∧
        k (s.accessed b kind) = .error e) := by
  simp only [onBuffer, require_eq_error, decide_eq_false_iff_not, decide_eq_true_eq, not_lt, State.accessed,
    Bool.not_eq_false', Bool.not_eq_true']
  tauto

/-- The access check in the words of R46. -/
theorem Buffer.races_eq_true {B : Buffer} {a : Agent} {k : Clock} {kind : AccessKind} :
    B.races a k kind = true ↔
      (∃ t, B.lastWrite = some (a.other, t) ∧ k.get a.other < t) ∨
      (kind = .write ∧ k.get a.other < B.lastRead.get a.other) := by
  unfold Buffer.races
  cases hw : B.lastWrite with
  | none => simp
  | some p => obtain ⟨x, t⟩ := p; simp

/-- A conflict of the statements is what the access check looks for. -/
theorem conflicts_iff {s : State} {a : Agent} {b : Nat} {kind : AccessKind} :
    conflicts s a b kind ↔ (s.buf b).races a (s.vc a) kind = true := Buffer.races_eq_true.symm

/-! ### Noting an access -/

/-- Noting an access leaves the bytes, the cursor and the flag alone. -/
theorem Buffer.noteAccess_content (B : Buffer) (a : Agent) (t : Nat) (kind : AccessKind) :
    (B.noteAccess a t kind).bytes = B.bytes ∧ (B.noteAccess a t kind).cursor = B.cursor ∧
    (B.noteAccess a t kind).writable = B.writable := by cases kind <;> exact ⟨rfl, rfl, rfl⟩

/-! ### Appending a record -/

/-- An appended record: the window was open, the record fits, its bytes stand at the old cursor, the cursor moves past
them, and the response reports it. -/
theorem appendRecord_eq_ok {b : Nat} {c : Command} {s t : State} :
    appendRecord b c s = .ok t ↔
      (s.buf b).writable = true ∧ (s.buf b).cursor + commandSize c ≤ s.cfg.bufcap ∧
      t = (s.setBuf b { s.buf b with
            bytes := Memory.writeBytes (s.buf b).bytes (s.buf b).cursor (encodeCommand c)
            cursor := (s.buf b).cursor + commandSize c }).respond
          (cursorResponse ((s.buf b).cursor + commandSize c)) := by
  simp only [appendRecord, require_eq_ok, decide_eq_true_eq, Except.ok.injEq, @eq_comm _ t]

/-- How appending a record faults (R95, R96). -/
theorem appendRecord_eq_error {b : Nat} {c : Command} {s : State} {e : Cause} :
    appendRecord b c s = .error e ↔
      ((s.buf b).writable = false ∧ e = .encNotWritable) ∨
      ((s.buf b).writable = true ∧ s.cfg.bufcap < (s.buf b).cursor + commandSize c ∧ e = .encOverflow) := by
  simp [appendRecord, require_eq_error]

/-! ### The decode procedure -/

/-- What a record leaves when it is taken: one more entry, pos behind it. -/
def DecodeWork.push (d : DecodeWork) (c : Command) : DecodeWork :=
  { d with out := d.out ++ [c], pos := d.pos + commandSize c }

/-- One record changes nothing but the decode variables: nothing after a stop, a stop, or one more entry. -/
theorem State.takeRecord_cases (s : State) (record : Option Command) :
    (s.dec.stop.isSome ∧ s.takeRecord record = s) ∨
    (∃ r, s.dec.stop = none ∧ stopReason s.cfg.fbcap s.dec (record.map commandSize) = some r ∧
      s.takeRecord record = s.stopDecode r) ∨
    (∃ c, s.dec.stop = none ∧ record = some c ∧
      stopReason s.cfg.fbcap s.dec (some (commandSize c)) = none ∧
      s.takeRecord record = s.setDec (s.dec.push c)) := by
  unfold State.takeRecord
  cases hs : s.dec.stop with
  | some r => exact .inl ⟨rfl, rfl⟩
  | none =>
    cases hr : stopReason s.cfg.fbcap s.dec (record.map commandSize) with
    | some r => exact .inr (.inl ⟨r, rfl, by simp, by simp⟩)
    | none =>
      cases record with
      | none => exact absurd hr (by simp [stopReason]; split <;> simp)
      | some c => exact .inr (.inr ⟨c, rfl, rfl, hr, rfl⟩)

/-- A round of the decode changes nothing but the decode variables. -/
theorem decodeRound_dec {m : Memory} {s t : State} (h : decodeRound m s = some t) : ∃ d, t = s.setDec d := by
  have take : ∀ rec, ∃ d, s.takeRecord rec = s.setDec d := fun rec => by
    rcases s.takeRecord_cases rec with ⟨_, h⟩ | ⟨r, _, _, h⟩ | ⟨c, _, _, _, h⟩
    · exact ⟨s.dec, h⟩
    · exact ⟨_, h⟩
    · exact ⟨_, h⟩
  unfold decodeRound at h
  split at h
  · cases h; exact ⟨_, rfl⟩
  · split at h
    · cases h
    · split at h
      · cases h; exact take _
      · split at h
        · cases h; exact ⟨_, rfl⟩
        · split at h
          · cases h
          · cases h; exact take _

/-- The whole loop changes nothing but the decode variables. -/
theorem decodeLoop_dec {m : Memory} {fuel : Nat} {s t : State} (h : decodeLoop m fuel s = some t) :
    ∃ d, t = s.setDec d := by
  induction fuel generalizing s with
  | zero => simp only [decodeLoop, Option.some.injEq] at h; exact ⟨s.dec, h ▸ rfl⟩
  | succ fuel ih =>
    unfold decodeLoop at h
    split at h
    · cases h
    · rename_i _ u hu
      obtain ⟨d, rfl⟩ := decodeRound_dec hu
      split at h
      · cases h; exact ⟨d, rfl⟩
      · obtain ⟨e, rfl⟩ := ih h
        exact ⟨e, rfl⟩

/-- A decode that is not stopped by an unwritten byte rebuilds the frame buffer from what the loop has taken, answers
with its count and reason, and changes nothing else. -/
theorem decodeBuffer_eq_ok {b len : Nat} {s t : State} :
    decodeBuffer b len s = .ok t ↔
      ∃ u, decodeLoop (s.buf b).bytes (len + 1) (s.setDec ⟨len, 0, [], none⟩) = some u ∧
        t = ((u.setFb (u.fb.rebuild u.dec.out)).setDec DecodeWork.idle).respond
          (decodeResponse u.dec.out.length (u.dec.stop.getD .exhausted)) := by
  unfold decodeBuffer
  cases decodeLoop (s.buf b).bytes (len + 1) (s.setDec ⟨len, 0, [], none⟩) with
  | none => simp
  | some u => simp only [Option.some.injEq, exists_eq_left', Except.ok.injEq, @eq_comm _ t]

/-- A decode faults with UNWRITTEN_READ alone (R99). -/
theorem decodeBuffer_eq_error {b len : Nat} {s : State} {e : Cause} :
    decodeBuffer b len s = .error e ↔
      decodeLoop (s.buf b).bytes (len + 1) (s.setDec ⟨len, 0, [], none⟩) = none ∧ e = .unwrittenRead := by
  unfold decodeBuffer
  cases decodeLoop (s.buf b).bytes (len + 1) (s.setDec ⟨len, 0, [], none⟩) with
  | none => simp [eq_comm]
  | some u => simp

/-! ### The effects of the queue requests -/

/-- A PUSH that does not fault: full, and only the answer; or the queue, the issuer's clock and the answer. -/
theorem pushEffect_eq_ok {q : Nat} {v : Word32} {s t : State} :
    pushEffect q v s = .ok t ↔
      q < s.cfg.nq ∧ s.issuer = (s.cfg.queue q).pusher ∧
      (((s.queue q).full (s.cfg.queue q).cap = true ∧ t = s.respond (pushResponse false)) ∨
       ((s.queue q).full (s.cfg.queue q).cap = false ∧
        t = ((s.setQueue q ((s.queue q).enqueue (s.cfg.queue q).cap v (s.vc s.issuer))).setVc s.issuer
          ((s.vc s.issuer).set s.issuer ((s.vc s.issuer).get s.issuer + 1))).respond (pushResponse true))) := by
  unfold pushEffect
  rw [onQueue_eq_ok]
  cases hf : (s.queue q).full (s.cfg.queue q).cap <;> simp only [hf, Bool.false_eq_true, if_false, if_true, true_and,
    false_and, or_false, false_or, reduceCtorEq, Except.ok.injEq, @eq_comm _ t]

/-- A POP that does not fault: empty, and only the answer; or the queue, the issuer's clock and the answer. -/
theorem popEffect_eq_ok {q : Nat} {s t : State} :
    popEffect q s = .ok t ↔
      q < s.cfg.nq ∧ s.issuer = (s.cfg.queue q).popper ∧
      (((s.queue q).empty = true ∧ t = s.respond popEmptyResponse) ∨
       ((s.queue q).empty = false ∧
        t = ((s.setVc s.issuer ((s.vc s.issuer).join (s.queue q).front.clk)).setQueue q
          ((s.queue q).dequeue (s.cfg.queue q).cap)).respond (popResponse (s.queue q).front.val))) := by
  unfold popEffect
  rw [onQueue_eq_ok]
  cases (s.queue q).empty <;> simp only [Bool.false_eq_true, if_false, if_true, true_and, false_and, or_false, false_or,
    reduceCtorEq, Except.ok.injEq, @eq_comm _ t]

/-- FB_READ that does not fault: the answer alone. -/
theorem fbReadEffect_eq_ok {i : Nat} {s t : State} :
    fbReadEffect i s = .ok t ↔
      s.issuer = .consumer ∧ i < s.fb.count ∧ t = s.respond (commandResponse (s.fb.at i)) := by
  simp only [fbReadEffect, require_eq_ok, State.byConsumer, decide_eq_true_eq, Except.ok.injEq, @eq_comm _ t]

end Sys2Proof.Machine
end

