-- ==== Sys2Proof/Laws/Exec.lean ====
section
/-! SUPPORT. Every request through one form: exec is `perform` of the request's own effect, and what that effect can
answer. -/

namespace Sys2Proof.Machine

/-- The effect of each request, before `perform`. A record is no request and has none. -/
def requestEffect (i : Instr) (s : State) : Except Cause State :=
  match i with
  | .push q v => pushEffect (unitNumber q) v s
  | .pop q => popEffect (unitNumber q) s
  | .encBegin b => encBeginEffect (unitNumber b) s
  | .pushClear b color => onBuffer (unitNumber b) s.byProducer .write s (appendRecord (unitNumber b) (.clear color))
  | .pushRect b layer color x y w h =>
    onBuffer (unitNumber b) s.byProducer .write s (appendRecord (unitNumber b) (.rect layer color x y w h))
  | .encSeal b => encSealEffect (unitNumber b) s
  | .encSize b => encSizeEffect (unitNumber b) s
  | .decode b => decodeEffect (unitNumber b) s
  | .decodeN b len => decodeNEffect (unitNumber b) (valNumber len) s
  | .fbRead idx => fbReadEffect (valNumber idx) s
  | .reservedOpAB _ _ => .error .illegalRequest
  | .reservedOpCF _ _ => .error .illegalRequest
  | .recClear _ => .ok s
  | .recRect _ _ _ _ _ _ => .ok s
  | .recUnrecognized _ => .ok s

/-- A request is its effect, performed. -/
theorem exec_eq_perform {i : Instr} (hi : i.isRequest = true) (s : State) :
    exec i s = perform (requestWord i) (requestEffect i s) s := by
  cases i <;> first | rfl | cases hi

/-- A request that answers a next state ran without a recorded fault, and had its effect or faulted. -/
theorem exec_request_next {i : Instr} (hi : i.isRequest = true) {s t : State} (h : exec i s = .next t) :
    s.fault.valid = false ∧
    (requestEffect i s = .ok t ∨ ∃ c, requestEffect i s = .error c ∧ t = s.takeFault c (requestWord i)) :=
  perform_next (exec_eq_perform hi s ▸ h)

/-- A request whose effect is `t`. -/
theorem exec_request_ok {i : Instr} (hi : i.isRequest = true) {s t : State} (hv : s.fault.valid = false)
    (h : requestEffect i s = .ok t) : exec i s = .next t := by
  rw [exec_eq_perform hi, h, perform_of_ok hv]

/-- A request whose effect is a cause. -/
theorem exec_request_error {i : Instr} (hi : i.isRequest = true) {s : State} {c : Cause} (hv : s.fault.valid = false)
    (h : requestEffect i s = .error c) : exec i s = .next (s.takeFault c (requestWord i)) := by
  rw [exec_eq_perform hi, h, perform_of_error hv]

/-- A record changes the decode variables alone. -/
theorem exec_record_next {i : Instr} (hi : i.isRequest = false) {s : State} :
    ∃ d, exec i s = .next (s.setDec d) := by
  have take : ∀ rec, ∃ d, s.takeRecord rec = s.setDec d := fun rec => by
    rcases s.takeRecord_cases rec with ⟨_, h⟩ | ⟨r, _, _, h⟩ | ⟨c, _, _, _, h⟩
    · exact ⟨s.dec, h⟩
    · exact ⟨_, h⟩
    · exact ⟨_, h⟩
  cases i <;> cases hi
  case recClear color => exact (take (some (.clear color))).imp fun d h => congrArg Host.Outcome.next h
  case recRect l c x y w h => exact (take (some (.rect l c x y w h))).imp fun d h => congrArg Host.Outcome.next h
  case recUnrecognized op => exact (take none).imp fun d h => congrArg Host.Outcome.next h

/-! ### The answer -/

/-- A response answers the issuer of `s` where the agents' ports are those of `s`. -/
theorem answers_respond (s t : State) (r : Response) (hi : t.issuer = s.issuer) (ha : ∀ a, t.agent a = s.agent a) :
    answers s (t.respond r) r.word :=
  ⟨by rw [← hi, t.agent_respond, ha], by rw [← hi, t.agent_respond_other, ha]⟩

/-- A response alone leaves everything else alone. -/
theorem onlyAnswers_respond (s : State) (r : Response) : onlyAnswers s (s.respond r) r.word :=
  ⟨answers_respond s s r rfl fun _ => rfl, by simp [sameQueues, sameBufs, sameClocks, sameOwn]⟩

end Sys2Proof.Machine
end

