-- ==== Sys2Proof/Laws/DecodeLoop.lean ====
section
/-! SUPPORT. The loop of the decode procedure and the relation `DecodesTo`, which says what it decodes (R79). -/

namespace Sys2Proof.Machine

/-- The first byte of a sequence and the rest. -/
theorem Memory.readBytes_head {m : Memory} {i n : Nat} {bs : List Byte} {op : Byte} (hn : 0 < n)
    (h : Memory.readBytes m i n = some bs) (ho : Memory.read m i = some op) :
    ∃ p, bs = op :: p ∧ Memory.readBytes m (i+1) (n-1) = some p := by
  cases n with
  | zero => omega
  | succ n =>
    unfold Memory.readBytes at h
    rw [ho] at h
    cases hp : Memory.readBytes m (i+1) n with
    | none => simp [hp] at h
    | some p => simp [hp] at h; exact ⟨p, h.symm, by simpa using hp⟩

/-- The command of the record row of a command. -/
theorem commandOf_toInstr (c : Command) : commandOf c.toInstr = some c := by cases c <;> rfl

/-- The two record lengths (R63). -/
theorem recordSize_eq {op : Byte} {n : Nat} (h : recordSize op = some n) : n = 5 ∨ n = 14 := by
  unfold recordSize at h; split at h
  · left; simpa using h.symm
  · split at h
    · right; simpa using h.symm
    · cases h

/-- A whole record decodes to the parsed command with nothing left. -/
theorem decodeRecord_whole {op : Byte} {n : Nat} {p : List Byte} (h : recordSize op = some n)
    (hp : p.length = n - 1) : decodeRecord (op :: p) = .ok ((parseCommand op p).toInstr, []) := by
  simp only [decodeRecord, h]
  rw [if_neg (by omega), ← hp]; simp

/-- A parsed command has the size its opcode says (R63). -/
theorem commandSize_parseCommand {op : Byte} {n : Nat} {p : List Byte} (h : recordSize op = some n) :
    commandSize (parseCommand op p) = n := by
  unfold recordSize at h; unfold parseCommand
  split at h
  · rename_i h0; simp [h0, parseClear, commandSize]; simpa using h
  · split at h
    · rename_i h0 h1; simp [h1, parseRect, commandSize]; simpa using h
    · cases h

/-- A loop that meets no unwritten byte decodes what `DecodesTo` says. -/
theorem decodeLoop_decodesTo {m : Memory} {fuel : Nat} {s t : State} (hs : s.dec.stop = none)
    (hout : s.dec.out.length ≤ s.cfg.fbcap) (hf : s.dec.len - s.dec.pos < fuel)
    (h : decodeLoop m fuel s = some t) :
    ∃ cmds reason, DecodesTo m s.dec.len s.dec.pos (s.cfg.fbcap - s.dec.out.length) cmds reason ∧
      t.dec.out = s.dec.out ++ cmds ∧ t.dec.stop = some reason := by
  induction fuel generalizing s with
  | zero => omega
  | succ fuel ih =>
    unfold decodeLoop at h
    cases hr : decodeRound m s with
    | none => simp [hr] at h
    | some u =>
      simp only [hr] at h
      unfold decodeRound at hr
      split at hr
      · rename_i hle
        cases hr
        simp at h; subst h
        exact ⟨[], .exhausted, .exhausted hle, by simp [State.stopDecode], by simp [State.stopDecode]⟩
      · rename_i hlt
        split at hr
        · cases hr
        · rename_i op hop
          split at hr
          · rename_i hsz
            cases hr
            have : s.takeRecord none = s.stopDecode .badOpcode := by
              simp [State.takeRecord, hs, stopReason, hlt]
            rw [this] at h
            simp at h; subst h
            exact ⟨[], .badOpcode, .badOpcode (by omega) hop hsz, by simp [State.stopDecode], by simp [State.stopDecode]⟩
          · rename_i n hsz
            cases hst : stopReason s.cfg.fbcap s.dec (some n) with
            | some r =>
              simp only [hst] at hr
              cases hr
              simp at h; subst h
              refine ⟨[], r, ?_, by simp [State.stopDecode], by simp [State.stopDecode]⟩
              simp only [stopReason, hlt, if_false] at hst
              split at hst
              · cases hst; exact .truncated (by omega) hop hsz (by omega)
              · split at hst
                · rename_i h1 h2
                  cases hst; rw [h2, Nat.sub_self]; exact .fbFull hop hsz (by omega)
                · cases hst
            | none =>
              simp only [hst] at hr
              split at hr
              · cases hr
              · rename_i p hp
                cases hr
                have hfit : s.dec.pos + n ≤ s.dec.len ∧ s.dec.out.length ≠ s.cfg.fbcap := by
                  simp only [stopReason, hlt, if_false] at hst
                  split at hst
                  · cases hst
                  · split at hst
                    · cases hst
                    · constructor <;> omega
                have hl := ((Memory.readBytes_eq_some m _ _ _).1 hp).1
                have hcs : commandSize (parseCommand op p) = n := commandSize_parseCommand hsz
                have ht : s.takeRecord (some (parseCommand op p)) =
                    s.setDec { s.dec with out := s.dec.out ++ [parseCommand op p], pos := s.dec.pos + n } := by
                  simp [State.takeRecord, hs, hcs, hst]
                rw [ht] at h
                have hn := recordSize_eq hsz
                simp [hs] at h
                obtain ⟨cmds, reason, hd, ho, hst'⟩ := ih (s := s.setDec _) (by simp) (by simp; omega) (by simp; omega) h
                refine ⟨parseCommand op p :: cmds, reason, ?_, by simp [ho], hst'⟩
                rw [show s.cfg.fbcap - s.dec.out.length = (s.cfg.fbcap - s.dec.out.length - 1) + 1 by omega]
                refine .record hop hsz hfit.1 (bytes := op :: p) ?_ (decodeRecord_whole hsz hl) (commandOf_toInstr _) ?_
                · rw [show n = (n-1)+1 by omega]; simp [Memory.readBytes, hop, hp]
                · simpa [Nat.sub_sub] using hd

/-- A loop meets no unwritten byte where `DecodesTo` says what it decodes. -/
theorem DecodesTo.decodeLoop_isSome {m : Memory} {fuel len pos room : Nat} {cmds : List Command} {reason : StopReason} {s : State}
    (hd : DecodesTo m len pos room cmds reason) (hs : s.dec.stop = none) (hl : s.dec.len = len) (hp : s.dec.pos = pos)
    (hr : s.cfg.fbcap = s.dec.out.length + room) (hf : len - pos < fuel) :
    ∃ t, decodeLoop m fuel s = some t := by
  induction hd generalizing s fuel with
  | exhausted h =>
    cases fuel with
    | zero => omega
    | succ fuel => exact ⟨s.stopDecode .exhausted, by simp [decodeLoop, decodeRound, hl, hp, h]⟩
  | badOpcode h ho hz =>
    cases fuel with
    | zero => omega
    | succ fuel =>
      exact ⟨s.stopDecode .badOpcode, by simp [decodeLoop, decodeRound, hp, ho, hz, State.takeRecord, hs, stopReason, hl, Nat.not_le.2 h]⟩
  | truncated h ho hz hlt =>
    cases fuel with
    | zero => omega
    | succ fuel =>
      exact ⟨s.stopDecode .truncated, by simp [decodeLoop, decodeRound, hp, ho, hz, stopReason, hl, Nat.not_le.2 h, hlt]⟩
  | fbFull ho hz hle =>
    rename_i pos size op
    cases fuel with
    | zero => omega
    | succ fuel =>
      have hn := recordSize_eq hz
      have h1 : ¬ len ≤ pos := by omega
      have h2 : ¬ len < pos + size := by omega
      exact ⟨s.stopDecode .fbFull, by simp [decodeLoop, decodeRound, hp, ho, hz, stopReason, hl, h1, h2, hr]⟩
  | record ho hz hle hb hdec hc hrest ih =>
    rename_i pos room size op bytes i c cmds reason
    cases fuel with
    | zero => omega
    | succ fuel =>
      have hn := recordSize_eq hz
      obtain ⟨p, rfl, hpay⟩ := Memory.readBytes_head (by omega) hb ho
      have h1 : ¬ s.dec.len ≤ s.dec.pos := by omega
      have h1' : ¬ len ≤ pos := by omega
      have h2 : ¬ len < pos + size := by omega
      have hst : stopReason s.cfg.fbcap s.dec (some size) = none := by
        simp [stopReason, hl, hp, h1', h2, hr]
      have ht : s.takeRecord (some (parseCommand op p)) =
          s.setDec { s.dec with out := s.dec.out ++ [parseCommand op p], pos := s.dec.pos + size } := by
        simp [State.takeRecord, hs, commandSize_parseCommand hz, hst]
      obtain ⟨t, ht'⟩ := ih (s := s.setDec { s.dec with out := s.dec.out ++ [parseCommand op p], pos := s.dec.pos + size })
        (fuel := fuel) (by simp [hs]) (by simp [hl]) (by simp [hp]) (by simp [hr]; omega) (by omega)
      refine ⟨t, ?_⟩
      have hround : decodeRound m s =
          some (s.setDec { s.dec with out := s.dec.out ++ [parseCommand op p], pos := s.dec.pos + size }) := by
        unfold decodeRound
        rw [if_neg h1]
        simp only [hp, ho, hz, hst, hpay]
        rw [← hp]; exact congrArg some ht
      simp only [decodeLoop, hround, State.setDec_dec, hs, Option.isSome_none, Bool.false_eq_true, if_false]
      simpa only [hs] using ht'

end Sys2Proof.Machine
end

