-- ==== Sys2Proof/Laws/Fields.lean ====
section
/-! SUPPORT. Fields of a port word: what a placed field reads as, and where it does not reach. -/

namespace Sys2Proof

/-- The bits of a placed field. -/
theorem place_getLsbD {width : Nat} (lo : Nat) (v : BitVec width) (i : Nat) (h : i < 128) :
    (place lo v).getLsbD i = (decide (lo ≤ i) && v.getLsbD (i - lo)) := by
  by_cases hl : lo ≤ i
  · simp [place, h, hl]
  · simp [place, hl]

/-- A placed field is read back where it stands. -/
theorem extract_place {width : Nat} (lo : Nat) (v : BitVec width) (h : lo + width ≤ 128) :
    (place lo v).extractLsb' lo width = v := by
  apply BitVec.eq_of_getLsbD_eq
  intro i hi
  rw [BitVec.getLsbD_extractLsb', place_getLsbD _ _ _ (by omega)]
  simp [hi]

/-- Bits below a placed field are 0. -/
theorem extract_place_below {width : Nat} (lo at' n : Nat) (v : BitVec width) (h : at' + n ≤ lo) :
    (place lo v).extractLsb' at' n = 0 := by
  apply BitVec.eq_of_getLsbD_eq
  intro i hi
  by_cases h128 : at' + i < 128
  · rw [BitVec.getLsbD_extractLsb', place_getLsbD _ _ _ h128]
    have : ¬ lo ≤ at' + i := by omega
    simp [this]
  · rw [BitVec.getLsbD_extractLsb', BitVec.getLsbD_of_ge _ _ (by omega)]
    simp

/-- Bits above a placed field are 0. -/
theorem extract_place_above {width : Nat} (lo at' n : Nat) (v : BitVec width) (h : lo + width ≤ at') :
    (place lo v).extractLsb' at' n = 0 := by
  apply BitVec.eq_of_getLsbD_eq
  intro i hi
  by_cases h128 : at' + i < 128
  · rw [BitVec.getLsbD_extractLsb', place_getLsbD _ _ _ h128, BitVec.getLsbD_of_ge v _ (by omega)]
    simp
  · rw [BitVec.getLsbD_extractLsb', BitVec.getLsbD_of_ge _ _ (by omega)]
    simp

/-- Reading a field of joined words joins what is read. -/
theorem extract_or (a b : Packet) (at' n : Nat) :
    (a ||| b).extractLsb' at' n = a.extractLsb' at' n ||| b.extractLsb' at' n := by
  apply BitVec.eq_of_getLsbD_eq
  intro i hi
  simp only [BitVec.getLsbD_extractLsb', BitVec.getLsbD_or, hi, decide_true, Bool.true_and]

end Sys2Proof
end

