-- ==== Sys2Proof/Laws/Fifo.lean ====
section
/-! SUPPORT. The arithmetic of a queue of a legal capacity: the mask is the remainder, occupancy and contents under
enqueue and dequeue (10_state.md R19). -/

namespace Sys2Proof.Machine

/-- A legal capacity is a power of two from 2 to 2^31 (R7). -/
theorem legalCap_iff {n : Nat} : legalCap n = true ↔ ∃ k, 1 ≤ k ∧ k ≤ 31 ∧ n = 2 ^ k := by
  simp only [legalCap, List.any_eq_true, List.mem_range, beq_iff_eq]
  constructor
  · rintro ⟨k, hk, rfl⟩; exact ⟨k + 1, by omega, by omega, rfl⟩
  · rintro ⟨k, h1, h2, rfl⟩; exact ⟨k - 1, by omega, by rw [Nat.sub_add_cancel h1]⟩

/-- A legal capacity is 2 or more. -/
theorem legalCap_two_le {n : Nat} (h : legalCap n = true) : 2 ≤ n := by
  obtain ⟨k, h1, _, rfl⟩ := legalCap_iff.1 h
  calc 2 = 2 ^ 1 := rfl
    _ ≤ 2 ^ k := Nat.pow_le_pow_right (by omega) h1

/-- `x AND M` is `x mod N` (R16 to R19). -/
theorem and_mask {cap : Nat} (h : legalCap cap = true) (x : Nat) : x &&& (cap - 1) = x % cap := by
  obtain ⟨k, _, _, rfl⟩ := legalCap_iff.1 h
  exact Nat.and_two_pow_sub_one_eq_mod x k

/-- The next cursor stays in range. -/
theorem cursorNext_lt {cap : Nat} (h : legalCap cap = true) (i : Nat) : cursorNext cap i < cap := by
  have := legalCap_two_le h
  rw [cursorNext, and_mask h]; exact Nat.mod_lt _ (by omega)

/-- The next cursor of one in range. -/
theorem cursorNext_eq {cap i : Nat} (h : legalCap cap = true) (hi : i < cap) :
    cursorNext cap i = if i + 1 = cap then 0 else i + 1 := by
  rw [cursorNext, and_mask h]
  split
  · rename_i he; rw [he, Nat.mod_self]
  · exact Nat.mod_eq_of_lt (by omega)

/-- The number of entries of a queue with its cursors in range (R19). -/
theorem Queue.count_eq {cap : Nat} {Q : Queue} (hh : Q.head < cap) (ht : Q.tail < cap) :
    Q.count cap = if Q.tail ≤ Q.head then Q.head - Q.tail else Q.head + cap - Q.tail := by
  unfold Queue.count
  split
  · rw [show Q.head + cap - Q.tail = Q.head - Q.tail + cap by omega, Nat.add_mod_right]
    exact Nat.mod_eq_of_lt (by omega)
  · exact Nat.mod_eq_of_lt (by omega)

@[simp] theorem Queue.contents_length (cap : Nat) (Q : Queue) : (Q.contents cap).length = Q.count cap := by
  simp [Queue.contents]

/-- A queue is full where it holds N - 1 entries (R19). -/
theorem Queue.full_iff {cap : Nat} {Q : Queue} (h : legalCap cap = true) (hh : Q.head < cap) (ht : Q.tail < cap) :
    Q.full cap = true ↔ Q.count cap = cap - 1 := by
  have := legalCap_two_le h
  rw [Queue.full, beq_iff_eq, cursorNext_eq h hh, Queue.count_eq hh ht]
  split <;> split <;> omega

/-- A queue is empty where it holds no entry (R19). -/
theorem Queue.empty_iff {cap : Nat} {Q : Queue} (hh : Q.head < cap) (ht : Q.tail < cap) :
    Q.empty = true ↔ Q.count cap = 0 := by
  rw [Queue.empty, beq_iff_eq, Queue.count_eq hh ht]
  split <;> omega

@[simp] theorem Queue.enqueue_head (cap : Nat) (Q : Queue) (v : Word32) (k : Clock) :
    (Q.enqueue cap v k).head = cursorNext cap Q.head := rfl
@[simp] theorem Queue.enqueue_tail (cap : Nat) (Q : Queue) (v : Word32) (k : Clock) :
    (Q.enqueue cap v k).tail = Q.tail := rfl
@[simp] theorem Queue.enqueue_slots (cap : Nat) (Q : Queue) (v : Word32) (k : Clock) :
    (Q.enqueue cap v k).slots = Sparse.put Q.slots Q.head ⟨v, k⟩ := rfl
@[simp] theorem Queue.dequeue_head (cap : Nat) (Q : Queue) : (Q.dequeue cap).head = Q.head := rfl
@[simp] theorem Queue.dequeue_tail (cap : Nat) (Q : Queue) : (Q.dequeue cap).tail = cursorNext cap Q.tail := rfl
@[simp] theorem Queue.dequeue_slots (cap : Nat) (Q : Queue) : (Q.dequeue cap).slots = Q.slots := rfl

/-- Enqueueing adds one entry. -/
theorem Queue.count_enqueue {cap : Nat} {Q : Queue} {v : Word32} {k : Clock} (h : legalCap cap = true)
    (hh : Q.head < cap) (ht : Q.tail < cap) (hf : Q.full cap = false) :
    (Q.enqueue cap v k).count cap = Q.count cap + 1 := by
  have hn : cursorNext cap Q.head ≠ Q.tail := by simpa [Queue.full] using hf
  have := cursorNext_lt h Q.head
  rw [Queue.count_eq (Q := Q.enqueue cap v k) this ht, Queue.count_eq hh ht]
  simp only [Queue.enqueue_head, Queue.enqueue_tail, cursorNext_eq h hh] at hn ⊢
  split_ifs at hn ⊢ <;> omega

/-- Dequeueing takes one entry away. -/
theorem Queue.count_dequeue {cap : Nat} {Q : Queue} (h : legalCap cap = true) (hh : Q.head < cap) (ht : Q.tail < cap)
    (he : Q.empty = false) : Q.count cap = (Q.dequeue cap).count cap + 1 := by
  have hn : Q.head ≠ Q.tail := by simpa [Queue.empty] using he
  have := cursorNext_lt h Q.tail
  rw [Queue.count_eq (Q := Q.dequeue cap) hh this, Queue.count_eq hh ht]
  simp only [Queue.dequeue_head, Queue.dequeue_tail, cursorNext_eq h ht]
  split_ifs <;> omega

/-- Enqueueing puts the value behind the contents (R19, R69). -/
theorem Queue.contents_enqueue {cap : Nat} {Q : Queue} {v : Word32} {k : Clock} (h : legalCap cap = true)
    (hh : Q.head < cap) (ht : Q.tail < cap) (hf : Q.full cap = false) :
    (Q.enqueue cap v k).contents cap = Q.contents cap ++ [some v] := by
  have h2 := legalCap_two_le h
  have hn : cursorNext cap Q.head ≠ Q.tail := by simpa [Queue.full] using hf
  rw [cursorNext_eq h hh] at hn
  rw [Queue.contents, Queue.count_enqueue h hh ht hf, List.range_succ, List.map_append, Queue.contents]
  congr 1
  · apply List.map_congr_left
    intro i hi
    rw [List.mem_range, Queue.count_eq hh ht] at hi
    simp only [Queue.enqueue, Sparse.get_put, and_mask h]
    rw [if_neg]
    split at hi <;> by_cases hw : Q.tail + i < cap
    · rw [Nat.mod_eq_of_lt hw]; omega
    · omega
    · rw [Nat.mod_eq_of_lt hw]; omega
    · rw [show Q.tail + i = Q.tail + i - cap + cap by omega, Nat.add_mod_right, Nat.mod_eq_of_lt (by omega)]; omega
  · simp only [Queue.enqueue, Sparse.get_put, and_mask h, List.map_cons, List.map_nil]
    rw [if_pos]; rfl
    rw [Queue.count_eq hh ht]
    split
    · rw [show Q.tail + (Q.head - Q.tail) = Q.head by omega, Nat.mod_eq_of_lt hh]
    · rw [show Q.tail + (Q.head + cap - Q.tail) = Q.head + cap by omega, Nat.add_mod_right, Nat.mod_eq_of_lt hh]

/-- Dequeueing takes the front of the contents away (R19, R69). -/
theorem Queue.contents_dequeue {cap : Nat} {Q : Queue} (h : legalCap cap = true) (hh : Q.head < cap)
    (ht : Q.tail < cap) (he : Q.empty = false) :
    Q.contents cap = (Sparse.get Q.slots Q.tail).map Slot.val :: (Q.dequeue cap).contents cap := by
  have h2 := legalCap_two_le h
  rw [Queue.contents, Queue.count_dequeue h hh ht he, List.range_succ_eq_map, List.map_cons, List.map_map, Queue.contents]
  congr 1
  · rw [Nat.add_zero, and_mask h, Nat.mod_eq_of_lt ht]
  · apply List.map_congr_left
    intro i _
    simp only [Queue.dequeue, Function.comp, and_mask h, cursorNext]
    rw [Nat.mod_add_mod, show Q.tail + 1 + i = Q.tail + (i + 1) by omega]

end Sys2Proof.Machine
end

