-- ==== Sys2Proof/Laws/PerInstr.lean ====
section
/-! SUPPORT. Statements about every instruction as syntax, one lemma per constructor. -/

namespace Sys2Proof.Laws

/-- The bytes an encoding takes: 16 for a request word (R53), else those of the record. -/
def encodedSize : Encoded → Nat
  | .request _ => 16
  | .record bytes => bytes.length

/-- The bytes of each row of the opcode table: 16, 5, 14, or the one opcode byte (R53, R60 to R62). -/
def rowSize : Instr → Nat
  | .push _ _ => 16
  | .pop _ => 16
  | .encBegin _ => 16
  | .pushClear _ _ => 16
  | .pushRect _ _ _ _ _ _ _ => 16
  | .encSeal _ => 16
  | .encSize _ => 16
  | .decode _ => 16
  | .decodeN _ _ => 16
  | .fbRead _ => 16
  | .reservedOpAB _ _ => 16
  | .reservedOpCF _ _ => 16
  | .recClear _ => 5
  | .recRect _ _ _ _ _ _ => 14
  | .recUnrecognized _ => 1

/-- An instruction's encoding has the size of its row. -/
def EncodingSize.Statement (i : Instr) : Prop := encodedSize (encode i) = rowSize i

theorem EncodingSize.push (q : Byte) (value : Word32) : EncodingSize.Statement (.push q value) := rfl
theorem EncodingSize.pop (q : Byte) : EncodingSize.Statement (.pop q) := rfl
theorem EncodingSize.encBegin (b : Byte) : EncodingSize.Statement (.encBegin b) := rfl
theorem EncodingSize.pushClear (b : Byte) (color : Word32) : EncodingSize.Statement (.pushClear b color) := rfl
theorem EncodingSize.pushRect (b layer : Byte) (color : Word32) (x y w h : Half) :
    EncodingSize.Statement (.pushRect b layer color x y w h) := rfl
theorem EncodingSize.encSeal (b : Byte) : EncodingSize.Statement (.encSeal b) := rfl
theorem EncodingSize.encSize (b : Byte) : EncodingSize.Statement (.encSize b) := rfl
theorem EncodingSize.decode (b : Byte) : EncodingSize.Statement (.decode b) := rfl
theorem EncodingSize.decodeN (b : Byte) (len : Word32) : EncodingSize.Statement (.decodeN b len) := rfl
theorem EncodingSize.fbRead (idx : Word32) : EncodingSize.Statement (.fbRead idx) := rfl
theorem EncodingSize.reservedOpAB (op : BitVec 4) (rest : BitVec 124) :
    EncodingSize.Statement (.reservedOpAB op rest) := rfl
theorem EncodingSize.reservedOpCF (op : BitVec 4) (rest : BitVec 124) :
    EncodingSize.Statement (.reservedOpCF op rest) := rfl
theorem EncodingSize.recClear (color : Word32) : EncodingSize.Statement (.recClear color) :=
  encodeCommand_length (.clear color)
theorem EncodingSize.recRect (layer : Byte) (color : Word32) (x y w h : Half) :
    EncodingSize.Statement (.recRect layer color x y w h) := encodeCommand_length (.rect layer color x y w h)
theorem EncodingSize.recUnrecognized (op : Byte) : EncodingSize.Statement (.recUnrecognized op) := rfl

end Sys2Proof.Laws
end

