-- ==== Sys2Proof/Tests/Slice0.lean ====
section
/-! SUPPORT. The model's own tests: well-formedness, decoding of words written out from spec/30_encoding.md, single
requests with the answers of spec/95_test_vectors.md, and for every statement with hypotheses a state that meets them. -/

namespace Sys2Proof.Tests

open Sys2Proof.Machine

/-! ### WellFormed: each check refuses an ill-formed term (R59, R62) -/

theorem test_wf_reservedAB : Instr.wellFormed (.reservedOpAB 3 0) = false ∧ Instr.wellFormed (.reservedOpAB 0xc 0) = false ∧
    Instr.wellFormed (.reservedOpAB 0xb 1) = true := by decide
theorem test_wf_reservedCF : Instr.wellFormed (.reservedOpCF 3 0) = false ∧ Instr.wellFormed (.reservedOpCF 0xb 0) = false ∧
    Instr.wellFormed (.reservedOpCF 0xc 1) = true := by decide
theorem test_wf_unrecognized : Instr.wellFormed (.recUnrecognized 1) = false ∧
    Instr.wellFormed (.recUnrecognized 2) = true := by decide
theorem test_config_legal : Config.default.legal = true ∧
    Config.legal { Config.default with queues := [⟨6, .producer, .consumer⟩] } = false ∧
    Config.legal { Config.default with queues := [⟨1, .producer, .consumer⟩] } = false ∧
    Config.legal { Config.default with queues := [⟨8, .producer, .producer⟩] } = false ∧
    Config.legal { Config.default with queues := [] } = false ∧
    Config.legal { Config.default with nbuf := 257 } = false ∧
    Config.legal { Config.default with bufcap := 2 ^ 32 } = false := by decide

/-! ### Decoding: words written out bit by bit from R54 to R62 -/

-- H W Y X VAL RSV_B LAYER UNIT RSV_A OP
theorem test_decode_push : decodeRequest 0x0000000000000000fffffffe00000300 = .ok (.push 3 0xfffffffe) := by decide
theorem test_decode_pop : decodeRequest 0x0000000000000000000000000000ff01 = .ok (.pop 0xff) := by decide
theorem test_decode_encBegin : decodeRequest 0x00000000000000000000000000000102 = .ok (.encBegin 1) := by decide
theorem test_decode_pushClear : decodeRequest 0x00000000000000001122334400000003 = .ok (.pushClear 0 0x11223344) := by
  decide
theorem test_decode_pushRect : decodeRequest 0x0004000300020001000000ff00020704 = .ok (.pushRect 7 2 0xff 1 2 3 4) := by
  decide
theorem test_decode_encSeal : decodeRequest 0x00000000000000000000000000000205 = .ok (.encSeal 2) := by decide
theorem test_decode_encSize : decodeRequest 0x00000000000000000000000000000006 = .ok (.encSize 0) := by decide
theorem test_decode_decode : decodeRequest 0x00000000000000000000000000000107 = .ok (.decode 1) := by decide
theorem test_decode_decodeN : decodeRequest 0x00000000000000000000000a00000008 = .ok (.decodeN 0 10) := by decide
theorem test_decode_fbRead : decodeRequest 0x00000000000000000000000200000009 = .ok (.fbRead 2) := by decide
theorem test_decode_reservedAB : decodeRequest 0x8000000000000000000000000000000b =
    .ok (.reservedOpAB 0xb 0x8000000000000000000000000000000) := by decide
theorem test_decode_reservedCF : decodeRequest 0x0000000000000000000000000000001c = .ok (.reservedOpCF 0xc 1) := by decide
theorem test_decode_recClear : decode (.record [0x00, 0x44, 0x33, 0x22, 0x11]) = .ok (.recClear 0x11223344) := by decide
theorem test_decode_recRect :
    decode (.record [0x01, 0x01, 0xAA, 0, 0, 0, 0xFB, 0xFF, 0xFA, 0xFF, 7, 0, 8, 0]) =
      .ok (.recRect 1 0xaa 0xfffb 0xfffa 7 8) := by decide
theorem test_decode_recUnrecognized : decode (.record [0xff]) = .ok (.recUnrecognized 0xff) := by decide
-- R59: RSV_A, RSV_B, an unused UNIT, VAL or X is not zero; R63: a record cut short
theorem test_decode_rejects : decodeRequest 0x11 = .error .rsvANotZero ∧ decodeRequest 0x01000004 = .error .rsvBNotZero ∧
    decodeRequest 0x109 = .error (.unusedFieldNotZero 9) ∧ decodeRequest 0x500000001 = .error (.unusedFieldNotZero 1) ∧
    decodeRequest 0x10000000000000000 = .error (.unusedFieldNotZero 0) ∧
    decode (.record [1, 2, 3]) = .error (.truncatedRecord 1) := by decide
-- R57, 95_test_vectors.md 1.2: an FB_READ answer
theorem test_response_word :
    (commandResponse (.rect 1 0xaa 0xfffb 0xfffa 7 8)).word = 0x00080007fffafffb000000aa00010101 ∧
    (decodeResponse 1 .truncated).word = 0x00000000000000000000000100000011 := by decide
-- the opcode table's numbering
theorem test_tableWord_request : decodeTableWord 128 0x0000000000000000000000ff00000003 = some (.pushClear 0 0xff) ∧
    decodeTableWord 4 0xa = some (.reservedOpAB 0xa 0) ∧ decodeTableWord 128 0x11 = none := by decide
theorem test_tableWord_record : decodeTableWord 8 0 = some (.recClear 0) ∧
    decodeTableWord 40 0x1122334400 = some (.recClear 0x11223344) ∧ decodeTableWord 8 1 = some (.recRect 0 0 0 0 0 0) ∧
    decodeTableWord 8 2 = some (.recUnrecognized 2) := by decide

/-! ### Small states -/

/-- The next state an outcome has. -/
def nextOf : Host.Outcome State Fault Refusal → Option State
  | .next t => some t
  | .fault _ => none
  | .refused _ => none

/-- Some value `f` takes in the next state of request `i`, issued by `a` in `s`. -/
def after {β : Type} (a : Agent) (i : Instr) (s : State) (f : State → β) : Option β :=
  (nextOf (exec i (s.setIssuer a))).map f

/-- The response agent `a` has after its request. -/
def answer (a : Agent) (i : Instr) (s : State) : Option (Option Packet) := after a i s fun t => (t.agent a).resp

/-- What FAULT holds after a request: valid, cause, agent. -/
def faulted (a : Agent) (r : Packet) (s : State) : Option (Bool × BitVec 4 × BitVec 1) :=
  (nextOf (performWord r (s.setIssuer a))).map fun t => (t.fault.valid, t.fault.cause, t.fault.agent)

/-- One queue P to C of `cap` slots, one buffer (the configurations of 95_test_vectors.md sections 1 and 2). -/
def oneQueue (cap bufcap fbcap : Nat) : State := State.ofConfig ⟨[⟨cap, .producer, .consumer⟩], 1, bufcap, fbcap⟩

/-- Such a machine with its queue as given. -/
def ring (cap head tail : Nat) (vals : List (Nat × Word32)) : State :=
  { oneQueue cap 16 4 with queues := [⟨head, tail, vals.map fun v => (v.1, ⟨v.2, ⟨1, 0⟩⟩)⟩] }

/-- Such a machine with its buffer begun by P and holding `bytes`, the cursor as given. -/
def recorded (bufcap fbcap cursor : Nat) (writable : Bool) (bytes : List Byte) : State :=
  { oneQueue 2 bufcap fbcap with
    bufs := [⟨Memory.writeBytes [] 0 bytes, cursor, writable, some (.producer, 1), Clock.zero⟩] }

/-- C knows what P did up to epoch 1: the index has been handed over. -/
def handed (s : State) : State := { s with vcP := ⟨2, 0⟩, vcC := ⟨1, 1⟩ }

/-- The three records of Scenario B. -/
def scenarioB : List Byte :=
  [0x00, 0x44, 0x33, 0x22, 0x11,
   0x01, 0x02, 0xFF, 0, 0, 0, 1, 0, 2, 0, 3, 0, 4, 0,
   0x01, 0x01, 0xAA, 0, 0, 0, 0xFB, 0xFF, 0xFA, 0xFF, 7, 0, 8, 0]

/-- Scenario B's commands. -/
def commandsB : List Command := [.clear 0x11223344, .rect 2 0xff 1 2 3 4, .rect 1 0xaa 0xfffb 0xfffa 7 8]

/-- Scenario B handed over. -/
def stateB (fbcap : Nat) : State := handed (recorded 256 fbcap 33 false scenarioB)

/-! ### Ring queue (95_test_vectors.md 2.1) -/

theorem test_push_wraps : after .producer (.push 0 1) (ring 2 1 1 [(0, 0xffffffff)])
    (fun t => ((t.queue 0).head, t.contents 0, t.agentP.resp, t.vcP)) = some (0, [some 1], some 1, ⟨2, 0⟩) := by decide
theorem test_push_full : after .producer (.push 0 15) (ring 4 1 2 [(0, 14), (1, 11), (2, 12), (3, 13)])
    (fun t => ((t.queue 0).head, t.contents 0, t.agentP.resp, t.vcP)) =
    some (1, [some 12, some 13, some 14], some 0, ⟨1, 0⟩) := by decide
theorem test_pop_wraps : after .consumer (.pop 0) (ring 2 0 1 [(0, 0xffffffff), (1, 7)])
    (fun t => ((t.queue 0).head, (t.queue 0).tail, t.agentC.resp, t.vcC)) =
    some (0, 0, some 0x0000000700000001, ⟨1, 1⟩) := by decide
theorem test_pop_empty : after .consumer (.pop 0) (ring 4 1 1 [(0, 14)])
    (fun t => ((t.queue 0).tail, t.agentC.resp, t.vcC)) = some (1, some 0, ⟨0, 1⟩) := by decide

/-! ### Encoder (95_test_vectors.md 2.2) -/

theorem test_encBegin_keeps_bytes : after .producer (.encBegin 0) (recorded 256 16 33 false scenarioB)
    (fun t => ((t.buf 0).cursor, (t.buf 0).writable, t.byte 0 32, t.agentP.resp)) =
    some (0, true, some 0, some 1) := by decide
theorem test_encBegin_races : after .producer (.encBegin 0)
    { oneQueue 2 16 4 with bufs := [⟨[], 0, true, some (.producer, 1), ⟨0, 1⟩⟩] }
    (fun t => (t.fault.cause, (t.buf 0).lastRead)) = some (4, ⟨0, 1⟩) := by decide
theorem test_pushClear_fits : after .producer (.pushClear 0 0x11223344) (recorded 5 4 0 true [])
    (fun t => (Memory.readBytes (t.buf 0).bytes 0 5, (t.buf 0).cursor, t.agentP.resp)) =
    some (some [0x00, 0x44, 0x33, 0x22, 0x11], 5, some 0x0000000500000001) := by decide
theorem test_pushClear_overflows : after .producer (.pushClear 0 1) (recorded 5 4 5 true [0, 0x44, 0x33, 0x22, 0x11])
    (fun t => (t.fault, (t.buf 0).cursor, t.byte 0 5, t.agentP.resp)) =
    some (⟨true, 6, 0, 0x0000000100000003⟩, 5, none, none) := by decide
theorem test_pushRect_fits : after .producer (.pushRect 0 0xff 0xffffffff 0x8000 0x7fff 0xffff 0)
    (recorded 19 4 5 true [0, 7, 0, 0, 0])
    (fun t => (Memory.readBytes (t.buf 0).bytes 0 19, t.agentP.resp)) =
    some (some [0x00, 0x07, 0, 0, 0, 0x01, 0xFF, 0xFF, 0xFF, 0xFF, 0xFF, 0, 0x80, 0xFF, 0x7F, 0xFF, 0xFF, 0, 0],
      some 0x0000001300000001) := by decide
theorem test_pushRect_overflows : after .producer (.pushRect 0 0 0 0 0 0 0) (recorded 18 4 5 true [0, 7, 0, 0, 0])
    (fun t => (t.fault.cause, (t.buf 0).cursor)) = some (6, 5) := by decide
theorem test_encSeal : after .producer (.encSeal 0) (recorded 16 4 5 true [0, 1, 0, 0, 0])
    (fun t => ((t.buf 0).writable, (t.buf 0).cursor, t.agentP.resp)) = some (false, 5, some 0x0000000500000001) := by
  decide
theorem test_append_sealed : after .producer (.pushClear 0 2) (recorded 16 4 5 false [0, 1, 0, 0, 0])
    (fun t => t.fault.cause) = some 5 := by decide
theorem test_encSize_both : answer .producer (.encSize 0) (stateB 16) = some (some 0x0000002100000001) ∧
    answer .consumer (.encSize 0) (stateB 16) = some (some 0x0000002100000001) := by decide
theorem test_encSize_races : after .consumer (.encSize 0) (recorded 16 4 0 true []) (fun t => t.fault.cause) = some 4 := by
  decide

/-! ### Decoder (95_test_vectors.md 1.2, 2.3) -/

theorem test_decode_scenarioB : after .consumer (.decode 0) (stateB 16)
    (fun t => (t.fb.count, t.fb.entry, t.agentC.resp, (t.buf 0).lastRead)) =
    some (3, commandsB, some 0x0000000300000001, ⟨0, 1⟩) := by decide
theorem test_decode_fbFull : answer .consumer (.decode 0) (stateB 1) = some (some 0x0000000100000031) := by decide
theorem test_decodeN_cuts : [0, 1, 4, 5, 6, 18, 19, 32, 33].map (fun n => answer .consumer (.decodeN 0 n) (stateB 16)) =
    [0x0000000000000001, 0x0000000000000011, 0x0000000000000011, 0x0000000100000001, 0x0000000100000011,
     0x0000000100000011, 0x0000000200000001, 0x0000000200000011, 0x0000000300000001].map (fun r => some (some r)) := by
  decide
theorem test_decodeN_stale_and_unwritten :
    answer .consumer (.decodeN 0 14) (handed (recorded 32 4 5 true
      [0x00, 0x55, 0, 0, 0, 0x02, 0, 0, 0, 0, 0, 0, 0, 0])) = some (some 0x0000000100000021) ∧
    after .consumer (.decodeN 0 6) (handed (recorded 32 4 5 true [0x00, 0x55, 0, 0, 0]))
      (fun t => (t.fault.cause, t.fb.count)) = some (9, 0) := by decide
theorem test_fbRead : answer .consumer (.fbRead 2) { stateB 16 with fb := ⟨3, commandsB⟩ } =
    some (some 0x00080007fffafffb000000aa00010101) := by decide
theorem test_fbRead_beyond : after .consumer (.fbRead 3) { stateB 16 with fb := ⟨3, commandsB⟩ }
    (fun t => t.fault) = some ⟨true, 8, 1, 0x00000000000000000000000300000009⟩ := by decide

/-! ### Records as rounds of the decode (R79) -/

/-- A decode of `len` bytes under way at `pos`. -/
def under (len pos : Nat) : State := { oneQueue 2 16 1 with dec := ⟨len, pos, [], none⟩ }

theorem test_recClear : after .consumer (.recClear 9) (under 5 0) (fun t => t.dec) = some ⟨5, 5, [.clear 9], none⟩ ∧
    after .consumer (.recClear 9) (under 4 0) (fun t => t.dec) = some ⟨4, 0, [], some .truncated⟩ := by decide
theorem test_recRect : after .consumer (.recRect 1 2 3 4 5 6) (under 19 5) (fun t => t.dec) =
      some ⟨19, 19, [.rect 1 2 3 4 5 6], none⟩ ∧
    after .consumer (.recRect 1 2 3 4 5 6) { under 19 5 with dec := ⟨19, 5, [.clear 0], none⟩ } (fun t => t.dec) =
      some ⟨19, 5, [.clear 0], some .fbFull⟩ := by decide
theorem test_recUnrecognized : after .consumer (.recUnrecognized 2) (under 6 5) (fun t => t.dec) =
    some ⟨6, 5, [], some .badOpcode⟩ := by decide

/-! ### Faults and their priority (95_test_vectors.md 2.4) -/

theorem test_faults_illegal : faulted .producer 0xa (oneQueue 2 16 4) = some (true, 1, 0) ∧
    faulted .consumer 0xf (oneQueue 2 16 4) = some (true, 1, 1) ∧
    faulted .producer 0x11 (oneQueue 2 16 4) = some (true, 1, 0) ∧
    faulted .consumer 0x01000001 (oneQueue 2 16 4) = some (true, 1, 1) ∧
    faulted .consumer 0x910 (oneQueue 2 16 4) = some (true, 1, 1) ∧
    faulted .consumer 0x109 (oneQueue 2 16 4) = some (true, 1, 1) := by decide
theorem test_faults_unit_port : faulted .producer 0x100 (oneQueue 2 16 4) = some (true, 2, 0) ∧
    faulted .consumer 0x500000100 (oneQueue 2 16 4) = some (true, 2, 1) ∧
    faulted .producer 0x102 (oneQueue 2 16 4) = some (true, 2, 0) ∧
    faulted .consumer 0 (oneQueue 2 16 4) = some (true, 3, 1) ∧
    faulted .producer 1 (oneQueue 2 16 4) = some (true, 3, 0) ∧
    faulted .consumer 2 (oneQueue 2 16 4) = some (true, 3, 1) ∧
    faulted .producer 7 (oneQueue 2 16 4) = some (true, 3, 0) := by decide
theorem test_faults_own : faulted .producer 0x100000003 (oneQueue 2 16 4) = some (true, 5, 0) ∧
    faulted .producer 3 (oneQueue 2 0 4) = some (true, 5, 0) ∧
    faulted .consumer 9 (oneQueue 2 16 4) = some (true, 8, 1) ∧
    faulted .consumer 6 (oneQueue 2 16 4) = some (false, 0, 0) ∧
    faulted .consumer 0x1100000008 (oneQueue 2 16 4) = some (true, 7, 1) ∧
    faulted .consumer 0x100000008 (oneQueue 2 16 4) = some (true, 9, 1) := by decide

/-! ### Steps, placing an instruction, the assembler -/

/-- Whether a step has a next state with property `p`. -/
def stepGives (s : State) (p : State → Bool) : Bool := ((nextOf (step s)).map p).getD false

theorem test_step_request : stepGives (State.reset.withFetchWord 128 0x0000000000000000000000ff00000100)
    (fun t => t.contents 1 == [some 0xff] && t.agentP.pos == 1 && t.agentP.vars == [(0, 1)]) = true := by decide
theorem test_step_record : stepGives (State.reset.withFetchWord 40 0x1122334400)
    (fun t => t.fb == ⟨1, [.clear 0x11223344]⟩ && t.agentC.resp == some 0x100000001) = true := by decide
theorem test_step_reserved : stepGives (State.reset.withFetchWord 128 0xb)
    (fun t => t.fault == ⟨true, 1, 0, 0xb⟩ && t.agentP.pos == 0) = true := by decide
-- R66 with log 15: P's variable after the local lines, the POP, ENC_BEGIN, ENC_SEAL and the PUSH of one frame
/-- One frame of P through the pool, of which queue 0 is FREE and queue 1 is READY. -/
def poolScript : List ScriptLine := poolInit :: beginFrame 0 1 ++ submitFrame 1 9
/-- The pool with one buffer and that script, before its boot. -/
def poolStart : State :=
  { State.ofConfig ⟨[⟨2, .consumer, .producer⟩, ⟨2, .producer, .consumer⟩], 1, 8, 1⟩ with
    host := poolBoot 0 1, agentP := ⟨poolScript, 0, [], none⟩ }
/-- The pool after its boot. -/
def poolReady : State := (nextOf (core.run 3 poolStart)).getD poolStart
/-- `n` steps in which the pool is used as R66 says. -/
def usesPool : Nat → State → Option State
  | 0, s => some s
  | n + 1, s => (nextOf (step s)).bind fun t => if poolStep 0 1 s t then usesPool n t else none
/-- R66: P.held takes b behind ENC_BEGIN; P holds b from the POP on. -/
theorem test_pool_held : [1, 2, 3, 4, 5].map (fun n => (usesPool n poolReady).map fun s =>
      (s.heldIndex .producer, s.heldBy .producer, s.agentP.pos)) =
    [some (none, none, 1), some (none, some 0, 4), some (some 0, some 0, 10), some (some 0, some 0, 11),
      some (none, none, 13)] := by decide
/-- R66: `try_consume` gives the popped index as C.cur, as view and as result; on an empty queue it gives NONE. -/
theorem test_tryConsume :
    [[.release], [.preload 1 3, .release]].map (fun h =>
      ((nextOf (core.run (h.length + 1) { State.reset with host := h, agentC := ⟨tryConsume 1 0, 0, [], none⟩ })).map fun s =>
        ([heldVar, viewVar, resultVar].map (Sparse.get s.agentC.vars), s.agentC.active))) =
    [some ([some (2 ^ 32), some (2 ^ 32), some (2 ^ 32)], false), some ([some 3, some 3, some 3], false)] := by decide
theorem test_reset_is_held : stepGives State.reset (fun t => t == State.reset) = true := by decide
-- the written forms of 95_test_vectors.md 1.2
theorem test_assemble : assembleLine "push_rect 0, 1, 0xAA, -5, -6, 7, 8 ; x" = some (.pushRect 0 1 0xaa 0xfffb 0xfffa 7 8) ∧
    assembleLine "enc.begin 0" = some (.encBegin 0) ∧ assembleLine "push 256, 0" = none ∧
    assembleLine "push_rect 0, 0, 0, 32768, 0, 0, 0" = none := by decide

/-! ### Witnesses: states and operands that meet the hypotheses of each statement -/

/-- Requests issued one after another, then a property of the state they leave. -/
def afterAll (rs : List (Agent × Instr)) (s : State) (p : State → Bool) : Bool := ((runRequests rs s).map p).getD false

/-- The configuration of State.reset: queue 0 C to P, queue 1 P to C. -/
abbrev pool : State := State.reset

/-- P hands buffer 0 over, recorded with one Clear. -/
def handOver : List (Agent × Instr) :=
  [(.producer, .encBegin 0), (.producer, .pushClear 0 9), (.producer, .push 1 0), (.consumer, .pop 1)]

theorem witness_DecodeOfEncodeIsTheInstruction :
    [Instr.push 0xff 0xffffffff, .pop 0, .fbRead 1, .reservedOpAB 0xa 1, .reservedOpAB 0xb 0, .reservedOpCF 0xc 0,
      .reservedOpCF 0xf 1, .recClear 1, .recUnrecognized 2].all Instr.wellFormed = true := by decide
theorem witness_AcceptedWordEncodesBack :
    decodeRequest 0x0000000000000000000000ff0000ff00 = .ok (.push 0xff 0xff) ∧
    decodeRequest 0x1f = .ok (.reservedOpCF 0xf 1) := by decide
theorem witness_IllegalWordsFault : pool.fault.valid = false ∧ illegalWord 0xa ∧ illegalWord 0x10 ∧
    illegalWord 0x100000001 ∧ ¬ illegalWord 9 ∧ ¬ illegalWord 0xff00 := by
  unfold illegalWord; decide
theorem witness_UnrecognizedOpcodeStopsTheDecode :
    (under 6 5).dec.stop = none ∧ (under 6 5).dec.pos < (under 6 5).dec.len ∧
    Memory.read [(5, 2)] (under 6 5).dec.pos = some 2 ∧ 2 ≤ (2 : Byte).toNat := by decide
theorem witness_StepRunsTheDecodedInstruction :
    let s := pool.withFetchWord 128 0x0000000000000000000000ff00000100
    s.cfg.legal = true ∧ s.phase = .released ∧ s.fault.valid = false ∧ s.nextAgent = some .producer ∧
    (s.agent .producer).line = .issue 0 0x0000000000000000000000ff00000100 none none ∧
    decodeRequest (issuedWord 0x0000000000000000000000ff00000100 none none (s.agent .producer).vars) =
      .ok (.push 1 0xff) ∧
    (({ s with agentP := { s.agentP with resp := some 1 } } : State).agent .producer).resp = some 1 ∧
    (s.agent .producer).resp = none ∧ (s.agent .producer).outstanding.isSome = true ∧
    (s.agent .consumer).active = false := by decide
/-- Both agents at a request, released. -/
def contended : State := { pool.placeRequest .producer 1 with agentC := ⟨[.issue 0 0x101 none none], 0, [], none⟩ }
theorem witness_AnyActiveAgentCanGoNext :
    contended.cfg.legal = true ∧ contended.phase = .released ∧ contended.fault.valid = false ∧
    (contended.agent .producer).active = true ∧ (contended.agent .consumer).active = true ∧
    ((pool.placeRequest .producer 1).agent .consumer).active = false := by decide
theorem witness_IdleChangesNothing : pool.release.cfg.legal = true ∧ pool.release.phase = .released ∧
    pool.release.ended = true ∧ pool.release.host = [] := by decide

theorem witness_PushEnqueuesOrReportsFull :
    let s := ring 2 1 1 []
    let f := ring 2 1 0 [(0, 7)]
    s.fault.valid = false ∧ (0 : Byte).toNat < s.cfg.nq ∧ s.issuer = (s.cfg.queue 0).pusher ∧
    (s.queue 0).head + 1 &&& (s.cap 0 - 1) ≠ (s.queue 0).tail ∧
    f.fault.valid = false ∧ (0 : Byte).toNat < f.cfg.nq ∧ f.issuer = (f.cfg.queue 0).pusher ∧
    (f.queue 0).head + 1 &&& (f.cap 0 - 1) = (f.queue 0).tail := by decide
theorem witness_PopDequeuesOrReportsEmpty :
    let s := (ring 2 0 1 [(1, 7)]).setIssuer .consumer
    let e := (ring 2 1 1 []).setIssuer .consumer
    s.fault.valid = false ∧ (0 : Byte).toNat < s.cfg.nq ∧ s.issuer = (s.cfg.queue 0).popper ∧
    (s.queue 0).head ≠ (s.queue 0).tail ∧ Sparse.get (s.queue 0).slots (s.queue 0).tail = some ⟨7, ⟨1, 0⟩⟩ ∧
    e.fault.valid = false ∧ e.issuer = (e.cfg.queue 0).popper ∧ (e.queue 0).head = (e.queue 0).tail := by decide
theorem witness_PushAndPopAreFirstInFirstOut :
    let s := ring 4 0 2 [(2, 1), (3, 2)]
    s.inv = true ∧ s.fault.valid = false ∧ (0 : Byte).toNat < s.cfg.nq ∧ s.issuer = (s.cfg.queue 0).pusher ∧
    (s.contents 0).length ≠ s.cap 0 - 1 ∧ (s.setIssuer .consumer).inv = true ∧
    (s.setIssuer .consumer).issuer = ((s.setIssuer .consumer).cfg.queue 0).popper ∧
    (s.setIssuer .consumer).contents 0 ≠ [] := by decide
theorem witness_UsableCapacityIsOneLessThanTheSlots :
    let s := ring 4 1 2 [(0, 3), (2, 1), (3, 2)]
    s.inv = true ∧ s.fault.valid = false ∧ (0 : Byte).toNat < s.cfg.nq ∧ s.issuer = (s.cfg.queue 0).pusher ∧
    (s.contents 0).length = s.cap 0 - 1 ∧ ((ring 4 3 3 []).setIssuer .consumer).inv = true ∧
    ((ring 4 3 3 []).setIssuer .consumer).issuer = ((ring 4 3 3 []).cfg.queue 0).popper ∧
    (((ring 4 3 3 []).setIssuer .consumer).contents 0).length = 0 := by decide
theorem witness_FifoLawOverRuns : pool.inv = true ∧ 1 < pool.cfg.nq ∧ (eventsOf handOver pool).isSome = true ∧
    (runRequests handOver pool).isSome = true := by decide

theorem witness_EncBeginOpensTheBuffer :
    let s := recorded 256 16 33 false scenarioB
    s.fault.valid = false ∧ (0 : Byte).toNat < s.cfg.nbuf ∧ s.issuer = .producer ∧
    ¬ conflicts s .producer 0 .write := by simp only [conflicts_iff]; decide
theorem witness_PushClearAppendsFiveBytes :
    let s := recorded 10 4 5 true [0, 7, 0, 0, 0]
    s.fault.valid = false ∧ (0 : Byte).toNat < s.cfg.nbuf ∧ s.issuer = .producer ∧
    ¬ conflicts s .producer 0 .write ∧ (s.buf 0).writable = true ∧ (s.buf 0).cursor + 5 ≤ s.cfg.bufcap := by
  simp only [conflicts_iff]; decide
theorem witness_PushRectAppendsFourteenBytes :
    let s := recorded 19 4 5 true [0, 7, 0, 0, 0]
    s.fault.valid = false ∧ (0 : Byte).toNat < s.cfg.nbuf ∧ s.issuer = .producer ∧
    ¬ conflicts s .producer 0 .write ∧ (s.buf 0).writable = true ∧ (s.buf 0).cursor + 14 ≤ s.cfg.bufcap := by
  simp only [conflicts_iff]; decide
theorem witness_EncSealClosesTheBuffer :
    let s := recorded 16 4 0 true []
    s.fault.valid = false ∧ (0 : Byte).toNat < s.cfg.nbuf ∧ s.issuer = .producer ∧
    ¬ conflicts s .producer 0 .write := by simp only [conflicts_iff]; decide
theorem witness_EncSizeReportsTheCursor :
    let s := (stateB 16).setIssuer .consumer
    s.fault.valid = false ∧ (0 : Byte).toNat < s.cfg.nbuf ∧ ¬ conflicts s s.issuer 0 .read := by
  simp only [conflicts_iff]; decide
theorem witness_AppendOutsideWindowOrCapacityFaults :
    let s := recorded 9 4 5 false [0, 7, 0, 0, 0]
    let f := recorded 9 4 5 true [0, 7, 0, 0, 0]
    appendedRecord (.pushClear 0 1) = some (0, .clear 1) ∧ s.fault.valid = false ∧ 0 < s.cfg.nbuf ∧
    s.issuer = .producer ∧ ¬ conflicts s .producer 0 .write ∧ (s.buf 0).writable = false ∧
    f.fault.valid = false ∧ f.issuer = .producer ∧ ¬ conflicts f .producer 0 .write ∧ (f.buf 0).writable = true ∧
    f.cfg.bufcap < (f.buf 0).cursor + 5 := by simp only [conflicts_iff]; decide
theorem witness_RepeatedReadsAndFlagWritesChangeNothing :
    let s := { stateB 16 with fb := ⟨3, commandsB⟩ }
    after .producer (.encBegin 0) s (fun t => t.fault.valid) = some false ∧
    after .producer (.encSeal 0) s (fun t => t.fault.valid) = some false ∧
    after .consumer (.encSize 0) s (fun t => t.fault.valid) = some false ∧
    after .consumer (.fbRead 2) s (fun t => t.fault.valid) = some false := by decide
theorem witness_ContentIsTheRecordsInCallOrder :
    let s := recorded 256 16 5 true (scenarioB.take 5)
    (s.buf 0).holds (commandsB.take 1) = true ∧
    afterAll [(.producer, .pushRect 0 2 0xff 1 2 3 4), (.producer, .pushClear 0 1)] s (fun _ => true) = true := by decide

theorem witness_DecodeRefinesTheRecordParser :
    let s := (stateB 16).setIssuer .consumer
    s.fault.valid = false ∧ (0 : Byte).toNat < s.cfg.nbuf ∧ s.issuer = .consumer ∧ ¬ conflicts s .consumer 0 .read ∧
    33 = (s.buf 0).cursor ∧ (33 : Word32).toNat = 33 ∧ 33 ≤ s.cfg.bufcap ∧
    Memory.readBytes (s.buf 0).bytes 0 33 = some scenarioB := by simp only [conflicts_iff]; decide
theorem witness_DecodeFollowsTheProcedure :
    let s := (handed (recorded 9 1 5 true [0, 0x55, 0, 0, 0, 1])).setIssuer .consumer
    s.fault.valid = false ∧ (0 : Byte).toNat < s.cfg.nbuf ∧ s.issuer = .consumer ∧ ¬ conflicts s .consumer 0 .read ∧
    (9 : Word32).toNat ≤ s.cfg.bufcap ∧
    DecodesTo (s.buf 0).bytes 9 0 s.cfg.fbcap [.clear 0x55] .truncated ∧
    ∀ cmds reason, ¬ DecodesTo (oneQueue 2 16 4).bufs[0].bytes 1 0 4 cmds reason := by
  refine ⟨by decide, by decide, by decide, by simp only [conflicts_iff]; decide, by decide, ?_, ?_⟩
  · exact .record (size := 5) (bytes := [0, 0x55, 0, 0, 0]) (i := .recClear 0x55) (op := 0) (by decide) (by decide)
      (by decide) (by decide) (by decide) (by decide)
      (.truncated (op := 1) (size := 14) (by decide) (by decide) (by decide) (by decide))
  · intro cmds reason h
    have hr : ∀ op, Memory.read (oneQueue 2 16 4).bufs[0].bytes 0 ≠ some op := fun op => by
      rw [show Memory.read (oneQueue 2 16 4).bufs[0].bytes 0 = none by decide]; exact fun h => by cases h
    cases h <;> first | exact hr _ ‹_› | omega
theorem witness_TruncationLaw :
    let s := (stateB 1).setIssuer .consumer
    s.fault.valid = false ∧ (0 : Byte).toNat < s.cfg.nbuf ∧ s.issuer = .consumer ∧ ¬ conflicts s .consumer 0 .read ∧
    (s.buf 0).holds commandsB = true ∧ (s.buf 0).cursor ≤ s.cfg.bufcap ∧ (19 : Word32).toNat ≤ (s.buf 0).cursor ∧
    2 ≤ commandsB.length ∧ recordsSize (commandsB.take 2) ≤ (19 : Word32).toNat ∧
    (2 < commandsB.length → (19 : Word32).toNat < recordsSize (commandsB.take 3)) := by
  simp only [conflicts_iff]; decide
theorem witness_RoundTripLaw : pool.inv = true ∧ pool.fault.valid = false ∧ (0 : Byte).toNat < pool.cfg.nbuf ∧
    ¬ conflicts pool .producer 0 .write ∧ recordsSize commandsB ≤ pool.cfg.bufcap ∧ (1 : Byte).toNat < pool.cfg.nq ∧
    (pool.cfg.queue 1).pusher = .producer ∧ (pool.cfg.queue 1).popper = .consumer ∧ pool.contents 1 = [] ∧
    afterAll ((Agent.producer, Instr.encBegin 0) :: commandsB.map (fun c => (Agent.producer, recordRequest 0 c)) ++
      [(.producer, .encSize 0), (.producer, .push 1 0), (.consumer, .pop 1)]) pool
      (fun t => !(t.buf 0).races .consumer (t.vc .consumer) .read) = true := by
  simp only [conflicts_iff]; decide
theorem witness_FbReadAnswersTheEntry :
    let s := ({ stateB 16 with fb := ⟨3, commandsB⟩ } : State).setIssuer .consumer
    s.fault.valid = false ∧ s.issuer = .consumer ∧ (2 : Word32).toNat < s.fb.count ∧
    s.fb.entry[(2 : Word32).toNat]? = some (.rect 1 0xaa 0xfffb 0xfffa 7 8) ∧
    s.fb.entry[(0 : Word32).toNat]? = some (.clear 0x11223344) := by decide
theorem witness_RecordsExtendOrStopTheDecode : (under 5 0).dec.stop = none ∧ (under 0 0).dec.stop = none ∧
    ({ under 0 0 with dec := ⟨0, 0, [], some .exhausted⟩ } : State).dec.stop ≠ none ∧
    (under 0 0).dec.len ≤ (under 0 0).dec.pos ∧ (under 4 0).dec.len < 5 := by decide
theorem witness_DecodeRoundRunsTheDecodedRecord :
    (under 5 0).dec.stop = none ∧ (under 5 0).dec.pos + 5 ≤ (under 5 0).dec.len ∧
    Memory.readBytes (Memory.writeBytes [] 0 [0, 1, 2, 3, 4]) (under 5 0).dec.pos 5 = some [0, 1, 2, 3, 4] ∧
    decodeRecord [0, 1, 2, 3, 4] = .ok (.recClear 0x04030201, []) ∧
    Memory.readBytes [(0, 9)] (under 5 0).dec.pos 1 = some [9] ∧
    decodeRecord [9] = .ok (.recUnrecognized 9, []) := by decide

theorem witness_ReservedOpsFault : pool.fault.valid = false ∧ (requestWord (.reservedOpAB 0xa 1)).toNat = 0x1a := by
  decide
theorem witness_UnitOutOfRangeFaults : pool.fault.valid = false ∧ pool.cfg.nq ≤ (2 : Byte).toNat ∧
    bufferAccess (.encBegin 4) = some (4, .write) ∧ bufferAccess (.decode 4) = some (4, .read) ∧ pool.cfg.nbuf ≤ 4 ∧
    (0x109 : Packet).extractLsb' 0 4 = (9 : BitVec 4) ∧ (0x109 : Packet).extractLsb' 8 8 ≠ (0 : Byte) := by decide
theorem witness_WrongPortFaults : pool.fault.valid = false ∧ (1 : Byte).toNat < pool.cfg.nq ∧
    pool.issuer ≠ (pool.cfg.queue 0).pusher ∧ pool.issuer ≠ (pool.cfg.queue 1).popper ∧
    (pool.setIssuer .consumer).issuer = .consumer ∧ bufferAccess (.encSeal 3) = some (3, .write) ∧
    3 < pool.cfg.nbuf ∧ pool.issuer = .producer ∧ (3 : Byte).toNat < pool.cfg.nbuf ∧
    after .producer (.encSize 3) pool (fun t => t.fault) = some pool.fault := by decide
theorem witness_UnorderedConflictIsADataRace :
    let s := (recorded 16 4 0 true []).setIssuer .consumer
    let r := (stateB 16).setIssuer .consumer
    bufferAccess (.encSize 0) = some (0, .read) ∧ s.fault.valid = false ∧ 0 < s.cfg.nbuf ∧
    portOpenTo s.cfg s.issuer (.encSize 0) = true ∧ conflicts s s.issuer 0 .read ∧
    r.fault.valid = false ∧ portOpenTo r.cfg r.issuer (.encSize 0) = true ∧ ¬ conflicts r r.issuer 0 .read := by
  simp only [conflicts_iff]; decide
theorem witness_LengthBeyondCapacityFaults :
    let s := (stateB 16).setIssuer .consumer
    s.fault.valid = false ∧ (0 : Byte).toNat < s.cfg.nbuf ∧ s.issuer = .consumer ∧ ¬ conflicts s .consumer 0 .read ∧
    s.cfg.bufcap < (257 : Word32).toNat := by simp only [conflicts_iff]; decide
theorem witness_IndexBeyondCountFaults :
    let s := ({ stateB 16 with fb := ⟨3, commandsB⟩ } : State).setIssuer .consumer
    s.fault.valid = false ∧ s.issuer = .consumer ∧ s.fb.count ≤ (3 : Word32).toNat := by decide
theorem witness_OnlyDecodeBeyondTheCursorReadsUnwrittenBytes :
    let s := (handed (recorded 6 1 5 true [0, 0x55, 0, 0, 0])).setIssuer .consumer
    s.inv = true ∧ s.fault.valid = false ∧ (0 : Byte).toNat < s.cfg.nbuf ∧ s.issuer = .consumer ∧
    ¬ conflicts s .consumer 0 .read ∧ (s.buf 0).holds [.clear 0x55] = true ∧ [Command.clear 0x55].length ≤ s.cfg.fbcap ∧
    (s.buf 0).cursor < (6 : Word32).toNat ∧ (6 : Word32).toNat ≤ s.cfg.bufcap ∧ s.byte 0 (s.buf 0).cursor = none ∧
    (5 : Word32).toNat ≤ (s.buf 0).cursor ∧ (nextOf (exec (.decodeN 0 5) s)).isSome = true ∧
    (nextOf (exec (.decode 0) s)).isSome = true := by simp only [conflicts_iff]; decide
theorem witness_FaultsArePrecise : pool.fault.valid = false ∧
    (nextOf (performWord 0x11 pool)).map (fun t => decide (t.fault ≠ pool.fault)) = some true := by decide
theorem witness_TheLowestCauseIsRaised : pool.fault.valid = false ∧ Instr.isRequest (.push 2 0) = true ∧
    applies (.push 2 0) (pool.setIssuer .consumer) .badUnit ∧
    applies (.push 2 0) (pool.setIssuer .consumer) .portViolation ∧
    (∀ e, applies (.push 2 0) (pool.setIssuer .consumer) e → Cause.code .badUnit ≤ e.code) ∧
    ∀ c, ¬ applies (.push 1 0) pool c := by
  refine ⟨by decide, by decide, .inl ⟨2, 0, rfl, by decide⟩, show portOpenTo _ _ _ = false by decide,
    fun e he => ?_, fun c hc => ?_⟩
  · cases e <;> simp_all [applies, Cause.code]
  · cases c <;> simp_all [applies, bufferAccess, appendedRecord, decodedInput] <;> revert hc <;> decide

/-- A block with a recorded fault, released. -/
def halted : State := { pool.release with fault := ⟨true, 1, 0, 0x11⟩ }
theorem witness_HaltedBlockPerformsNothing : halted.fault.valid = true ∧ halted.cfg.legal = true ∧
    halted.phase = .released ∧ halted.host = [] ∧ Instr.isRequest (.pop 0) = true := by decide
theorem witness_OnlyAResetClearsTheFault :
    stepGives { halted with host := [.reset] } (fun t => !t.fault.valid) = true ∧
    stepGives { pool with host := [.preload 0 1] } (fun t => t.fault == pool.fault) = true ∧ pool.phase = .held := by
  decide
theorem witness_RequestsWriteOnlyWhatTheirAgentMay : Instr.isRequest (.pop 1) = true ∧
    after .consumer (.pop 1) pool (fun t => t.issuer) = some .consumer ∧
    Agent.consumer ≠ (pool.cfg.queue 1).pusher ∧ after .producer (.push 1 0) pool (fun t => t.issuer) = some .producer ∧
    Agent.producer ≠ (pool.cfg.queue 1).popper := by decide
/-- C about to decode what P handed over, as the next step. -/
def decoding : State := { (stateB 16).placeRequest .consumer 7 with sched := [] }
theorem witness_EveryStepKeepsTheStateInShape : decoding.inv = true ∧
    stepGives decoding (fun t => decide (t.fb.count = 3)) = true := by decide
theorem witness_EveryStepKeepsTheClocksInOrder : decoding.clocksOk = true ∧
    stepGives decoding (fun t => decide ((t.buf 0).lastRead = ⟨0, 1⟩)) = true := by decide
theorem witness_NoStepChangesTheConfiguration : stepGives decoding (fun t => decide (t.cfg = decoding.cfg)) = true := by
  decide
theorem witness_ResetGivesEveryPieceItsValue : Config.legal ⟨[⟨3, .producer, .consumer⟩], 1, 0, 0⟩ = false ∧
    halted.hostReset.fault = FaultReg.reset := by decide
theorem witness_ResetEstablishesTheInvariants : Config.legal ⟨[⟨2, .producer, .consumer⟩], 1, 0, 0⟩ = true ∧
    Config.legal ⟨[⟨2 ^ 31, .consumer, .producer⟩], 256, 2 ^ 32 - 1, 2 ^ 32 - 1⟩ = true := by decide
/-- Of equal elements each is the same, absent ones included. -/
theorem getD_replicate_self {α : Type} (n i : Nat) (d : α) : (List.replicate n d).getD i d = d := by
  rw [List.getD_eq_getElem?_getD, List.getElem?_replicate]; split <;> rfl
theorem witness_EveryStepKeepsBuffersRowsOfRecords : (pool.withFetchWord 128 2).recordsOk ∧
    (nextOf (step (pool.withFetchWord 128 2))).isSome = true :=
  ⟨fun b => ⟨[], by
    have h : (pool.withFetchWord 128 2).buf b = Buffer.reset := getD_replicate_self 4 b Buffer.reset
    rw [h]; decide⟩, by decide⟩

theorem witness_HandOffMakesABufferVisible :
    afterAll [(.producer, .encBegin 0), (.producer, .push 0 1), (.producer, .push 0 2)] (oneQueue 4 16 4) (fun s =>
      s.inv && s.clocksOk && !s.fault.valid && decide ((0 : Byte).toNat < s.cfg.nq) &&
      decide ((s.cfg.queue 0).pusher = .producer) && decide ((s.cfg.queue 0).popper = Agent.producer.other) &&
      decide ((s.contents 0).length = 2) && decide ((s.contents 0).length < s.cap 0 - 1)) = true := by decide
theorem witness_PopGivesNoTailSideOrder : pool.clocksOk = true ∧ (0 : Byte).toNat < pool.cfg.nbuf ∧
    afterAll [(.consumer, .encSize 0), (.consumer, .pop 1)] pool (fun _ => true) = true := by decide
theorem witness_SealAfterSubmitRaces : pool.inv = true ∧ pool.clocksOk = true ∧ (0 : Byte).toNat < pool.cfg.nbuf ∧
    pool.contents 1 = [] ∧
    afterAll [(.producer, .push 1 0), (.consumer, .pop 1), (.producer, .encSeal 0)] pool (fun _ => true) = true ∧
    afterAll [(.producer, .push 1 0), (.consumer, .pop 1), (.consumer, .decode 0)] pool (fun _ => true) = true := by
  decide
theorem witness_ClocksDecideHappensBefore : pool.inv = true ∧ pool.clocksFresh = true ∧
    (eventsOf (handOver ++ [(.consumer, .decode 0)]) pool).map
      (fun es => es.map fun e => (e.agent, e.accesses 0, e.epoch, e.before.vcC.p)) =
    some [(.producer, true, 1, 0), (.producer, true, 1, 0), (.producer, false, 1, 0), (.consumer, false, 1, 0),
      (.consumer, true, 1, 1)] ∧
    (eventsOf [(.producer, .encSize 0), (.consumer, .encSize 1)] pool).map
      (fun es => es.map fun e => (e.agent, e.accesses 0, e.accesses 1, e.epoch, e.before.vcC.p)) =
    some [(.producer, true, false, 1, 0), (.consumer, false, true, 1, 0)] := by decide

theorem witness_PreloadEnqueuesWithoutAClock :
    let s := { ring 2 1 1 [] with host := [.preload 0 9, .release] }
    let f := { ring 2 0 1 [(1, 7)] with host := [.preload 0 9] }
    s.inv = true ∧ s.phase = .held ∧ s.host = .preload 0 9 :: [.release] ∧ 0 < s.cfg.nq ∧
    (s.contents 0).length ≠ s.cap 0 - 1 ∧ f.inv = true ∧ f.phase = .held ∧ f.host = .preload 0 9 :: [] ∧
    (f.contents 0).length = f.cap 0 - 1 := by decide
theorem witness_HeldAgentsDoNothing : pool.phase = .held ∧ stepGives pool (fun t => decide (t.phase = .held)) = true ∧
    stepGives { pool with host := [.release] } (fun t => decide (t.phase = .released)) = true := by decide
/-- P spins on a local line, C has stopped. -/
def spinning : State := { pool.release with agentP := ⟨[.goto 0], 0, [], none⟩ }
theorem runBy_spinning (n : Nat) : runBy (fun _ => .producer) spinning n = .next spinning := by
  induction n with
  | zero => rfl
  | succ n ih => rw [runBy, ih]; rfl
theorem witness_WeakFairnessServesAWaitingAgent :
    (∀ (a : Agent) (n : Nat), ∃ m, n ≤ m ∧ (if m % 2 = a.ident.toNat then a else a.other) = a) ∧
    WeaklyFair (fun _ => .producer) spinning ∧ spinning.cfg.legal = true ∧ spinning.host = [] ∧
    spinning.waiting .producer = true := by
  refine ⟨fun a n => ?_, fun a n h => ?_, by decide, by decide, by decide⟩
  · refine ⟨2 * n + a.ident.toNat, by omega, if_pos ?_⟩
    cases a <;> simp [Agent.ident]
  · obtain ⟨t, ht, hw⟩ := h n le_rfl
    rw [runBy_spinning] at ht
    cases ht
    cases a with
    | producer => exact ⟨n, spinning, le_rfl, runBy_spinning n, show spinning.granted .producer = some .producer by decide⟩
    | consumer => exact absurd hw (by decide)
/-- A script that spins for ever does not end, fairness or not (R127). -/
theorem test_spin_never_ends (h : WeaklyFair (fun _ => .producer) spinning) : ¬ endsFairly spinning fun _ => True := by
  intro he
  obtain ⟨n, t, ht, hend, -⟩ := he _ h
  rw [runBy_spinning] at ht
  cases ht
  exact absurd hend (by decide)
theorem witness_PoolConservationLaw : poolConfig poolStart.cfg 0 1 ∧ poolStart.cfg.nbuf + 2 = 3 ∧
    core.run 3 poolStart = .next poolReady ∧ poolReady.heldBy .producer = none ∧ poolReady.heldBy .consumer = none ∧
    PoolRun 0 1 poolReady poolReady [] 0 ∧ poolReady.fault.valid = false ∧
    poolAllows 0 1 .producer (poolReady.heldBy .producer) (.pop 0) = true ∧
    (usesPool 5 poolReady).map (fun s => (s.contents 0, s.contents 1, s.heldBy .producer, s.fault.valid)) =
      some ([], [some 0], none, false) := by
  refine ⟨by unfold poolConfig; decide, by decide, rfl, by decide, by decide, .start, by decide, by decide, by decide⟩
theorem witness_PoolBootFillsTheFreeQueue : Config.default.legal = true ∧ 0 < Config.default.nq ∧
    Config.default.nbuf + 1 ≤ (Config.default.queue 0).cap := by decide

end Sys2Proof.Tests
end

section
/-! The configuration and the shape of the state, taken apart: what the checks of `Config.legal`, `Queue.ok` and
`State.inv` say, one lemma each. -/

namespace Sys2Proof

/-- The constraints of R7 on one queue. -/
theorem QueueConfig.legal_iff {q : QueueConfig} :
    q.legal = true ↔ legalCap q.cap = true ∧ q.popper ≠ q.pusher := by
  rw [QueueConfig.legal, Bool.and_eq_true, bne_iff_ne, ne_comm]

/-- What holds of every listed queue is what holds of every queue number below NQ. -/
theorem Config.forall_queues_iff {c : Config} {P : QueueConfig → Prop} :
    (∀ Q ∈ c.queues, P Q) ↔ ∀ q, q < c.nq → P (c.queue q) := by
  simp only [List.forall_mem_iff_forall_getElem, Config.nq, Config.queue]
  exact forall₂_congr fun q hq => by rw [List.getD_eq_getElem _ _ hq]

/-- The legality check is the constraints of the table of R7, queue by queue. -/
theorem Config.legal_iff {c : Config} :
    c.legal = true ↔
      1 ≤ c.nq ∧ c.nq ≤ 256 ∧ (∀ q, q < c.nq → (c.queue q).legal = true) ∧
      1 ≤ c.nbuf ∧ c.nbuf ≤ 256 ∧ c.bufcap < 2 ^ 32 ∧ c.fbcap < 2 ^ 32 := by
  simp only [Config.legal, Bool.and_eq_true, decide_eq_true_eq, List.all_eq_true, and_assoc,
    Config.forall_queues_iff (P := fun Q => Q.legal = true)]

end Sys2Proof

namespace Sys2Proof.Machine

/-- The shape of one queue (R16 to R19). -/
theorem Queue.ok_iff {cap : Nat} {Q : Queue} :
    Q.ok cap = true ↔
      Q.head < cap ∧ Q.tail < cap ∧ Sparse.wf Q.slots = true ∧ (∀ e ∈ Q.slots, e.1 < cap) ∧
      ∀ v ∈ Q.contents cap, v.isSome = true := by
  simp only [Queue.ok, Bool.and_eq_true, decide_eq_true_eq, List.all_eq_true, and_assoc]

/-- The shape of the state, part by part. -/
theorem State.inv_iff {s : State} :
    s.inv = true ↔
      s.cfg.legal = true ∧ s.queues.length = s.cfg.nq ∧
      (∀ q, q < s.cfg.nq → (s.queue q).ok (s.cap q) = true) ∧
      s.bufs.length = s.cfg.nbuf ∧ (∀ B ∈ s.bufs, B.ok s.cfg.bufcap = true) ∧
      s.fb.ok s.cfg.fbcap = true ∧ s.fault.ok = true ∧ s.dec = DecodeWork.idle := by
  simp only [State.inv, Bool.and_eq_true, decide_eq_true_eq, List.all_eq_true, List.mem_range, and_assoc]

/-- In a state in shape the slot count of every queue is legal (R7). -/
theorem State.legalCap_of_inv {s : State} {q : Nat} (h : s.inv = true) (hq : q < s.cfg.nq) :
    legalCap (s.cap q) = true := by
  obtain ⟨hlegal, -⟩ := State.inv_iff.1 h
  obtain ⟨-, -, hqueues, -⟩ := Config.legal_iff.1 hlegal
  exact (QueueConfig.legal_iff.1 (hqueues q hq)).1

/-- In a state in shape the cursors of every queue are in range (R17, R18). -/
theorem State.cursors_lt_of_inv {s : State} {q : Nat} (h : s.inv = true) (hq : q < s.cfg.nq) :
    (s.queue q).head < s.cap q ∧ (s.queue q).tail < s.cap q := by
  obtain ⟨-, -, hqueues, -⟩ := State.inv_iff.1 h
  obtain ⟨hhead, htail, -⟩ := Queue.ok_iff.1 (hqueues q hq)
  exact ⟨hhead, htail⟩

/-- Configuring gives the reset state exactly for a legal configuration. -/
theorem State.configure_eq_next_iff {c : Config} :
    State.configure c = .next (State.ofConfig c) ↔ c.legal = true := by
  cases h : c.legal <;> simp [State.configure, h]

end Sys2Proof.Machine
end

section
/-! Rules for the requests of a queue, as the issuer sees them: which response it gets, with OK read out of it. -/

namespace Sys2Proof.Machine

/-- OK is bit 0 of a response word, under every other field (R57). -/
@[simp] theorem responseOk_word (r : Response) : responseOk r.word = r.ok := by
  have hlow {width : Nat} (lo : Nat) (v : BitVec width) (h : 0 < lo) : (place lo v).getLsbD 0 = false := by
    rw [place_getLsbD _ _ _ (by omega), decide_eq_false (by omega), Bool.false_and]
  simp only [responseOk, Response.word, BitVec.getLsbD_or, hlow, Nat.ofNat_pos, Bool.or_false]
  rw [place_getLsbD _ _ _ (by omega)]
  simp [okBit]

/-- A response reaches the agent that issues. -/
theorem State.resp_respond {t : State} {a : Agent} (r : Response) (h : t.issuer = a) :
    ((t.respond r).agent a).resp = some r.word := by
  subst h
  rw [State.agent_respond]

/-- The contents of a queue in shape never exceed its usable capacity (R9). -/
theorem State.contents_length_le {s : State} {q : Nat} (h : s.inv = true) (hq : q < s.cfg.nq) :
    (s.contents q).length ≤ s.cap q - 1 := by
  have hcap := legalCap_two_le (State.legalCap_of_inv h hq)
  have hlt : (s.queue q).count (s.cap q) < s.cap q := Nat.mod_lt _ (by omega)
  rw [State.contents, Queue.contents_length]
  omega

/-- A PUSH by the queue's pusher answers whether the queue was not full (R67). -/
theorem exec_push_answers {s : State} {q : Byte} (v : Word32) (hv : s.fault.valid = false) (hq : q.toNat < s.cfg.nq)
    (hport : s.issuer = (s.cfg.queue q.toNat).pusher) :
    ∃ t, exec (.push q v) s = .next t ∧
      (t.agent s.issuer).resp = some (pushResponse (!(s.queue q.toNat).full (s.cap q.toNat))).word := by
  have run {t : State} (h : pushEffect q.toNat v s = .ok t) : exec (.push q v) s = .next t :=
    exec_request_ok rfl hv h
  cases hfull : (s.queue q.toNat).full (s.cap q.toNat) with
  | true =>
    exact ⟨_, run (pushEffect_eq_ok.2 ⟨hq, hport, .inl ⟨hfull, rfl⟩⟩), State.resp_respond _ rfl⟩
  | false =>
    exact ⟨_, run (pushEffect_eq_ok.2 ⟨hq, hport, .inr ⟨hfull, rfl⟩⟩), State.resp_respond _ (by simp)⟩

/-- A POP by the queue's popper answers whether the queue was not empty (R68). -/
theorem exec_pop_answers {s : State} {q : Byte} (hv : s.fault.valid = false) (hq : q.toNat < s.cfg.nq)
    (hport : s.issuer = (s.cfg.queue q.toNat).popper) :
    ∃ t r, exec (.pop q) s = .next t ∧ (t.agent s.issuer).resp = some (Response.word r) ∧
      r.ok = !(s.queue q.toNat).empty := by
  have run {t : State} (h : popEffect q.toNat s = .ok t) : exec (.pop q) s = .next t := exec_request_ok rfl hv h
  cases hempty : (s.queue q.toNat).empty with
  | true =>
    exact ⟨_, _, run (popEffect_eq_ok.2 ⟨hq, hport, .inl ⟨hempty, rfl⟩⟩), State.resp_respond _ rfl, rfl⟩
  | false =>
    exact ⟨_, _, run (popEffect_eq_ok.2 ⟨hq, hport, .inr ⟨hempty, rfl⟩⟩), State.resp_respond _ (by simp), rfl⟩

end Sys2Proof.Machine
end

section
/-! The configuration along a step: every operation of the block, of the agents and of the host leaves it alone (R7). -/

namespace Sys2Proof.Machine

/-- A buffer request keeps the configuration where its own effect does. -/
theorem onBuffer_cfg {b : Nat} {wired : Bool} {kind : AccessKind} {s t : State} {k : State → Except Cause State}
    (hk : ∀ u, k u = .ok t → t.cfg = u.cfg) (h : onBuffer b wired kind s k = .ok t) : t.cfg = s.cfg := by
  obtain ⟨-, -, -, hok⟩ := onBuffer_eq_ok.1 h
  exact hk (s.accessed b kind) hok

theorem appendRecord_cfg {b : Nat} {c : Command} {s t : State} (h : appendRecord b c s = .ok t) : t.cfg = s.cfg := by
  obtain ⟨-, -, rfl⟩ := appendRecord_eq_ok.1 h
  simp

theorem decodeBuffer_cfg {b len : Nat} {s t : State} (h : decodeBuffer b len s = .ok t) : t.cfg = s.cfg := by
  obtain ⟨u, hu, rfl⟩ := decodeBuffer_eq_ok.1 h
  obtain ⟨d, rfl⟩ := decodeLoop_dec hu
  simp

theorem pushEffect_cfg {q : Nat} {v : Word32} {s t : State} (h : pushEffect q v s = .ok t) : t.cfg = s.cfg := by
  obtain ⟨-, -, ⟨-, rfl⟩ | ⟨-, rfl⟩⟩ := pushEffect_eq_ok.1 h <;> simp

theorem popEffect_cfg {q : Nat} {s t : State} (h : popEffect q s = .ok t) : t.cfg = s.cfg := by
  obtain ⟨-, -, ⟨-, rfl⟩ | ⟨-, rfl⟩⟩ := popEffect_eq_ok.1 h <;> simp

/-- No request's effect changes the configuration. -/
theorem requestEffect_cfg {i : Instr} {s t : State} (h : requestEffect i s = .ok t) : t.cfg = s.cfg := by
  cases i with
  | push q v => exact pushEffect_cfg h
  | pop q => exact popEffect_cfg h
  | encBegin b =>
    rw [requestEffect, encBeginEffect] at h
    exact onBuffer_cfg (fun u hu => by cases hu; simp) h
  | pushClear b color => exact onBuffer_cfg (fun u => appendRecord_cfg) h
  | pushRect b layer color x y w h' => exact onBuffer_cfg (fun u => appendRecord_cfg) h
  | encSeal b =>
    rw [requestEffect, encSealEffect] at h
    exact onBuffer_cfg (fun u hu => by cases hu; simp) h
  | encSize b =>
    rw [requestEffect, encSizeEffect] at h
    exact onBuffer_cfg (fun u hu => by cases hu; simp) h
  | decode b => exact onBuffer_cfg (fun u => decodeBuffer_cfg) h
  | decodeN b len => exact onBuffer_cfg (fun u hu => decodeBuffer_cfg (require_eq_ok.1 hu).2) h
  | fbRead idx =>
    obtain ⟨-, -, rfl⟩ := fbReadEffect_eq_ok.1 h
    simp
  | reservedOpAB op rest => cases h
  | reservedOpCF op rest => cases h
  | recClear color => cases h; rfl
  | recRect layer color x y w h' => cases h; rfl
  | recUnrecognized op => cases h; rfl

/-- No instruction changes the configuration. -/
theorem exec_cfg {i : Instr} {s t : State} (h : exec i s = .next t) : t.cfg = s.cfg := by
  cases hi : i.isRequest with
  | true =>
    obtain ⟨-, hok | ⟨c, -, rfl⟩⟩ := exec_request_next hi h
    · exact requestEffect_cfg hok
    · simp
  | false =>
    obtain ⟨d, hd⟩ := exec_record_next hi (s := s)
    cases hd.symm.trans h
    simp

/-- No request word changes the configuration, whether it is an encoding or not. -/
theorem performWord_cfg {r : Packet} {s t : State} (h : performWord r s = .next t) : t.cfg = s.cfg := by
  unfold performWord at h
  split at h
  · exact exec_cfg h
  · obtain ⟨-, hok | ⟨c, -, rfl⟩⟩ := perform_next h
    · cases hok
    · simp

@[simp] theorem State.settle_cfg (s : State) (a : Agent) (dst : Nat) : (s.settle a dst).cfg = s.cfg := by
  unfold State.settle
  split <;> simp

@[simp] theorem State.issuing_cfg (s : State) (a : Agent) : (s.issuing a).cfg = s.cfg := by simp [State.issuing]

@[simp] theorem State.countChoice_cfg (s : State) : s.countChoice.cfg = s.cfg := by
  unfold State.countChoice
  split <;> rfl

/-- An outcome is settled into a next state only from a next state. -/
theorem settled_eq_next {a : Agent} {dst : Nat} {o : Host.Outcome State Fault Refusal} {t : State} :
    settled a dst o = .next t ↔ ∃ u, o = .next u ∧ t = u.settle a dst := by
  cases o <;> simp [settled, eq_comm]

/-- No step of an agent changes the configuration. -/
theorem agentStep_cfg {a : Agent} {s t : State} (h : agentStep a s = .next t) : t.cfg = s.cfg := by
  unfold agentStep at h
  split at h
  case h_1 =>
    obtain ⟨u, hu, rfl⟩ := settled_eq_next.1 h
    rw [State.settle_cfg, performWord_cfg hu, State.issuing_cfg]
  all_goals cases h; simp

/-- No host action changes the configuration: a reset keeps it, as every other piece of the block's state is set anew. -/
theorem hostAct_cfg {act : HostAction} {s t : State} (h : hostAct act s = .next t) : t.cfg = s.cfg := by
  cases act with
  | reset => cases h; rfl
  | release => cases h; rfl
  | preload q v =>
    simp only [hostAct, hostPreload] at h
    split at h
    · cases h
    · split at h
      · cases h
      · cases h; simp

theorem heldStep_cfg {s t : State} (h : heldStep s = .next t) : t.cfg = s.cfg := by
  unfold heldStep at h
  split at h
  · cases h; rfl
  · exact (hostAct_cfg h :)

theorem resetOr_cfg {o : Host.Outcome State Fault Refusal} {s t : State} (ho : o = .next t → t.cfg = s.cfg)
    (h : resetOr o s = .next t) : t.cfg = s.cfg := by
  unfold resetOr at h
  split at h
  · cases h; rfl
  · exact ho h

/-- No step changes the configuration. -/
theorem step_cfg {s t : State} (h : step s = .next t) : t.cfg = s.cfg := by
  unfold step at h
  split at h
  · split at h
    · exact heldStep_cfg h
    · split at h
      · exact resetOr_cfg (fun ho => by cases ho) h
      · split at h
        · rw [agentStep_cfg h, State.countChoice_cfg]
        · exact resetOr_cfg (fun ho => by cases ho; rfl) h
  · cases h

end Sys2Proof.Machine
end

section
/-! The step of a running block and the agents around it: who goes next, what a step at a request is, and where an
agent waits. -/

namespace Sys2Proof.Machine

/-- A step of a running block is a step of the agent that goes next. -/
theorem step_of_nextAgent {s : State} {a : Agent} (hlegal : s.cfg.legal = true) (hphase : s.phase = .released)
    (hv : s.fault.valid = false) (ha : s.nextAgent = some a) : step s = agentStep a s.countChoice := by
  simp [step, hlegal, hphase, hv, ha]

/-- An agent's step at a request is the request performed, then settled. -/
theorem agentStep_of_issue {s : State} {a : Agent} {dst : Nat} {base : Packet} {u v : Option LocalExpr}
    (hline : (s.agent a).line = .issue dst base u v) :
    agentStep a s = settled a dst (performWord (issuedWord base u v (s.agent a).vars) (s.issuing a)) := by
  simp [agentStep, hline]

/-- A word that is an encoding is its instruction's meaning. -/
theorem performWord_of_decode {r : Packet} {i : Instr} (h : decodeRequest r = .ok i) (s : State) :
    performWord r s = exec i s := by
  simp [performWord, h]

@[simp] theorem State.agent_countChoice (s : State) (a : Agent) : s.countChoice.agent a = s.agent a := by
  unfold State.countChoice
  split <;> cases a <;> rfl

/-- Both agents are contending exactly where one and the other have something to do. -/
theorem State.contended_eq (s : State) (a : Agent) :
    s.contended = ((s.agent a).active && (s.agent a.other).active) := by
  cases a with
  | producer => rfl
  | consumer => exact Bool.and_comm _ _

/-- Where both agents can go, the one the interleaving names goes. -/
theorem State.nextAgent_of_contended {s : State} (h : s.contended = true) : s.nextAgent = some s.choice := by
  simp [State.nextAgent, h]

/-- Where only one agent can go, it goes, whatever the interleaving names. -/
theorem State.nextAgent_of_alone {s : State} {a : Agent} (ha : (s.agent a).active = true)
    (ho : (s.agent a.other).active = false) : s.nextAgent = some a := by
  have halone : s.contended = false := by rw [s.contended_eq a, ha, ho, Bool.and_false]
  cases a with
  | producer =>
    have hp : s.agentP.active = true := ha
    simp [State.nextAgent, halone, hp]
  | consumer =>
    have hp : s.agentP.active = false := ho
    have hc : s.agentC.active = true := ha
    simp [State.nextAgent, halone, hp, hc]

/-- An agent with a request outstanding, or one that has stopped, stands at a line that is not local. -/
theorem AgentPort.line_of_waiting {p : AgentPort} (h : p.outstanding.isSome ∨ p.active = false) :
    (∃ dst base u v, p.line = .issue dst base u v) ∨ p.line = .stop := by
  rcases h with hout | hstopped
  · cases hline : p.line with
    | issue dst base u v => exact .inl ⟨dst, base, u, v, rfl⟩
    | stop => exact .inr rfl
    | _ => simp [AgentPort.outstanding, hline] at hout
  · exact .inr (by simpa [AgentPort.active] using hstopped)

/-- An agent at a request or at its stop has no local line before it: it stays where it stands. -/
theorem AgentPort.goLocal_of_waiting {p : AgentPort} (h : p.outstanding.isSome ∨ p.active = false) :
    p.goLocal = p := by
  unfold AgentPort.goLocal
  cases p.script.length with
  | zero => rfl
  | succ fuel =>
    rcases AgentPort.line_of_waiting h with ⟨dst, base, u, v, hline⟩ | hline <;> simp [AgentPort.runLocal, hline]

/-- A delivered response is taken, and the agent goes on to its next request. -/
theorem State.settle_of_resp {t : State} {a : Agent} {r : Packet} (dst : Nat) (h : (t.agent a).resp = some r) :
    t.settle a dst = t.setAgent a ((t.agent a).receive dst r).goLocal := by
  simp [State.settle, h]

/-- Without a response the agent waits. -/
theorem State.settle_of_no_resp {t : State} {a : Agent} (dst : Nat) (h : (t.agent a).resp = none) :
    t.settle a dst = t := by
  simp [State.settle, h]

end Sys2Proof.Machine
end

section
/-! The obligations of 00_scope.md, settled. -/

namespace Sys2Proof.Machine

/-- Settles O15: PUSH answers by `full` and POP by `empty`, and on a queue in shape these are counts (R19). -/
theorem usableCapacityIsOneLessThanTheSlots : Obligations.UsableCapacityIsOneLessThanTheSlots := by
  intro s q hinv hv hq
  have hcap := State.legalCap_of_inv hinv hq
  obtain ⟨hhead, htail⟩ := State.cursors_lt_of_inv hinv hq
  refine ⟨State.contents_length_le hinv hq, fun v hport => ?_, fun hport => ?_⟩
  · obtain ⟨t, ht, hresp⟩ := exec_push_answers v hv hq hport
    refine ⟨t, _, ht, hresp, ?_⟩
    rw [responseOk_word, pushResponse, Bool.not_eq_false', Queue.full_iff hcap hhead htail, State.contents,
      Queue.contents_length]
  · obtain ⟨t, r, ht, hresp, hok⟩ := exec_pop_answers hv hq hport
    refine ⟨t, _, ht, hresp, ?_⟩
    rw [responseOk_word, hok, Bool.not_eq_false', Queue.empty_iff hhead htail, State.contents, Queue.contents_length]

/-- Settles O44, by the frame lemmas of every operation a step calls. -/
theorem noStepChangesTheConfiguration : Obligations.NoStepChangesTheConfiguration :=
  fun _ _ => step_cfg

/-- Settles O54: the legality check is the constraints of the table, one by one. -/
theorem legalConfigurationsAreThoseOfTheTable : Obligations.LegalConfigurationsAreThoseOfTheTable := by
  intro c
  rw [State.configure_eq_next_iff, Config.legal_iff]
  simp only [QueueConfig.legal_iff, legalCap_iff, Nat.lt_iff_le_pred (Nat.two_pow_pos 32)]

/-- Settles O9: the rules of a running step, of an agent at a request and of a decoded word, in a row; then those of
`settle` and `goLocal`. -/
theorem stepRunsTheDecodedInstruction : Obligations.StepRunsTheDecodedInstruction := by
  intro s a dst base u v i hlegal hphase hv hnext hline hdec
  refine ⟨?_, fun t => rfl, fun t r hr => ?_, fun p => AgentPort.goLocal_of_waiting,
    fun t => State.settle_of_no_resp dst⟩
  · rw [step_of_nextAgent hlegal hphase hv hnext, agentStep_of_issue (by rwa [State.agent_countChoice]),
      State.agent_countChoice, performWord_of_decode hdec]
  · rw [State.settle_of_resp dst hr, State.agent_setAgent, AgentPort.receive]

/-- Settles O10: contended, the front entry of the interleaving is used up; alone, none is needed. -/
theorem anyActiveAgentCanGoNext : Obligations.AnyActiveAgentCanGoNext := by
  intro s a hlegal hphase hv ha
  have hstep := step_of_nextAgent (s := { s with sched := a :: s.sched }) (a := a) hlegal hphase hv
  have hcontended : ({ s with sched := a :: s.sched } : State).contended = (s.agent a.other).active :=
    (s.contended_eq a).trans (by rw [ha, Bool.true_and])
  cases ho : (s.agent a.other).active with
  | true =>
    rw [hstep (State.nextAgent_of_contended (hcontended.trans ho))]
    simp [State.countChoice, hcontended, ho]
  | false =>
    rw [hstep (State.nextAgent_of_alone (by cases a <;> exact ha) (by cases a <;> exact ho))]
    simp [State.countChoice, hcontended, ho]

end Sys2Proof.Machine
end

section
/-! The block apart from what surrounds it: the agents' ports, the host's list, the schedule and the phase are no part
of it, and what touches these alone keeps the block. -/

namespace Sys2Proof.Machine

/-- The two states have the same block: every piece of its state (R15 to R31) and the decode variables. -/
structure SameBlock (s t : State) : Prop where
  cfg : t.cfg = s.cfg
  queues : t.queues = s.queues
  bufs : t.bufs = s.bufs
  fb : t.fb = s.fb
  fault : t.fault = s.fault
  vcP : t.vcP = s.vcP
  vcC : t.vcC = s.vcC
  dec : t.dec = s.dec

namespace SameBlock

theorem refl (s : State) : SameBlock s s := ⟨rfl, rfl, rfl, rfl, rfl, rfl, rfl, rfl⟩

theorem trans {s t u : State} (h : SameBlock s t) (k : SameBlock t u) : SameBlock s u :=
  ⟨k.cfg.trans h.cfg, k.queues.trans h.queues, k.bufs.trans h.bufs, k.fb.trans h.fb, k.fault.trans h.fault,
    k.vcP.trans h.vcP, k.vcC.trans h.vcC, k.dec.trans h.dec⟩

theorem setAgent (s : State) (a : Agent) (p : AgentPort) : SameBlock s (s.setAgent a p) := by
  constructor <;> simp

theorem respond (s : State) (r : Response) : SameBlock s (s.respond r) := setAgent _ _ _

theorem issuing (s : State) (a : Agent) : SameBlock s (s.issuing a) := by
  constructor <;> simp [State.issuing]

theorem countChoice (s : State) : SameBlock s s.countChoice := by
  unfold State.countChoice
  split
  · exact ⟨rfl, rfl, rfl, rfl, rfl, rfl, rfl, rfl⟩
  · exact refl s

theorem settle (s : State) (a : Agent) (dst : Nat) : SameBlock s (s.settle a dst) := by
  unfold State.settle
  split
  · exact setAgent _ _ _
  · exact refl s

theorem setHost (s : State) (acts : List HostAction) : SameBlock s { s with host := acts } :=
  ⟨rfl, rfl, rfl, rfl, rfl, rfl, rfl, rfl⟩

theorem release (s : State) : SameBlock s s.release := ⟨rfl, rfl, rfl, rfl, rfl, rfl, rfl, rfl⟩

theorem queue {s t : State} (h : SameBlock s t) (q : Nat) : t.queue q = s.queue q := by
  rw [State.queue, h.queues, State.queue]

theorem buf {s t : State} (h : SameBlock s t) (b : Nat) : t.buf b = s.buf b := by
  rw [State.buf, h.bufs, State.buf]

theorem cap {s t : State} (h : SameBlock s t) (q : Nat) : t.cap q = s.cap q := by
  rw [State.cap, h.cfg, State.cap]

end SameBlock

end Sys2Proof.Machine
end

section
/-! What a request does: one inversion lemma for all of them. A request that answers a next state completes in one of
the ways of `Completes`, or faults. -/

namespace Sys2Proof

theorem RequestFields.guardUnused_eq_ok {f : RequestFields} {ok : Bool} {i j : Instr} :
    f.guardUnused ok j = .ok i ↔ ok = true ∧ j = i := by
  cases ok <;> simp [RequestFields.guardUnused]

/-- The OP map names requests alone (R55). -/
theorem RequestFields.select_isRequest {f : RequestFields} {i : Instr} (h : f.select = .ok i) :
    i.isRequest = true := by
  unfold RequestFields.select at h
  by_cases hrect : f.op = 0x4#4
  · simp only [hrect] at h
    cases h; rfl
  · rw [if_neg hrect] at h
    split_ifs at h
    all_goals
      obtain ⟨-, rfl⟩ := RequestFields.guardUnused_eq_ok.1 h
      rfl

/-- A word that is an encoding is a request's: no record stands on a port (R53). -/
theorem decodeRequest_isRequest {r : Packet} {i : Instr} (h : decodeRequest r = .ok i) : i.isRequest = true := by
  simp only [decodeRequest] at h
  split_ifs at h
  · cases h; rfl
  · cases h; rfl
  · exact RequestFields.select_isRequest h

end Sys2Proof

namespace Sys2Proof.Machine

@[simp] theorem Buffer.noteAccess_bytes (B : Buffer) (a : Agent) (t : Nat) (kind : AccessKind) :
    (B.noteAccess a t kind).bytes = B.bytes := (B.noteAccess_content a t kind).1

@[simp] theorem Buffer.noteAccess_cursor (B : Buffer) (a : Agent) (t : Nat) (kind : AccessKind) :
    (B.noteAccess a t kind).cursor = B.cursor := (B.noteAccess_content a t kind).2.1

/-- Of two writes of one numbered element the second counts. -/
@[simp] theorem writeAt_writeAt {α : Type} (d : α) (l : List α) (i : Nat) (x y : α) :
    writeAt d (writeAt d l i x) i y = writeAt d l i y := by
  induction i generalizing l with
  | zero => cases l <;> rfl
  | succ i ih => cases l <;> simp [writeAt, ih]

@[simp] theorem State.setBuf_setBuf (s : State) (b : Nat) (B B' : Buffer) :
    (s.setBuf b B).setBuf b B' = s.setBuf b B' := by
  simp [State.setBuf]

/-- What an encoder request does to a buffer of `bufcap` bytes behind the access check: the record requests append,
ENC_BEGIN and ENC_SEAL set the window, ENC_SIZE looks only (R72 to R76). -/
inductive BufferChange (bufcap : Nat) (B : Buffer) : Instr → Buffer → Prop where
  | begins {u : Byte} : BufferChange bufcap B (.encBegin u) { B with cursor := 0, writable := true }
  | appends {i : Instr} {b : Nat} {c : Command} : appendedRecord i = some (b, c) → B.writable = true →
      B.cursor + commandSize c ≤ bufcap →
      BufferChange bufcap B i { B with
        bytes := Memory.writeBytes B.bytes B.cursor (encodeCommand c), cursor := B.cursor + commandSize c }
  | seals {u : Byte} : BufferChange bufcap B (.encSeal u) { B with writable := false }
  | sizes {u : Byte} : BufferChange bufcap B (.encSize u) B

/-- Buffer `b` with the issuer's access noted (R46). -/
def State.noted (s : State) (b : Nat) (kind : AccessKind) : Buffer :=
  (s.buf b).noteAccess s.issuer ((s.vc s.issuer).get s.issuer) kind

theorem State.accessed_eq (s : State) (b : Nat) (kind : AccessKind) :
    s.accessed b kind = s.setBuf b (s.noted b kind) := rfl

@[simp] theorem State.buf_accessed_self (s : State) (b : Nat) (kind : AccessKind) :
    (s.accessed b kind).buf b = s.noted b kind := by
  simp [State.accessed_eq]

/-- How a request completes without a fault (R12): by an answer alone, by an entry put into or taken out of a queue, by a
change of one buffer, or by a decode, each with the rights and the bounds it was checked for. -/
inductive Completes (s : State) : Instr → State → Prop where
  | answers {i : Instr} (r : Response) : bufferAccess i = none → Completes s i (s.respond r)
  | enqueues {q : Byte} {v : Word32} : q.toNat < s.cfg.nq → s.issuer = (s.cfg.queue q.toNat).pusher →
      (s.queue q.toNat).full (s.cap q.toNat) = false →
      Completes s (.push q v)
        (((s.setQueue q.toNat ((s.queue q.toNat).enqueue (s.cap q.toNat) v (s.vc s.issuer))).setVc s.issuer
          ((s.vc s.issuer).set s.issuer ((s.vc s.issuer).get s.issuer + 1))).respond (pushResponse true))
  | dequeues {q : Byte} : q.toNat < s.cfg.nq → s.issuer = (s.cfg.queue q.toNat).popper →
      (s.queue q.toNat).empty = false →
      Completes s (.pop q)
        (((s.setVc s.issuer ((s.vc s.issuer).join (s.queue q.toNat).front.clk)).setQueue q.toNat
          ((s.queue q.toNat).dequeue (s.cap q.toNat))).respond (popResponse (s.queue q.toNat).front.val))
  | changes {i : Instr} {b : Nat} {kind : AccessKind} {B : Buffer} (r : Response) :
      bufferAccess i = some (b, kind) → b < s.cfg.nbuf → (kind = .write → s.issuer = .producer) →
      (s.buf b).races s.issuer (s.vc s.issuer) kind = false →
      BufferChange s.cfg.bufcap (s.noted b kind) i B → Completes s i ((s.setBuf b B).respond r)
  | decodes {i : Instr} {b len : Nat} {u : State} : decodedInput s i = some (b, len) → b < s.cfg.nbuf →
      s.issuer = .consumer → (s.buf b).races s.issuer (s.vc s.issuer) .read = false →
      decodeLoop (s.buf b).bytes (len + 1) ((s.accessed b .read).setDec ⟨len, 0, [], none⟩) = some u →
      Completes s i ((((s.accessed b .read).setFb (s.fb.rebuild u.dec.out)).setDec DecodeWork.idle).respond
        (decodeResponse u.dec.out.length (u.dec.stop.getD .exhausted)))

/-- A record request that has its effect appends its record. -/
theorem completes_append {i : Instr} {b : Nat} {c : Command} {s t : State} (hi : appendedRecord i = some (b, c))
    (hacc : bufferAccess i = some (b, .write))
    (h : onBuffer b s.byProducer .write s (appendRecord b c) = .ok t) : Completes s i t := by
  obtain ⟨hb, hport, hrace, hok⟩ := onBuffer_eq_ok.1 h
  obtain ⟨hw, hfit, rfl⟩ := appendRecord_eq_ok.1 hok
  rw [State.buf_accessed_self] at hw hfit ⊢
  rw [State.accessed_eq, State.setBuf_setBuf]
  exact .changes _ hacc hb (fun _ => of_decide_eq_true hport) hrace (.appends hi hw hfit)

/-- A decode that has its effect rebuilds the frame buffer from what the loop has taken. -/
theorem completes_decode {i : Instr} {b len : Nat} {s t : State} (hi : decodedInput s i = some (b, len))
    (hb : b < s.cfg.nbuf) (hport : s.byConsumer = true) (hrace : (s.buf b).races s.issuer (s.vc s.issuer) .read = false)
    (h : decodeBuffer b len (s.accessed b .read) = .ok t) :
    Completes s i t := by
  obtain ⟨u, hu, rfl⟩ := decodeBuffer_eq_ok.1 h
  obtain ⟨d, rfl⟩ := decodeLoop_dec hu
  rw [State.buf_accessed_self, State.noted, Buffer.noteAccess_bytes] at hu
  exact .decodes hi hb (of_decide_eq_true hport) hrace hu

/-- A request's effect is one of the ways to complete. -/
theorem completes_of_requestEffect {i : Instr} (hi : i.isRequest = true) {s t : State}
    (h : requestEffect i s = .ok t) : Completes s i t := by
  cases i with
  | push q v =>
    obtain ⟨hq, hport, ⟨-, rfl⟩ | ⟨hfull, rfl⟩⟩ := pushEffect_eq_ok.1 h
    · exact .answers _ rfl
    · exact .enqueues hq hport hfull
  | pop q =>
    obtain ⟨hq, hport, ⟨-, rfl⟩ | ⟨hempty, rfl⟩⟩ := popEffect_eq_ok.1 h
    · exact .answers _ rfl
    · exact .dequeues hq hport hempty
  | encBegin b =>
    rw [requestEffect, encBeginEffect] at h
    obtain ⟨hb, hport, hrace, hok⟩ := onBuffer_eq_ok.1 h
    cases hok
    rw [State.buf_accessed_self, State.accessed_eq, State.setBuf_setBuf]
    exact .changes _ rfl hb (fun _ => of_decide_eq_true hport) hrace .begins
  | pushClear b color => exact completes_append rfl rfl h
  | pushRect b layer color x y w h' => exact completes_append rfl rfl h
  | encSeal b =>
    rw [requestEffect, encSealEffect] at h
    obtain ⟨hb, hport, hrace, hok⟩ := onBuffer_eq_ok.1 h
    cases hok
    rw [State.buf_accessed_self, State.accessed_eq, State.setBuf_setBuf]
    exact .changes _ rfl hb (fun _ => of_decide_eq_true hport) hrace .seals
  | encSize b =>
    rw [requestEffect, encSizeEffect] at h
    obtain ⟨hb, -, hrace, hok⟩ := onBuffer_eq_ok.1 h
    cases hok
    exact .changes _ rfl hb (fun hk => by cases hk) hrace .sizes
  | decode b =>
    rw [requestEffect, decodeEffect] at h
    obtain ⟨hb, hport, hrace, hok⟩ := onBuffer_eq_ok.1 h
    rw [State.buf_accessed_self, State.noted, Buffer.noteAccess_cursor] at hok
    exact completes_decode rfl hb hport hrace hok
  | decodeN b len =>
    rw [requestEffect, decodeNEffect] at h
    obtain ⟨hb, hport, hrace, hok⟩ := onBuffer_eq_ok.1 h
    exact completes_decode rfl hb hport hrace (require_eq_ok.1 hok).2
  | fbRead idx =>
    obtain ⟨-, -, rfl⟩ := fbReadEffect_eq_ok.1 h
    exact .answers _ rfl
  | reservedOpAB op rest => cases h
  | reservedOpCF op rest => cases h
  | recClear color => cases hi
  | recRect layer color x y w h' => cases hi
  | recUnrecognized op => cases hi

/-- A request that answers a next state ran without a recorded fault, and has completed or faulted. -/
theorem exec_request_cases {i : Instr} (hi : i.isRequest = true) {s t : State} (h : exec i s = .next t) :
    s.fault.valid = false ∧ (Completes s i t ∨ ∃ c, t = s.takeFault c (requestWord i)) := by
  obtain ⟨hv, hok | ⟨c, -, rfl⟩⟩ := exec_request_next hi h
  · exact ⟨hv, .inl (completes_of_requestEffect hi hok)⟩
  · exact ⟨hv, .inr ⟨c, rfl⟩⟩

/-- A request word that answers a next state completes as the request it encodes, or faults. -/
theorem performWord_cases {r : Packet} {s t : State} (h : performWord r s = .next t) :
    (∃ i, Completes s i t) ∨ ∃ c w, t = s.takeFault c w := by
  unfold performWord at h
  split at h
  · rename_i i hdec
    obtain ⟨-, hdone | ⟨c, hc⟩⟩ := exec_request_cases (decodeRequest_isRequest hdec) h
    · exact .inl ⟨i, hdone⟩
    · exact .inr ⟨c, _, hc⟩
  · obtain ⟨-, hok | ⟨c, -, hc⟩⟩ := perform_next h
    · cases hok
    · exact .inr ⟨c, r, hc⟩

end Sys2Proof.Machine
end

section
/-! What a step does to the block, and the rule for invariants that follows: a property of the block that a host reset,
a preload, a completed request and fault entry keep is kept by every step. -/

namespace Sys2Proof.Machine

/-- What one step does to the block: nothing, a reset, a preload, fault entry, or one completed request. -/
inductive BlockStep (s : State) : State → Prop where
  | same {t : State} : SameBlock s t → BlockStep s t
  | reset {rest : List HostAction} : s.host = .reset :: rest → BlockStep s ({ s with host := rest } : State).hostReset
  | preload {q : Nat} {v : Word32} {rest : List HostAction} : s.phase = .held →
      s.host = .preload q v :: rest → q < s.cfg.nq →
      (s.queue q).full (s.cap q) = false →
      BlockStep s (({ s with host := rest } : State).setQueue q ((s.queue q).enqueue (s.cap q) v Clock.zero))
  | fault {u t : State} {c : Cause} {r : Packet} : s.phase = .released → s.fault.valid = false → SameBlock s u →
      SameBlock (u.takeFault c r) t → BlockStep s t
  | request {u v t : State} {i : Instr} : s.phase = .released → s.fault.valid = false → SameBlock s u →
      Completes u i v → SameBlock v t → BlockStep s t

/-- An agent's step, seen from a state with the same block. -/
theorem agentStep_blockStep {a : Agent} {s s' t : State} (hphase : s.phase = .released) (hv : s.fault.valid = false)
    (hs : SameBlock s s') (h : agentStep a s' = .next t) : BlockStep s t := by
  unfold agentStep at h
  split at h
  case h_1 =>
    obtain ⟨u, hu, rfl⟩ := settled_eq_next.1 h
    have hissue := hs.trans (SameBlock.issuing s' a)
    rcases performWord_cases hu with ⟨i, hdone⟩ | ⟨c, w, rfl⟩
    · exact .request hphase hv hissue hdone (SameBlock.settle _ _ _)
    · exact .fault hphase hv hissue (SameBlock.settle _ _ _)
  case h_5 => cases h; exact .same hs
  all_goals cases h; exact .same (hs.trans (SameBlock.setAgent _ _ _))

theorem heldStep_blockStep {s t : State} (hphase : s.phase = .held) (h : heldStep s = .next t) : BlockStep s t := by
  unfold heldStep at h
  split at h
  · cases h; exact .same (SameBlock.refl s)
  · rename_i act rest hhost
    cases act with
    | reset => cases h; exact .reset hhost
    | release => cases h; exact .same ((SameBlock.setHost s rest).trans (SameBlock.release _))
    | preload q v =>
      simp only [hostAct, hostPreload] at h
      split at h
      · cases h
      · split at h
        · cases h
        · rename_i hq hfull
          cases h
          exact .preload hphase hhost (Nat.lt_of_not_le hq) (Bool.eq_false_iff.2 hfull)

theorem resetOr_blockStep {o : Host.Outcome State Fault Refusal} {s t : State} (ho : o = .next t → BlockStep s t)
    (h : resetOr o s = .next t) : BlockStep s t := by
  unfold resetOr at h
  split at h
  · rename_i rest hhost
    cases h; exact .reset hhost
  · exact ho h

/-- Every step is one of these. -/
theorem step_blockStep {s t : State} (h : step s = .next t) : BlockStep s t := by
  unfold step at h
  split at h
  · split at h
    · rename_i hphase
      exact heldStep_blockStep hphase h
    · rename_i hphase
      split at h
      · exact resetOr_blockStep (fun ho => by cases ho) h
      · rename_i hv
        split at h
        · exact agentStep_blockStep hphase (Bool.eq_false_iff.2 hv) (SameBlock.countChoice s) h
        · exact resetOr_blockStep (fun ho => by cases ho; exact .same (SameBlock.refl s)) h
  · cases h

/-- The rule for invariants of the block. -/
theorem step_keeps {P : State → Prop} (hsame : ∀ {s t : State}, SameBlock s t → P s → P t)
    (hreset : ∀ {s : State}, P s → P s.hostReset)
    (hpreload : ∀ {s : State} {q : Nat} {v : Word32}, q < s.cfg.nq → (s.queue q).full (s.cap q) = false → P s →
      P (s.setQueue q ((s.queue q).enqueue (s.cap q) v Clock.zero)))
    (hfault : ∀ {s : State} {c : Cause} {r : Packet}, P s → P (s.takeFault c r))
    (hrequest : ∀ {s t : State} {i : Instr}, Completes s i t → P s → P t)
    {s t : State} (hs : P s) (h : step s = .next t) : P t := by
  cases step_blockStep h with
  | same hst => exact hsame hst hs
  | @reset rest _ => exact hreset (hsame (SameBlock.setHost s rest) hs)
  | @preload q v rest _ _ hq hfull =>
    exact hpreload (s := { s with host := rest }) hq hfull (hsame (SameBlock.setHost s rest) hs)
  | fault _ _ hsu hut => exact hsame hut (hfault (hsame hsu hs))
  | request _ _ hsu hdone hvt => exact hsame hvt (hrequest hdone (hsame hsu hs))

end Sys2Proof.Machine
end

section
/-! The shape of the state (`State.inv`) under each operation of the block. -/

namespace Sys2Proof.Machine

/-- What holds of every listed element and of the default is what holds of every numbered element. -/
theorem forall_mem_iff_getD {α : Type} {P : α → Prop} {d : α} (hd : P d) (l : List α) :
    (∀ x ∈ l, P x) ↔ ∀ i, P (l.getD i d) := by
  rw [List.forall_mem_iff_forall_getElem]
  constructor
  · intro h i
    by_cases hi : i < l.length
    · rw [List.getD_eq_getElem _ _ hi]; exact h i hi
    · rwa [List.getD_eq_default _ _ (Nat.le_of_not_lt hi)]
  · intro h i hi
    rw [← List.getD_eq_getElem _ d hi]; exact h i

/-! ### One queue -/

theorem Queue.reset_ok {cap : Nat} (h : legalCap cap = true) : Queue.reset.ok cap = true := by
  have hpos : 0 < cap := by have := legalCap_two_le h; omega
  have hempty : Queue.reset.contents cap = [] := by
    rw [← List.length_eq_zero_iff, Queue.contents_length]
    exact (Queue.empty_iff hpos hpos).1 rfl
  exact Queue.ok_iff.2 ⟨hpos, hpos, rfl, by simp [Queue.reset], by simp [hempty]⟩

/-- A value put into a queue that is not full stands in a written slot in range. -/
theorem Queue.ok_enqueue {cap : Nat} {Q : Queue} {v : Word32} {k : Clock} (hcap : legalCap cap = true)
    (h : Q.ok cap = true) (hfull : Q.full cap = false) : (Q.enqueue cap v k).ok cap = true := by
  obtain ⟨hhead, htail, hwf, hslots, hcontents⟩ := Queue.ok_iff.1 h
  refine Queue.ok_iff.2 ⟨cursorNext_lt hcap _, htail, Sparse.wf_put _ _ _ hwf, fun e he => ?_, fun x hx => ?_⟩
  · rcases Sparse.mem_put he with rfl | he
    · exact hhead
    · exact hslots e he
  · rw [Queue.contents_enqueue hcap hhead htail hfull, List.mem_append, List.mem_singleton] at hx
    rcases hx with hx | rfl
    · exact hcontents x hx
    · rfl

/-- What is left of a queue after its front is gone stood in it before. -/
theorem Queue.ok_dequeue {cap : Nat} {Q : Queue} (hcap : legalCap cap = true)
    (h : Q.ok cap = true) (hempty : Q.empty = false) : (Q.dequeue cap).ok cap = true := by
  obtain ⟨hhead, htail, hwf, hslots, hcontents⟩ := Queue.ok_iff.1 h
  refine Queue.ok_iff.2 ⟨hhead, cursorNext_lt hcap _, hwf, hslots, fun x hx => hcontents x ?_⟩
  rw [Queue.contents_dequeue hcap hhead htail hempty]
  exact List.mem_cons_of_mem _ hx

/-! ### One buffer -/

/-- The shape of one buffer (R21, R23, R25). -/
theorem Buffer.ok_iff {bufcap : Nat} {B : Buffer} :
    B.ok bufcap = true ↔
      B.cursor ≤ bufcap ∧ Memory.wf B.bytes = true ∧ (∀ e ∈ B.bytes, e.1 < bufcap) ∧
      ∀ i < B.cursor, (Memory.read B.bytes i).isSome = true := by
  simp only [Buffer.ok, Bool.and_eq_true, decide_eq_true_eq, List.all_eq_true, List.mem_range, and_assoc]

theorem Buffer.reset_ok (bufcap : Nat) : Buffer.reset.ok bufcap = true := by
  simp [Buffer.ok_iff, Buffer.reset, Memory.wf, Sparse.wf]

/-- The access record is no part of a buffer's shape. -/
theorem Buffer.ok_noteAccess {bufcap : Nat} {B : Buffer} (a : Agent) (t : Nat) (kind : AccessKind)
    (h : B.ok bufcap = true) : (B.noteAccess a t kind).ok bufcap = true := by
  simpa only [Buffer.ok_iff, Buffer.noteAccess_cursor, Buffer.noteAccess_bytes] using h

/-- The places of a written memory: those of the sequence and old ones. -/
theorem Memory.mem_writeBytes {m : Memory} {i : Nat} {bs : List Byte} {e : Nat × Byte}
    (h : e ∈ Memory.writeBytes m i bs) : e ∈ m ∨ e.1 < i + bs.length := by
  induction bs generalizing m i with
  | nil => exact .inl h
  | cons b bs ih =>
    rw [List.length_cons]
    rcases ih h with hm | hlt
    · rcases Sparse.mem_put hm with rfl | hm
      · exact .inr (by simp)
      · exact .inl hm
    · exact .inr (by omega)

/-- A record that fits is written in range, and no byte below the new cursor is left out. -/
theorem Buffer.ok_append {bufcap : Nat} {B : Buffer} {c : Command} (h : B.ok bufcap = true)
    (hfit : B.cursor + commandSize c ≤ bufcap) :
    Buffer.ok bufcap { B with
      bytes := Memory.writeBytes B.bytes B.cursor (encodeCommand c), cursor := B.cursor + commandSize c } = true := by
  obtain ⟨-, hwf, hbytes, hbelow⟩ := Buffer.ok_iff.1 h
  refine Buffer.ok_iff.2 ⟨hfit, Memory.wf_writeBytes _ _ _ hwf, fun e he => ?_, fun i hi => ?_⟩
  · rcases Memory.mem_writeBytes he with he | hlt
    · exact hbytes e he
    · rw [encodeCommand_length] at hlt
      exact Nat.lt_of_lt_of_le hlt hfit
  · rw [Memory.read_writeBytes, encodeCommand_length]
    split
    · rw [List.getElem?_eq_getElem (by rw [encodeCommand_length]; omega)]; rfl
    · exact hbelow i (by simp only at hi; omega)

/-- Every encoder request keeps the shape of its buffer. -/
theorem BufferChange.ok {bufcap : Nat} {B B' : Buffer} {i : Instr} (h : BufferChange bufcap B i B')
    (hB : B.ok bufcap = true) : B'.ok bufcap = true := by
  cases h with
  | begins =>
    obtain ⟨-, hwf, hbytes, -⟩ := Buffer.ok_iff.1 hB
    exact Buffer.ok_iff.2 ⟨Nat.zero_le _, hwf, hbytes, fun i hi => absurd hi (Nat.not_lt_zero i)⟩
  | appends _ _ hfit => exact Buffer.ok_append hB hfit
  | seals => exact hB
  | sizes => exact hB

/-! ### The frame buffer and FAULT -/

/-- No more is decoded than there is room for (R82). -/
theorem DecodesTo.length_le_room {m : Memory} {len pos room : Nat} {cmds : List Command} {reason : StopReason}
    (h : DecodesTo m len pos room cmds reason) : cmds.length ≤ room := by
  induction h with
  | record _ _ _ _ _ _ _ ih => exact Nat.succ_le_succ ih
  | _ => exact Nat.zero_le _

/-- The decode of a whole buffer takes at most FBCAP commands (R79). -/
theorem decodeLoop_out_length_le {m : Memory} {len : Nat} {s u : State}
    (h : decodeLoop m (len + 1) (s.setDec ⟨len, 0, [], none⟩) = some u) : u.dec.out.length ≤ s.cfg.fbcap := by
  obtain ⟨cmds, reason, hdec, hout, -⟩ := decodeLoop_decodesTo rfl (Nat.zero_le _) (Nat.lt_succ_self len) h
  rw [hout]
  exact hdec.length_le_room

/-- A rebuilt frame buffer has its new entries written, and its old ones behind them (R28, R79). -/
theorem FrameBuffer.ok_rebuild {fbcap : Nat} {fb : FrameBuffer} {new : List Command} (h : fb.ok fbcap = true)
    (hnew : new.length ≤ fbcap) : (fb.rebuild new).ok fbcap = true := by
  simp only [FrameBuffer.ok, FrameBuffer.rebuild, Bool.and_eq_true, decide_eq_true_eq, List.length_append,
    List.length_drop] at h ⊢
  omega

/-- The causes are numbered 1 to 9 (R90). -/
theorem Cause.code_range (c : Cause) : 1 ≤ c.code.toNat ∧ c.code.toNat ≤ 9 := by cases c <;> decide

theorem FaultReg.ok_recorded (c : Cause) (a : BitVec 1) (r : Packet) : FaultReg.ok ⟨true, c.code, a, r⟩ = true := by
  simp [FaultReg.ok, c.code_range]

/-! ### The state -/

theorem SameBlock.inv {s t : State} (h : SameBlock s t) (hs : s.inv = true) : t.inv = true := by
  simp only [State.inv_iff, h.queue, h.cap, h.cfg, h.queues, h.bufs, h.fb, h.fault, h.dec] at hs ⊢
  exact hs

theorem State.buf_ok_of_inv {s : State} (h : s.inv = true) (b : Nat) : (s.buf b).ok s.cfg.bufcap = true := by
  obtain ⟨-, -, -, -, hbufs, -⟩ := State.inv_iff.1 h
  exact (forall_mem_iff_getD (P := fun B => Buffer.ok s.cfg.bufcap B = true) (Buffer.reset_ok _) _).1 hbufs b

theorem State.queue_ok_of_inv {s : State} {q : Nat} (h : s.inv = true) (hq : q < s.cfg.nq) :
    (s.queue q).ok (s.cap q) = true := by
  obtain ⟨-, -, hqueues, -⟩ := State.inv_iff.1 h
  exact hqueues q hq

@[simp] theorem State.cap_setQueue (s : State) (q : Nat) (Q : Queue) (n : Nat) : (s.setQueue q Q).cap n = s.cap n := rfl

/-- A queue in shape may take the place of another one. -/
theorem State.inv_setQueue {s : State} {q : Nat} {Q : Queue} (h : s.inv = true) (hq : q < s.cfg.nq)
    (hQ : Q.ok (s.cap q) = true) : (s.setQueue q Q).inv = true := by
  obtain ⟨hlegal, hlen, hqueues, hrest⟩ := State.inv_iff.1 h
  refine State.inv_iff.2 ⟨hlegal, ?_, fun n hn => ?_, hrest⟩
  · rw [State.setQueue_queues, writeAt_length _ _ _ _ (hlen ▸ hq), hlen, State.setQueue_cfg]
  · rw [State.queue_setQueue, State.cap_setQueue]
    split
    next heq => subst heq; exact hQ
    next => exact hqueues n hn

/-- A buffer in shape may take the place of another one. -/
theorem State.inv_setBuf {s : State} {b : Nat} {B : Buffer} (h : s.inv = true) (hb : b < s.cfg.nbuf)
    (hB : B.ok s.cfg.bufcap = true) : (s.setBuf b B).inv = true := by
  obtain ⟨hlegal, hlen, hqueues, hblen, hbufs, hrest⟩ := State.inv_iff.1 h
  have hlt : b < s.bufs.length := hblen ▸ hb
  refine State.inv_iff.2 ⟨hlegal, hlen, hqueues, ?_, fun B' hB' => ?_, hrest⟩
  · rw [State.setBuf_bufs, writeAt_length _ _ _ _ hlt, hblen, State.setBuf_cfg]
  · rcases mem_writeAt hlt hB' with rfl | hold
    · exact hB
    · exact hbufs B' hold

/-- The vector clocks are no part of the shape. -/
theorem State.inv_setVc {s : State} (a : Agent) (k : Clock) (h : s.inv = true) : (s.setVc a k).inv = true := by
  cases a <;> exact h

/-- A frame buffer in shape may take the place of another one, with no decode left under way. -/
theorem State.inv_setFb {s : State} {fb : FrameBuffer} (h : s.inv = true) (hfb : fb.ok s.cfg.fbcap = true) :
    ((s.setFb fb).setDec DecodeWork.idle).inv = true := by
  obtain ⟨hlegal, hlen, hqueues, hblen, hbufs, -, hfault, -⟩ := State.inv_iff.1 h
  exact State.inv_iff.2 ⟨hlegal, hlen, hqueues, hblen, hbufs, hfb, hfault, rfl⟩

/-- Fault entry records one of the causes. -/
theorem State.inv_takeFault {s : State} {c : Cause} {r : Packet} (h : s.inv = true) : (s.takeFault c r).inv = true := by
  obtain ⟨hlegal, hlen, hqueues, hblen, hbufs, hfb, -, hdec⟩ := State.inv_iff.1 h
  exact State.inv_iff.2 ⟨hlegal, hlen, hqueues, hblen, hbufs, hfb, FaultReg.ok_recorded _ _ _, hdec⟩

@[simp] theorem State.queue_ofConfig (c : Config) (q : Nat) : (State.ofConfig c).queue q = Queue.reset := by
  simp only [State.queue, State.ofConfig, List.getD_eq_getElem?_getD, List.getElem?_replicate]
  split <;> rfl

@[simp] theorem State.buf_ofConfig (c : Config) (b : Nat) : (State.ofConfig c).buf b = Buffer.reset := by
  simp only [State.buf, State.ofConfig, List.getD_eq_getElem?_getD, List.getElem?_replicate]
  split <;> rfl

/-- The block right after reset is in shape. -/
theorem State.inv_ofConfig {c : Config} (h : c.legal = true) : (State.ofConfig c).inv = true := by
  obtain ⟨-, -, hqueues, -⟩ := Config.legal_iff.1 h
  refine State.inv_iff.2 ⟨h, List.length_replicate, fun q hq => ?_, List.length_replicate, fun B hB => ?_, rfl, rfl, rfl⟩
  · rw [State.queue_ofConfig]
    exact Queue.reset_ok (QueueConfig.legal_iff.1 (hqueues q hq)).1
  · rw [List.eq_of_mem_replicate hB]
    exact Buffer.reset_ok _

/-- A host reset leaves the block of the reset state. -/
theorem SameBlock.hostReset (s : State) : SameBlock (State.ofConfig s.cfg) s.hostReset :=
  ⟨rfl, rfl, rfl, rfl, rfl, rfl, rfl, rfl⟩

/-- A completed request keeps the shape of the state. -/
theorem Completes.inv {s t : State} {i : Instr} (h : Completes s i t) (hs : s.inv = true) : t.inv = true := by
  have noted {b : Nat} (kind : AccessKind) : (s.noted b kind).ok s.cfg.bufcap = true :=
    Buffer.ok_noteAccess _ _ _ (State.buf_ok_of_inv hs b)
  cases h with
  | answers r _ => exact (SameBlock.respond s r).inv hs
  | enqueues hq _ hfull =>
    refine (SameBlock.respond _ _).inv (State.inv_setVc _ _ (State.inv_setQueue hs hq ?_))
    exact Queue.ok_enqueue (State.legalCap_of_inv hs hq) (State.queue_ok_of_inv hs hq) hfull
  | dequeues hq _ hempty =>
    refine (SameBlock.respond _ _).inv (State.inv_setQueue (State.inv_setVc _ _ hs) (by simpa using hq) ?_)
    rw [State.cap, State.setVc_cfg]
    exact Queue.ok_dequeue (State.legalCap_of_inv hs hq) (State.queue_ok_of_inv hs hq) hempty
  | changes r _ hb _ _ hB => exact (SameBlock.respond _ _).inv (State.inv_setBuf hs hb (hB.ok (noted _)))
  | decodes _ hb _ _ hloop =>
    refine (SameBlock.respond _ _).inv (State.inv_setFb (State.inv_setBuf hs hb (noted _)) ?_)
    obtain ⟨-, -, -, -, -, hfb, -⟩ := State.inv_iff.1 hs
    exact FrameBuffer.ok_rebuild hfb (decodeLoop_out_length_le hloop)

end Sys2Proof.Machine
end

section
/-! The clocks in order (`State.clocksOk`), said agent by agent, under each operation of the block. -/

namespace Sys2Proof.Machine

/-- VC[a][a], the epoch of an agent (R30, R45). -/
def State.epoch (s : State) (a : Agent) : Nat := (s.vc a).get a

/-- A clock that counts no event of an agent's present epoch. -/
def Clock.Behind (k : Clock) (now : Agent → Nat) : Prop := ∀ a, k.get a < now a

/-- The slot clocks of a queue are behind (R20). -/
def Queue.Behind (Q : Queue) (now : Agent → Nat) : Prop := ∀ e ∈ Q.slots, e.2.clk.Behind now

/-- The access record of a buffer is not beyond the agents' epochs, and only P has written (R31, R32). -/
def Buffer.NotBeyond (B : Buffer) (now : Agent → Nat) : Prop :=
  (∀ a t, B.lastWrite = some (a, t) → a = .producer ∧ t ≤ now .producer) ∧ ∀ a, B.lastRead.get a ≤ now a

theorem Agent.forall_iff {P : Agent → Prop} : (∀ a, P a) ↔ P .producer ∧ P .consumer :=
  ⟨fun h => ⟨h _, h _⟩, fun ⟨hp, hc⟩ a => match a with | .producer => hp | .consumer => hc⟩

theorem Queue.reset_behind (now : Agent → Nat) : Queue.reset.Behind now := fun e he => by simp [Queue.reset] at he

theorem Buffer.reset_notBeyond (now : Agent → Nat) : Buffer.reset.NotBeyond now :=
  ⟨fun a t h => by simp [Buffer.reset] at h, fun a => by simp [Buffer.reset]⟩

/-- The order of the clocks, agent by agent, queue by queue, buffer by buffer. -/
theorem State.clocksOk_iff {s : State} :
    s.clocksOk = true ↔
      (∀ a : Agent, (s.vc a.other).get a < s.epoch a) ∧ (∀ q, (s.queue q).Behind s.epoch) ∧
      ∀ b, (s.buf b).NotBeyond s.epoch := by
  have hqueues := forall_mem_iff_getD (P := fun Q => Queue.Behind Q s.epoch) (Queue.reset_behind _) s.queues
  have hbufs := forall_mem_iff_getD (P := fun B => Buffer.NotBeyond B s.epoch) (Buffer.reset_notBeyond _) s.bufs
  simp only [State.clocksOk, Bool.and_eq_true, List.all_eq_true, decide_eq_true_eq, and_assoc]
  rw [Agent.forall_iff, and_assoc]
  refine and_congr_right fun _ => and_congr_right fun _ => and_congr (Iff.trans ?_ hqueues) (Iff.trans ?_ hbufs)
  · refine forall₂_congr fun Q _ => forall₂_congr fun e _ => ?_
    exact (Agent.forall_iff (P := fun a => e.2.clk.get a < s.epoch a)).symm
  · refine forall₂_congr fun B _ => ?_
    refine and_congr ?_ (Agent.forall_iff (P := fun a => B.lastRead.get a ≤ s.epoch a)).symm
    cases B.lastWrite with
    | none => simp
    | some w =>
      obtain ⟨a, t⟩ := w
      simp [State.epoch, State.vc, Clock.get]

/-! ### Epochs -/

theorem State.epoch_setVc_self (s : State) (a : Agent) (k : Clock) : (s.setVc a k).epoch a = k.get a := by
  rw [State.epoch, State.vc_setVc]

theorem State.epoch_setVc_ne (s : State) {a b : Agent} (k : Clock) (h : b ≠ a) :
    (s.setVc a k).epoch b = s.epoch b := by
  rw [State.epoch, State.vc_setVc_ne _ _ h, State.epoch]

/-- Where VC[a][a] does not go back, no epoch does. -/
theorem State.epoch_le_setVc {s : State} {a : Agent} {k : Clock} (h : s.epoch a ≤ k.get a) (b : Agent) :
    s.epoch b ≤ (s.setVc a k).epoch b := by
  rcases Agent.eq_or_other a b with rfl | rfl
  · rwa [State.epoch_setVc_self]
  · rw [State.epoch_setVc_ne _ _ (Agent.other_ne a)]

theorem Queue.Behind.mono {Q : Queue} {now later : Agent → Nat} (h : Q.Behind now) (hle : ∀ a, now a ≤ later a) :
    Q.Behind later := fun e he a => Nat.lt_of_lt_of_le (h e he a) (hle a)

theorem Buffer.NotBeyond.mono {B : Buffer} {now later : Agent → Nat} (h : B.NotBeyond now)
    (hle : ∀ a, now a ≤ later a) : B.NotBeyond later := by
  obtain ⟨hlast, hread⟩ := h
  exact ⟨fun a t hw => (hlast a t hw).imp_right (·.trans (hle _)), fun a => (hread a).trans (hle a)⟩

/-! ### The operations -/

theorem SameBlock.clocksOk {s t : State} (h : SameBlock s t) (hs : s.clocksOk = true) : t.clocksOk = true := by
  simp only [State.clocksOk, h.vcP, h.vcC, h.queues, h.bufs] at hs ⊢
  exact hs

/-- An entry put into a queue brings its slot clock along (R67, R115). -/
theorem Queue.behind_enqueue {cap : Nat} {Q : Queue} {v : Word32} {k : Clock} {now : Agent → Nat} (h : Q.Behind now)
    (hk : k.Behind now) : (Q.enqueue cap v k).Behind now := by
  intro e he
  rcases Sparse.mem_put he with rfl | he
  · exact hk
  · exact h e he

/-- What a POP joins is a slot clock, or none (R68). -/
theorem Queue.front_behind {Q : Queue} {now : Agent → Nat} (h : Q.Behind now) (hpos : ∀ a, 0 < now a) :
    Q.front.clk.Behind now := by
  rw [Queue.front]
  cases hget : Sparse.get Q.slots Q.tail with
  | none => exact fun a => by simpa using hpos a
  | some slot => exact h _ (Sparse.mem_of_get hget)

theorem Buffer.noteAccess_notBeyond {B : Buffer} {a : Agent} {kind : AccessKind} {now : Agent → Nat}
    (h : B.NotBeyond now) (hwrite : kind = .write → a = .producer) : (B.noteAccess a (now a) kind).NotBeyond now := by
  obtain ⟨hlast, hread⟩ := h
  cases kind with
  | read =>
    refine ⟨hlast, fun b => ?_⟩
    rcases Agent.eq_or_other a b with rfl | rfl
    · simp [Buffer.noteAccess]
    · simpa [Buffer.noteAccess] using hread a.other
  | write =>
    obtain rfl := hwrite rfl
    refine ⟨fun b t hw => ?_, fun b => by simp [Buffer.noteAccess]⟩
    cases hw
    exact ⟨rfl, le_rfl⟩

/-- No encoder request changes the access record behind the check. -/
theorem BufferChange.notBeyond {bufcap : Nat} {B B' : Buffer} {i : Instr} {now : Agent → Nat}
    (h : BufferChange bufcap B i B') (hB : B.NotBeyond now) : B'.NotBeyond now := by
  cases h <;> exact hB

theorem State.epoch_pos {s : State} (h : s.clocksOk = true) (a : Agent) : 0 < s.epoch a := by
  obtain ⟨hvc, -⟩ := State.clocksOk_iff.1 h
  exact Nat.zero_lt_of_lt (hvc a)

theorem State.clocksOk_setQueue {s : State} {q : Nat} {Q : Queue} (h : s.clocksOk = true) (hQ : Q.Behind s.epoch) :
    (s.setQueue q Q).clocksOk = true := by
  obtain ⟨hvc, hqueues, hbufs⟩ := State.clocksOk_iff.1 h
  refine State.clocksOk_iff.2 ⟨hvc, fun n => ?_, hbufs⟩
  rw [State.queue_setQueue]
  split
  · exact hQ
  · exact hqueues n

theorem State.clocksOk_setBuf {s : State} {b : Nat} {B : Buffer} (h : s.clocksOk = true) (hB : B.NotBeyond s.epoch) :
    (s.setBuf b B).clocksOk = true := by
  obtain ⟨hvc, hqueues, hbufs⟩ := State.clocksOk_iff.1 h
  refine State.clocksOk_iff.2 ⟨hvc, hqueues, fun n => ?_⟩
  rw [State.buf_setBuf]
  split
  · exact hB
  · exact hbufs n

/-- An agent's clock may go on, as far as it does not pass what the other one has counted. -/
theorem State.clocksOk_setVc {s : State} {a : Agent} {k : Clock} (h : s.clocksOk = true) (hown : s.epoch a ≤ k.get a)
    (hother : k.get a.other < s.epoch a.other) : (s.setVc a k).clocksOk = true := by
  obtain ⟨hvc, hqueues, hbufs⟩ := State.clocksOk_iff.1 h
  have hle := State.epoch_le_setVc hown
  refine State.clocksOk_iff.2 ⟨fun b => ?_, fun q => ?_, fun b => ?_⟩
  · rcases Agent.eq_or_other a b with rfl | rfl
    · rw [State.vc_setVc_ne _ _ (Agent.other_ne b)]
      exact Nat.lt_of_lt_of_le (hvc b) (hle b)
    · rwa [Agent.other_other, State.vc_setVc, State.epoch_setVc_ne _ _ (Agent.other_ne a)]
  · rw [State.queue_setVc]
    exact (hqueues q).mono hle
  · rw [State.buf_setVc]
    exact (hbufs b).mono hle

/-- The two writes of a PUSH are of different parts of the state. -/
theorem State.setVc_setQueue (s : State) (a : Agent) (k : Clock) (q : Nat) (Q : Queue) :
    (s.setQueue q Q).setVc a k = (s.setVc a k).setQueue q Q := by cases a <;> rfl

/-- A PUSH counts the pusher's epoch on, and the clock it leaves in the slot is behind the new one (R45, R67). -/
theorem State.clocksOk_push {s : State} {q cap : Nat} {a : Agent} {v : Word32} (h : s.clocksOk = true) :
    ((s.setQueue q ((s.queue q).enqueue cap v (s.vc a))).setVc a
      ((s.vc a).set a ((s.vc a).get a + 1))).clocksOk = true := by
  obtain ⟨hvc, hqueues, -⟩ := State.clocksOk_iff.1 h
  have hother : (s.vc a).get a.other < s.epoch a.other := by simpa using hvc a.other
  have hown : s.epoch a ≤ ((s.vc a).set a ((s.vc a).get a + 1)).get a := by
    rw [Clock.get_set, State.epoch]; omega
  rw [State.setVc_setQueue]
  refine State.clocksOk_setQueue (State.clocksOk_setVc h hown (by rwa [Clock.get_set_other])) ?_
  refine Queue.behind_enqueue ((hqueues q).mono (State.epoch_le_setVc hown)) fun b => ?_
  rcases Agent.eq_or_other a b with rfl | rfl
  · rw [State.epoch_setVc_self, Clock.get_set]
    exact Nat.lt_succ_self _
  · rwa [State.epoch_setVc_ne _ _ (Agent.other_ne a)]

/-- A POP joins a slot clock, which is behind both epochs: the popper's own stays, and the other's is not passed
(R45, R68). -/
theorem State.clocksOk_pop {s : State} {q cap : Nat} {a : Agent} (h : s.clocksOk = true) :
    ((s.setVc a ((s.vc a).join (s.queue q).front.clk)).setQueue q ((s.queue q).dequeue cap)).clocksOk = true := by
  obtain ⟨hvc, hqueues, -⟩ := State.clocksOk_iff.1 h
  have hother : (s.vc a).get a.other < s.epoch a.other := by simpa using hvc a.other
  have hfront := Queue.front_behind (hqueues q) (State.epoch_pos h)
  have hown : s.epoch a ≤ ((s.vc a).join (s.queue q).front.clk).get a := by
    rw [Clock.get_join]; exact Nat.le_max_left _ _
  refine State.clocksOk_setQueue (State.clocksOk_setVc h hown ?_) ((hqueues q).mono (State.epoch_le_setVc hown))
  rw [Clock.get_join]
  exact Nat.max_lt.2 ⟨hother, hfront _⟩

/-- The clocks right after reset are in order (R113). -/
theorem State.clocksOk_ofConfig (c : Config) : (State.ofConfig c).clocksOk = true := by
  refine State.clocksOk_iff.2 ⟨fun a => ?_, fun q => ?_, fun b => ?_⟩
  · cases a <;> exact Nat.zero_lt_one
  · rw [State.queue_ofConfig]; exact Queue.reset_behind _
  · rw [State.buf_ofConfig]; exact Buffer.reset_notBeyond _

/-- A completed request keeps the clocks in order. -/
theorem Completes.clocksOk {s t : State} {i : Instr} (h : Completes s i t) (hs : s.clocksOk = true) :
    t.clocksOk = true := by
  obtain ⟨-, -, hbufs⟩ := State.clocksOk_iff.1 hs
  cases h with
  | answers r _ => exact (SameBlock.respond s r).clocksOk hs
  | enqueues => exact (SameBlock.respond _ _).clocksOk (State.clocksOk_push hs)
  | dequeues => exact (SameBlock.respond _ _).clocksOk (State.clocksOk_pop hs)
  | changes r _ _ hwrite _ hB =>
    exact (SameBlock.respond _ _).clocksOk
      (State.clocksOk_setBuf hs (hB.notBeyond (Buffer.noteAccess_notBeyond (hbufs _) hwrite)))
  | @decodes _ b =>
    have haccess : (s.accessed b .read).clocksOk = true :=
      State.clocksOk_setBuf hs (Buffer.noteAccess_notBeyond (hbufs b) (fun hk => by cases hk))
    exact (SameBlock.respond _ _).clocksOk haccess

end Sys2Proof.Machine
end

section
/-! The content of a buffer as a row of records (`Buffer.holds`), under each request and along rows of requests. -/

namespace Sys2Proof.Machine

theorem recordsSize_append (cmds : List Command) (c : Command) :
    recordsSize (cmds ++ [c]) = recordsSize cmds + commandSize c := by
  simp [recordsSize]

theorem recordsBytes_append (cmds : List Command) (c : Command) :
    recordsBytes (cmds ++ [c]) = recordsBytes cmds ++ encodeCommand c := by
  simp [recordsBytes]

theorem recordsBytes_length (cmds : List Command) : (recordsBytes cmds).length = recordsSize cmds := by
  simp [recordsBytes, recordsSize, List.length_flatMap]

/-- A buffer holds a row of records where its cursor is the row's size and each byte below it is the row's. -/
theorem Buffer.holds_iff {B : Buffer} {cmds : List Command} :
    B.holds cmds = true ↔
      B.cursor = recordsSize cmds ∧ ∀ k < recordsSize cmds, Memory.read B.bytes k = (recordsBytes cmds)[k]? := by
  rw [Buffer.holds, Bool.and_eq_true, decide_eq_true_eq, decide_eq_true_eq, Memory.readBytes_eq_some]
  refine and_congr_right fun hcursor => ?_
  simp [hcursor, recordsBytes_length]

theorem Buffer.holds_nil {B : Buffer} (h : B.cursor = 0) : B.holds [] = true :=
  Buffer.holds_iff.2 ⟨h, fun k hk => absurd hk (Nat.not_lt_zero k)⟩

/-- The access record is no part of the content. -/
theorem Buffer.holds_noteAccess {B : Buffer} (a : Agent) (t : Nat) (kind : AccessKind) {cmds : List Command}
    (h : B.holds cmds = true) : (B.noteAccess a t kind).holds cmds = true := by
  simpa only [Buffer.holds, Buffer.noteAccess_cursor, Buffer.noteAccess_bytes] using h

/-- A record written at the cursor is one more record of the row; those before it stay (R25, R73, R74). -/
theorem Buffer.holds_append {B : Buffer} {cmds : List Command} (c : Command) (h : B.holds cmds = true) :
    Buffer.holds { B with
      bytes := Memory.writeBytes B.bytes B.cursor (encodeCommand c)
      cursor := B.cursor + commandSize c } (cmds ++ [c]) = true := by
  obtain ⟨hcursor, hread⟩ := Buffer.holds_iff.1 h
  refine Buffer.holds_iff.2 ⟨by rw [recordsSize_append, hcursor], fun k hk => ?_⟩
  rw [recordsSize_append] at hk
  rw [Memory.read_writeBytes, recordsBytes_append, List.getElem?_append, recordsBytes_length, encodeCommand_length,
    hcursor]
  by_cases hold : k < recordsSize cmds
  · rw [if_neg (by omega), if_pos hold, hread k hold]
  · rw [if_pos (by omega), if_neg hold]

/-! ### What one request records -/

/-- A request that does not write buffer `b` records nothing in it. -/
theorem recordedBy_of_no_write {b : Nat} {cmds : List Command} {a : Agent} {i : Instr}
    (h : ∀ n, bufferAccess i = some (n, .write) → n ≠ b) : recordedBy b cmds [(a, i)] = cmds := by
  cases i with
  | encBegin u => simp [recordedBy, h u.toNat rfl]
  | pushClear u color => simp [recordedBy, h u.toNat rfl]
  | pushRect u layer color x y w h' => simp [recordedBy, h u.toNat rfl]
  | _ => rfl

/-- A record request on buffer `b` records its record behind the others. -/
theorem recordedBy_append {b : Nat} {cmds : List Command} {a : Agent} {i : Instr} {c : Command}
    (h : appendedRecord i = some (b, c)) : recordedBy b cmds [(a, i)] = cmds ++ [c] := by
  cases i <;> cases h <;> simp [recordedBy]

theorem bufferAccess_of_appendedRecord {b : Nat} {i : Instr} {c : Command} (h : appendedRecord i = some (b, c)) :
    bufferAccess i = some (b, .write) := by
  cases i <;> cases h <;> rfl

theorem bufferAccess_of_decodedInput {s : State} {b len : Nat} {i : Instr} (h : decodedInput s i = some (b, len)) :
    bufferAccess i = some (b, .read) := by
  cases i <;> cases h <;> rfl

/-- A record accesses no buffer. -/
theorem bufferAccess_of_record {i : Instr} (hi : i.isRequest = false) : bufferAccess i = none := by
  cases i <;> cases hi <;> rfl

/-- An encoder request leaves its buffer holding what it records there. -/
theorem BufferChange.holds {bufcap b : Nat} {kind : AccessKind} {B B' : Buffer} {a : Agent} {i : Instr}
    {cmds : List Command} (h : BufferChange bufcap B i B') (hi : bufferAccess i = some (b, kind))
    (hB : B.holds cmds = true) : B'.holds (recordedBy b cmds [(a, i)]) = true := by
  cases h with
  | begins =>
    cases hi
    simpa [recordedBy] using Buffer.holds_nil rfl
  | appends happ _ _ =>
    cases hi.symm.trans (bufferAccess_of_appendedRecord happ)
    rw [recordedBy_append happ]
    exact Buffer.holds_append _ hB
  | seals => exact hB
  | sizes => exact hB

/-- A completed request leaves every buffer holding what it records there. -/
theorem Completes.holds {s t : State} {a : Agent} {i : Instr} {b : Nat} {cmds : List Command} (h : Completes s i t)
    (hs : (s.buf b).holds cmds = true) : (t.buf b).holds (recordedBy b cmds [(a, i)]) = true := by
  cases h with
  | answers r hi =>
    rw [recordedBy_of_no_write (by simp [hi])]
    simpa using hs
  | enqueues => simpa [recordedBy] using hs
  | dequeues => simpa [recordedBy] using hs
  | changes r hi _ _ _ hB =>
    rw [State.buf_respond, State.buf_setBuf]
    split
    next heq =>
      subst heq
      exact hB.holds hi (Buffer.holds_noteAccess _ _ _ hs)
    next hne =>
      rw [recordedBy_of_no_write fun m hm => by cases hi.symm.trans hm; exact Ne.symm hne]
      exact hs
  | decodes hi =>
    rw [recordedBy_of_no_write (by simp [bufferAccess_of_decodedInput hi]), State.buf_respond, State.buf_setDec,
      State.buf_setFb, State.accessed, State.buf_setBuf]
    split
    next heq =>
      subst heq
      exact Buffer.holds_noteAccess _ _ _ hs
    next => exact hs

/-- An instruction without a fault leaves every buffer holding what it records there; a record as an instruction
touches no buffer (log 7). -/
theorem exec_holds {s t : State} {a : Agent} {i : Instr} {b : Nat} {cmds : List Command} (h : exec i s = .next t)
    (hv : t.fault.valid = false) (hs : (s.buf b).holds cmds = true) :
    (t.buf b).holds (recordedBy b cmds [(a, i)]) = true := by
  cases hi : i.isRequest with
  | true =>
    obtain ⟨-, hdone | ⟨c, rfl⟩⟩ := exec_request_cases hi h
    · exact hdone.holds hs
    · cases hv
  | false =>
    obtain ⟨d, hd⟩ := exec_record_next hi (s := s)
    cases hd.symm.trans h
    rw [recordedBy_of_no_write (by simp [bufferAccess_of_record hi])]
    exact hs

/-- A row of requests runs without a fault where its first request does and then the others. -/
theorem runRequests_cons_eq_some {a : Agent} {i : Instr} {rs : List (Agent × Instr)} {s t : State} :
    runRequests ((a, i) :: rs) s = some t ↔
      ∃ u, exec i (s.setIssuer a) = .next u ∧ u.fault.valid = false ∧ runRequests rs u = some t := by
  rw [runRequests]
  cases exec i (s.setIssuer a) with
  | next u => cases hv : u.fault.valid <;> simp [hv]
  | fault f => simp
  | refused r => simp

/-- Recording goes request by request. -/
theorem recordedBy_cons (b : Nat) (cmds : List Command) (r : Agent × Instr) (rs : List (Agent × Instr)) :
    recordedBy b cmds (r :: rs) = recordedBy b (recordedBy b cmds [r]) rs := rfl

/-- A run without a fault leaves every buffer holding what its requests record there. -/
theorem runRequests_holds {rs : List (Agent × Instr)} {s t : State} {b : Nat} {cmds : List Command}
    (hs : (s.buf b).holds cmds = true) (h : runRequests rs s = some t) :
    (t.buf b).holds (recordedBy b cmds rs) = true := by
  induction rs generalizing s cmds with
  | nil => cases h; exact hs
  | cons r rs ih =>
    obtain ⟨a, i⟩ := r
    obtain ⟨u, hu, hv, hrest⟩ := runRequests_cons_eq_some.1 h
    rw [recordedBy_cons]
    exact ih (exec_holds hu hv hs) hrest

/-! ### Every buffer -/

theorem SameBlock.recordsOk {s t : State} (h : SameBlock s t) (hs : s.recordsOk) : t.recordsOk := fun b => by
  rw [h.buf]; exact hs b

theorem Completes.recordsOk {s t : State} {i : Instr} (h : Completes s i t) (hs : s.recordsOk) : t.recordsOk :=
  fun b => by
    obtain ⟨cmds, hcmds⟩ := hs b
    exact ⟨_, h.holds (a := s.issuer) hcmds⟩

theorem State.holds_ofConfig (c : Config) (b : Nat) : ((State.ofConfig c).buf b).holds [] = true := by
  rw [State.buf_ofConfig]; exact Buffer.holds_nil rfl

theorem State.recordsOk_ofConfig (c : Config) : (State.ofConfig c).recordsOk := fun b => ⟨[], State.holds_ofConfig c b⟩

end Sys2Proof.Machine
end

section
/-! What a request writes, by the agent that issues it (R32). -/

namespace Sys2Proof.Machine

/-- An encoder request that only reads leaves the buffer as it is. -/
theorem BufferChange.eq_of_read {bufcap b : Nat} {B B' : Buffer} {i : Instr} (h : BufferChange bufcap B i B')
    (hi : bufferAccess i = some (b, .read)) : B' = B := by
  cases h with
  | begins => cases hi
  | appends happ _ _ => cases hi.symm.trans (bufferAccess_of_appendedRecord happ)
  | seals => cases hi
  | sizes => rfl

/-- Bytes, cursor and writable flag of the two buffers are the same. -/
def Buffer.SameContent (B B' : Buffer) : Prop :=
  B'.bytes = B.bytes ∧ B'.cursor = B.cursor ∧ B'.writable = B.writable

/-- Noting an access in a buffer changes the content of none. -/
theorem State.sameContent_accessed (s : State) (b n : Nat) (kind : AccessKind) :
    (s.buf n).SameContent ((s.accessed b kind).buf n) := by
  rw [State.accessed, State.buf_setBuf]
  split
  next heq => subst heq; exact Buffer.noteAccess_content _ _ _ _
  next => exact ⟨rfl, rfl, rfl⟩

/-- C's requests change no buffer's content. -/
theorem Completes.sameContent_of_consumer {s t : State} {i : Instr} (h : Completes s i t) (hc : s.issuer = .consumer)
    (n : Nat) : (s.buf n).SameContent (t.buf n) := by
  cases h with
  | answers => simp [Buffer.SameContent]
  | enqueues => simp [Buffer.SameContent]
  | dequeues => simp [Buffer.SameContent]
  | @changes _ b kind B r hi _ hwrite _ hB =>
    cases kind with
    | write => cases hc.symm.trans (hwrite rfl)
    | read =>
      rw [hB.eq_of_read hi, State.buf_respond]
      exact s.sameContent_accessed b n .read
  | @decodes _ b =>
    rw [State.buf_respond, State.buf_setDec, State.buf_setFb]
    exact s.sameContent_accessed b n .read

/-- P's requests do not change the frame buffer. -/
theorem Completes.fb_of_producer {s t : State} {i : Instr} (h : Completes s i t) (hp : s.issuer = .producer) :
    t.fb = s.fb := by
  cases h with
  | decodes _ _ hc => cases hp.symm.trans hc
  | _ => simp

/-- Only the pusher of a queue writes its head and its slots. -/
theorem Completes.head_slots_of_ne_pusher {s t : State} {i : Instr} (h : Completes s i t) {q : Nat}
    (hq : s.issuer ≠ (s.cfg.queue q).pusher) :
    (t.queue q).head = (s.queue q).head ∧ (t.queue q).slots = (s.queue q).slots := by
  cases h with
  | @enqueues n v _ hport _ =>
    have hne : q ≠ n.toNat := fun heq => hq (heq ▸ hport)
    simp [hne]
  | @dequeues n _ _ _ =>
    by_cases heq : q = n.toNat
    · subst heq; simp
    · simp [heq]
  | answers => simp
  | changes => simp
  | decodes => simp [State.accessed]

/-- Only the popper of a queue writes its tail. -/
theorem Completes.tail_of_ne_popper {s t : State} {i : Instr} (h : Completes s i t) {q : Nat}
    (hq : s.issuer ≠ (s.cfg.queue q).popper) : (t.queue q).tail = (s.queue q).tail := by
  cases h with
  | @enqueues n v _ _ _ =>
    by_cases heq : q = n.toNat
    · subst heq; simp
    · simp [heq]
  | @dequeues n _ hport _ =>
    have hne : q ≠ n.toNat := fun heq => hq (heq ▸ hport)
    simp [hne]
  | answers => simp
  | changes => simp
  | decodes => simp [State.accessed]

end Sys2Proof.Machine
end

section
/-! The obligations of 10_state.md, settled. -/

namespace Sys2Proof.Machine

/-- Settles O24: by induction on the row of requests, and by the reset values of R113. -/
theorem contentIsTheRecordsInCallOrder : Obligations.ContentIsTheRecordsInCallOrder :=
  ⟨fun _ _ _ _ _ => runRequests_holds, State.holds_ofConfig⟩

/-- Settles O46 by the rule for invariants of the block: every operation keeps the shape. -/
theorem everyStepKeepsTheStateInShape : Obligations.EveryStepKeepsTheStateInShape := by
  intro s t
  refine step_keeps (P := fun u => u.inv = true) SameBlock.inv (fun {u} hu => ?_) (fun {u q v} hq hfull hu => ?_)
    State.inv_takeFault Completes.inv
  · obtain ⟨hlegal, -⟩ := State.inv_iff.1 hu
    exact (SameBlock.hostReset u).inv (State.inv_ofConfig hlegal)
  · exact State.inv_setQueue hu hq
      (Queue.ok_enqueue (State.legalCap_of_inv hu hq) (State.queue_ok_of_inv hu hq) hfull)

/-- Settles O47 by the rule for invariants of the block: every operation keeps the clocks in order. -/
theorem everyStepKeepsTheClocksInOrder : Obligations.EveryStepKeepsTheClocksInOrder := by
  intro s t
  refine step_keeps (P := fun u => u.clocksOk = true) SameBlock.clocksOk
    (fun {u} _ => (SameBlock.hostReset u).clocksOk (State.clocksOk_ofConfig u.cfg)) (fun {u q v} _ _ hu => ?_)
    (fun hu => hu) Completes.clocksOk
  obtain ⟨-, hqueues, -⟩ := State.clocksOk_iff.1 hu
  exact State.clocksOk_setQueue hu
    (Queue.behind_enqueue (hqueues q) fun a => by simpa using State.epoch_pos hu a)

/-- Settles O48 by the rule for invariants of the block: a completed request leaves each buffer holding what it
records, and nothing else but a reset touches one. -/
theorem everyStepKeepsBuffersRowsOfRecords : Obligations.EveryStepKeepsBuffersRowsOfRecords := by
  intro s t
  exact step_keeps SameBlock.recordsOk
    (fun {u} _ => (SameBlock.hostReset u).recordsOk (State.recordsOk_ofConfig u.cfg)) (fun _ _ hu => hu)
    (fun hu => hu) Completes.recordsOk

/-- Settles O42: of what a step can do to the block, requests and fault entry need a released block without a fault, and
the rest but a reset leaves FAULT alone. -/
theorem onlyAResetClearsTheFault : Obligations.OnlyAResetClearsTheFault := by
  intro s t hstands hstep
  have hrun (hphase : s.phase = .released) (hv : s.fault.valid = false) : False := by
    rcases hstands with hfault | hheld
    · cases hv.symm.trans hfault
    · cases hphase.symm.trans hheld
  cases step_blockStep hstep with
  | same hst => exact .inl hst.fault
  | reset hhost => exact .inr ⟨_, hhost, rfl, rfl⟩
  | preload => exact .inl rfl
  | fault hphase hv => exact (hrun hphase hv).elim
  | request hphase hv => exact (hrun hphase hv).elim

/-- Settles O43: the rights of each way to complete; fault entry writes none of this. -/
theorem requestsWriteOnlyWhatTheirAgentMay : Obligations.RequestsWriteOnlyWhatTheirAgentMay := by
  intro i s t hi h
  obtain ⟨-, hdone | ⟨c, rfl⟩⟩ := exec_request_cases hi h
  · exact ⟨fun hc n => hdone.sameContent_of_consumer hc n, hdone.fb_of_producer,
      fun q hq => hdone.head_slots_of_ne_pusher hq, fun q hq => hdone.tail_of_ne_popper hq⟩
  · simp

end Sys2Proof.Machine
end

section
/-! A request issued again at once: its own access orders nothing before it, and noting it again changes nothing. -/

namespace Sys2Proof.Machine

/-- An agent's own access is no race for its next access of the same kind. -/
theorem Buffer.races_noteAccess {B : Buffer} {a : Agent} {n : Nat} {k : Clock} {kind : AccessKind}
    (h : B.races a k kind = false) : (B.noteAccess a n kind).races a k kind = false := by
  cases kind with
  | read => exact h
  | write => simp [Buffer.races, Buffer.noteAccess]

/-- Noting one access twice is noting it once. -/
theorem Buffer.noteAccess_noteAccess (B : Buffer) (a : Agent) (n : Nat) (kind : AccessKind) :
    (B.noteAccess a n kind).noteAccess a n kind = B.noteAccess a n kind := by
  cases kind with
  | read => cases a <;> rfl
  | write => rfl

theorem State.setBuf_respond (s : State) (b : Nat) (B : Buffer) (r : Response) :
    (s.respond r).setBuf b B = (s.setBuf b B).respond r := by
  cases hs : s.issuer <;> simp [State.respond, hs] <;> rfl

/-- Of two answers to one agent the second counts. -/
@[simp] theorem State.respond_respond (s : State) (r r' : Response) : (s.respond r).respond r' = s.respond r' := by
  cases hs : s.issuer <;> simp [State.respond, hs] <;> rfl

/-- Where noting the access again leaves the buffer that a request has left, the request again meets the same state. -/
theorem onBuffer_again {b : Nat} {wired : Bool} {kind : AccessKind} {s t : State} {B : Buffer} {r : Response}
    {k : State → Except Cause State} (ht : t = (s.setBuf b B).respond r) (hb : b < s.cfg.nbuf) (hport : wired = true)
    (hnote : B.noteAccess s.issuer ((s.vc s.issuer).get s.issuer) kind = B)
    (hrace : B.races s.issuer (s.vc s.issuer) kind = false) (hk : k t = .ok t) :
    onBuffer b wired kind t k = .ok t := by
  subst ht
  refine onBuffer_eq_ok.2 ⟨by simpa using hb, hport, by simpa using hrace, ?_⟩
  have hnoted : ((s.setBuf b B).respond r).noted b kind = B := by simpa [State.noted] using hnote
  rw [State.accessed_eq, hnoted, State.setBuf_respond, State.setBuf_setBuf]
  exact hk

/-- ENC_BEGIN again finds the window open at cursor 0, as it leaves it (R72). -/
theorem encBeginEffect_again {b : Nat} {s t : State} (h : encBeginEffect b s = .ok t) : encBeginEffect b t = .ok t := by
  obtain ⟨hb, hport, hrace, hok⟩ := onBuffer_eq_ok.1 h
  rw [State.buf_accessed_self, State.accessed_eq, State.setBuf_setBuf] at hok
  cases hok
  exact onBuffer_again rfl hb (by simpa [State.byProducer] using hport) rfl (Buffer.races_noteAccess hrace)
    (by simp [State.setBuf_respond])

/-- ENC_SEAL again finds the window closed, as it leaves it (R75). -/
theorem encSealEffect_again {b : Nat} {s t : State} (h : encSealEffect b s = .ok t) : encSealEffect b t = .ok t := by
  obtain ⟨hb, hport, hrace, hok⟩ := onBuffer_eq_ok.1 h
  rw [State.buf_accessed_self, State.accessed_eq, State.setBuf_setBuf] at hok
  cases hok
  exact onBuffer_again rfl hb (by simpa [State.byProducer] using hport) rfl (Buffer.races_noteAccess hrace)
    (by simp [State.setBuf_respond])

/-- ENC_SIZE again reads the same cursor (R76). -/
theorem encSizeEffect_again {b : Nat} {s t : State} (h : encSizeEffect b s = .ok t) : encSizeEffect b t = .ok t := by
  obtain ⟨hb, hport, hrace, hok⟩ := onBuffer_eq_ok.1 h
  rw [State.buf_accessed_self, State.accessed_eq] at hok
  cases hok
  exact onBuffer_again rfl hb hport (Buffer.noteAccess_noteAccess _ _ _ _) (Buffer.races_noteAccess hrace) (by simp)

/-- FB_READ again finds the same entry (R85). -/
theorem fbReadEffect_again {i : Nat} {s t : State} (h : fbReadEffect i s = .ok t) : fbReadEffect i t = .ok t := by
  obtain ⟨hport, hi, rfl⟩ := fbReadEffect_eq_ok.1 h
  exact fbReadEffect_eq_ok.2 ⟨by simpa using hport, by simpa using hi, by simp⟩

/-- A request that left no fault had its effect. -/
theorem requestEffect_of_exec {i : Instr} {s t : State} (hi : i.isRequest = true) (h : exec i s = .next t)
    (hv : t.fault.valid = false) : requestEffect i s = .ok t := by
  obtain ⟨-, hok | ⟨c, -, rfl⟩⟩ := exec_request_next hi h
  · exact hok
  · cases hv

end Sys2Proof.Machine
end

section
/-! A queue as its row of slots, oldest first: `Queue.contents` with the clock snapshots beside the values (R19,
R20). -/

namespace Sys2Proof.Machine

/-- What slot `i` reads as: what stands there, or what an unwritten slot shows (log 8). -/
def Queue.slot (Q : Queue) (i : Nat) : Slot := (Sparse.get Q.slots i).getD ⟨Config.unwrittenSlot i, Clock.zero⟩

/-- The slots that `contents(q)` names (R19). -/
def Queue.entries (cap : Nat) (Q : Queue) : List Slot :=
  (List.range (Q.count cap)).map fun i => Q.slot ((Q.tail + i) % cap)

/-- POP reads the slot at the tail (R68). -/
theorem Queue.front_eq_slot (Q : Queue) : Q.front = Q.slot Q.tail := rfl

@[simp] theorem Queue.entries_length (cap : Nat) (Q : Queue) : (Q.entries cap).length = (Q.contents cap).length := by
  simp [Queue.entries]

theorem Queue.slot_enqueue (cap : Nat) (Q : Queue) (v : Word32) (k : Clock) (i : Nat) :
    (Q.enqueue cap v k).slot i = if i = Q.head then ⟨v, k⟩ else Q.slot i := by
  rw [Queue.slot, Queue.enqueue_slots, Sparse.get_put]
  split <;> rfl

/-- The head stands as many slots behind the tail as there are entries, around the ring. -/
theorem Queue.add_mod_eq_head_iff {cap : Nat} {Q : Queue} (hh : Q.head < cap) (ht : Q.tail < cap) {i : Nat}
    (hi : i < cap) : (Q.tail + i) % cap = Q.head ↔ i = Q.count cap := by
  have hmod : (Q.tail + i) % cap = if Q.tail + i < cap then Q.tail + i else Q.tail + i - cap := by
    split
    · exact Nat.mod_eq_of_lt ‹_›
    · rw [Nat.mod_eq_sub_mod (by omega), Nat.mod_eq_of_lt (by omega)]
  rw [hmod, Queue.count_eq hh ht]
  split <;> split <;> omega

/-- Enqueueing puts the new slot behind the others. -/
theorem Queue.entries_enqueue {cap : Nat} {Q : Queue} {v : Word32} {k : Clock} (h : legalCap cap = true)
    (hh : Q.head < cap) (ht : Q.tail < cap) (hf : Q.full cap = false) :
    (Q.enqueue cap v k).entries cap = Q.entries cap ++ [⟨v, k⟩] := by
  have hcount : Q.count cap < cap := Nat.mod_lt _ (by omega)
  rw [Queue.entries, Queue.count_enqueue h hh ht hf, List.range_succ, List.map_append, List.map_singleton,
    Queue.enqueue_tail]
  congr 1
  · refine List.map_congr_left fun i hi => ?_
    have hlt := List.mem_range.1 hi
    rw [Queue.slot_enqueue, if_neg fun heq => Nat.ne_of_lt hlt ?_]
    exact (Queue.add_mod_eq_head_iff hh ht (by omega)).1 heq
  · rw [Queue.slot_enqueue, if_pos ((Queue.add_mod_eq_head_iff hh ht hcount).2 rfl)]

/-- Dequeueing takes the front slot away. -/
theorem Queue.entries_dequeue {cap : Nat} {Q : Queue} (h : legalCap cap = true) (hh : Q.head < cap)
    (ht : Q.tail < cap) (he : Q.empty = false) : Q.entries cap = Q.front :: (Q.dequeue cap).entries cap := by
  rw [Queue.entries, Queue.count_dequeue h hh ht he, List.range_succ_eq_map, List.map_cons, List.map_map,
    Nat.add_zero, Nat.mod_eq_of_lt ht, ← Queue.front_eq_slot, Queue.entries]
  congr 1
  refine List.map_congr_left fun i _ => ?_
  have hplace : (cursorNext cap Q.tail + i) % cap = (Q.tail + (i + 1)) % cap := by
    rw [cursorNext, and_mask h, Nat.mod_add_mod, Nat.add_right_comm, Nat.add_assoc]
  rw [Queue.dequeue_tail, hplace]
  rfl

/-- The row of slots of queue `q` in a state. -/
def State.entries (s : State) (q : Nat) : List Slot := (s.queue q).entries (s.cap q)

theorem State.entries_length (s : State) (q : Nat) : (s.entries q).length = (s.contents q).length :=
  Queue.entries_length _ _

/-- Queue `q` has a legal slot count and its cursors in range (R7, R17, R18). -/
structure State.Ring (s : State) (q : Nat) : Prop where
  legal : legalCap (s.cap q) = true
  head : (s.queue q).head < s.cap q
  tail : (s.queue q).tail < s.cap q

theorem State.ring_of_inv {s : State} {q : Nat} (h : s.inv = true) (hq : q < s.cfg.nq) : s.Ring q :=
  ⟨State.legalCap_of_inv h hq, (State.cursors_lt_of_inv h hq).1, (State.cursors_lt_of_inv h hq).2⟩

end Sys2Proof.Machine
end

section
/-! What an instruction without a fault does to the queues and the vector clocks: a PUSH releases, a POP acquires, and
nothing else touches them (R45). -/

namespace Sys2Proof.Machine

/-- No component of `k` is ahead of `l`. -/
def Clock.Le (k l : Clock) : Prop := ∀ a, k.get a ≤ l.get a

theorem Clock.Le.refl (k : Clock) : k.Le k := fun _ => le_rfl

theorem Clock.Le.trans {k l m : Clock} (h : k.Le l) (h' : l.Le m) : k.Le m := fun a => (h a).trans (h' a)

theorem Clock.le_join_left (k l : Clock) : k.Le (k.join l) := fun a => by simp

theorem Clock.le_join_right (k l : Clock) : l.Le (k.join l) := fun a => by simp

theorem Clock.le_set_succ (k : Clock) (a : Agent) : k.Le (k.set a (k.get a + 1)) := by
  intro b
  rcases Agent.eq_or_other a b with rfl | rfl <;> simp

/-- The issuer's value and clock put behind queue `q`, and the issuer's epoch counted on: the release of R45 (R67). -/
def State.pushOn (s : State) (q : Nat) (v : Word32) : State :=
  (s.setQueue q ((s.queue q).enqueue (s.cap q) v (s.vc s.issuer))).setVc s.issuer
    ((s.vc s.issuer).set s.issuer (s.epoch s.issuer + 1))

/-- The front of queue `q` taken away, and its clock joined into the issuer's: the acquire of R45 (R68). -/
def State.popOff (s : State) (q : Nat) : State :=
  (s.setVc s.issuer ((s.vc s.issuer).join (s.queue q).front.clk)).setQueue q ((s.queue q).dequeue (s.cap q))

@[simp] theorem State.cfg_pushOn (s : State) (q : Nat) (v : Word32) : (s.pushOn q v).cfg = s.cfg := by
  simp [State.pushOn]

@[simp] theorem State.cfg_popOff (s : State) (q : Nat) : (s.popOff q).cfg = s.cfg := by simp [State.popOff]

@[simp] theorem State.fault_pushOn (s : State) (q : Nat) (v : Word32) : (s.pushOn q v).fault = s.fault := by
  simp [State.pushOn]

@[simp] theorem State.fault_popOff (s : State) (q : Nat) : (s.popOff q).fault = s.fault := by simp [State.popOff]

@[simp] theorem State.issuer_popOff (s : State) (q : Nat) : (s.popOff q).issuer = s.issuer := by simp [State.popOff]

@[simp] theorem State.cap_respond (s : State) (r : Response) (q : Nat) : (s.respond r).cap q = s.cap q := by
  simp [State.cap]

@[simp] theorem State.cap_pushOn (s : State) (q : Nat) (v : Word32) (n : Nat) : (s.pushOn q v).cap n = s.cap n := by
  simp [State.cap]

@[simp] theorem State.cap_popOff (s : State) (q n : Nat) : (s.popOff q).cap n = s.cap n := by
  simp [State.cap]

@[simp] theorem State.queue_pushOn (s : State) (q : Nat) (v : Word32) (n : Nat) :
    (s.pushOn q v).queue n = if n = q then (s.queue q).enqueue (s.cap q) v (s.vc s.issuer) else s.queue n := by
  simp [State.pushOn]

@[simp] theorem State.queue_popOff (s : State) (q n : Nat) :
    (s.popOff q).queue n = if n = q then (s.queue q).dequeue (s.cap q) else s.queue n := by
  simp [State.popOff]

@[simp] theorem State.buf_pushOn (s : State) (q : Nat) (v : Word32) (b : Nat) : (s.pushOn q v).buf b = s.buf b := by
  simp [State.pushOn]

@[simp] theorem State.buf_popOff (s : State) (q b : Nat) : (s.popOff q).buf b = s.buf b := by simp [State.popOff]

theorem State.vc_pushOn_self {s : State} {q : Nat} {v : Word32} {a : Agent} (h : s.issuer = a) :
    (s.pushOn q v).vc a = (s.vc a).set a (s.epoch a + 1) := by
  subst h; simp [State.pushOn]

theorem State.vc_pushOn_other {s : State} {q : Nat} {v : Word32} {a : Agent} (h : s.issuer = a) :
    (s.pushOn q v).vc a.other = s.vc a.other := by
  subst h
  rw [State.pushOn, State.vc_setVc_ne _ _ (Agent.other_ne _), State.vc_setQueue]

theorem State.vc_popOff_self {s : State} {q : Nat} {a : Agent} (h : s.issuer = a) :
    (s.popOff q).vc a = (s.vc a).join (s.queue q).front.clk := by
  subst h; simp [State.popOff]

theorem State.vc_popOff_other {s : State} {q : Nat} {a : Agent} (h : s.issuer = a) :
    (s.popOff q).vc a.other = s.vc a.other := by
  subst h
  rw [State.popOff, State.vc_setQueue, State.vc_setVc_ne _ _ (Agent.other_ne _)]

theorem sameQueues_respond (s : State) (r : Response) : sameQueues s (s.respond r) := fun q => by simp

theorem sameClocks_respond (s : State) (r : Response) : sameClocks s (s.respond r) := fun a => by simp

/-- A PUSH on a queue that is not full, by its pusher. -/
theorem exec_push_of_not_full {s : State} {q : Byte} (v : Word32) (hv : s.fault.valid = false) (hq : q.toNat < s.cfg.nq)
    (hport : s.issuer = (s.cfg.queue q.toNat).pusher) (hfull : (s.queue q.toNat).full (s.cap q.toNat) = false) :
    exec (.push q v) s = .next ((s.pushOn q.toNat v).respond (pushResponse true)) :=
  exec_request_ok rfl hv (pushEffect_eq_ok.2 ⟨hq, hport, .inr ⟨hfull, rfl⟩⟩)

/-- A POP of a queue that is not empty, by its popper. -/
theorem exec_pop_of_not_empty {s : State} {q : Byte} (hv : s.fault.valid = false) (hq : q.toNat < s.cfg.nq)
    (hport : s.issuer = (s.cfg.queue q.toNat).popper) (hempty : (s.queue q.toNat).empty = false) :
    exec (.pop q) s = .next ((s.popOff q.toNat).respond (popResponse (s.queue q.toNat).front.val)) :=
  exec_request_ok rfl hv (popEffect_eq_ok.2 ⟨hq, hport, .inr ⟨hempty, rfl⟩⟩)

/-- How an instruction without a fault meets the queues and the vector clocks. -/
inductive OrderStep (s : State) : Instr → State → Prop where
  | pushes {u : Byte} {v : Word32} : u.toNat < s.cfg.nq → s.issuer = (s.cfg.queue u.toNat).pusher →
      (s.queue u.toNat).full (s.cap u.toNat) = false →
      OrderStep s (.push u v) ((s.pushOn u.toNat v).respond (pushResponse true))
  | pops {u : Byte} : u.toNat < s.cfg.nq → s.issuer = (s.cfg.queue u.toNat).popper →
      (s.queue u.toNat).empty = false →
      OrderStep s (.pop u) ((s.popOff u.toNat).respond (popResponse (s.queue u.toNat).front.val))
  | keeps {i : Instr} {t : State} : (∀ u v, i = .push u v → (s.queue u.toNat).full (s.cap u.toNat) = true) →
      (∀ u, i = .pop u → (s.queue u.toNat).empty = true) → sameQueues s t → sameClocks s t → OrderStep s i t

/-- A completed request that is no PUSH and no POP touches no queue and no vector clock. -/
theorem Completes.orderStep {s t : State} {i : Instr} (h : Completes s i t) (hpush : ∀ u v, i ≠ .push u v)
    (hpop : ∀ u, i ≠ .pop u) : OrderStep s i t := by
  have keep (hq : sameQueues s t) (ha : sameClocks s t) : OrderStep s i t :=
    .keeps (fun u v hi => absurd hi (hpush u v)) (fun u hi => absurd hi (hpop u)) hq ha
  cases h with
  | enqueues => exact absurd rfl (hpush _ _)
  | dequeues => exact absurd rfl (hpop _)
  | answers r _ => exact keep (sameQueues_respond s r) (sameClocks_respond s r)
  | changes => exact keep (fun q => by simp) (fun a => by simp)
  | decodes => exact keep (fun q => by simp [State.accessed]) (fun a => by simp [State.accessed])

/-- Every instruction without a fault is such a step. -/
theorem exec_orderStep {i : Instr} {s t : State} (h : exec i s = .next t) (hv : t.fault.valid = false) :
    OrderStep s i t := by
  cases hi : i.isRequest with
  | false =>
    obtain ⟨d, hd⟩ := exec_record_next hi (s := s)
    cases hd.symm.trans h
    exact .keeps (by rintro u v rfl; cases hi) (by rintro u rfl; cases hi) (fun q => by simp) (fun a => by simp)
  | true =>
    have heff := requestEffect_of_exec hi h hv
    cases i with
    | push u v =>
      obtain ⟨hq, hport, ⟨hfull, rfl⟩ | ⟨hfull, rfl⟩⟩ := pushEffect_eq_ok.1 heff
      · exact .keeps (by rintro _ _ ⟨⟩; exact hfull) (by rintro _ ⟨⟩) (sameQueues_respond s _) (sameClocks_respond s _)
      · exact .pushes hq hport hfull
    | pop u =>
      obtain ⟨hq, hport, ⟨hempty, rfl⟩ | ⟨hempty, rfl⟩⟩ := popEffect_eq_ok.1 heff
      · exact .keeps (by rintro _ _ ⟨⟩) (by rintro _ ⟨⟩; exact hempty) (sameQueues_respond s _) (sameClocks_respond s _)
      · exact .pops hq hport hempty
    | _ => exact (completes_of_requestEffect hi heff).orderStep (by rintro _ _ ⟨⟩) (by rintro _ ⟨⟩)

/-- A PUSH that finds room releases. -/
theorem OrderStep.of_push {s t : State} {u : Byte} {v : Word32} (h : OrderStep s (.push u v) t)
    (hfull : (s.queue u.toNat).full (s.cap u.toNat) = false) :
    u.toNat < s.cfg.nq ∧ s.issuer = (s.cfg.queue u.toNat).pusher ∧
      t = (s.pushOn u.toNat v).respond (pushResponse true) := by
  cases h with
  | pushes hq hport _ => exact ⟨hq, hport, rfl⟩
  | keeps hfull' => cases hfull.symm.trans (hfull' u v rfl)

/-- A POP that finds an entry acquires. -/
theorem OrderStep.of_pop {s t : State} {u : Byte} (h : OrderStep s (.pop u) t)
    (hempty : (s.queue u.toNat).empty = false) :
    u.toNat < s.cfg.nq ∧ s.issuer = (s.cfg.queue u.toNat).popper ∧
      t = (s.popOff u.toNat).respond (popResponse (s.queue u.toNat).front.val) := by
  cases h with
  | pops hq hport _ => exact ⟨hq, hport, rfl⟩
  | keeps _ hempty' => cases hempty.symm.trans (hempty' u rfl)

/-- Every other instruction leaves queues and clocks alone. -/
theorem OrderStep.same {s t : State} {i : Instr} (h : OrderStep s i t)
    (hpush : ∀ u v, i = .push u v → (s.queue u.toNat).full (s.cap u.toNat) = true)
    (hpop : ∀ u, i = .pop u → (s.queue u.toNat).empty = true) : sameQueues s t ∧ sameClocks s t := by
  cases h with
  | pushes _ _ hfull => cases hfull.symm.trans (hpush _ _ rfl)
  | pops _ _ hempty => cases hempty.symm.trans (hpop _ rfl)
  | keeps _ _ hqueues hvc => exact ⟨hqueues, hvc⟩

/-- The other agent's clock stays as it is. -/
theorem OrderStep.vc_other {s t : State} {i : Instr} {a : Agent} (h : OrderStep s i t) (ha : s.issuer = a) :
    t.vc a.other = s.vc a.other := by
  cases h with
  | pushes => rw [State.vc_respond, State.vc_pushOn_other ha]
  | pops => rw [State.vc_respond, State.vc_popOff_other ha]
  | keeps _ _ _ hvc => exact hvc _

/-- No clock goes back. -/
theorem OrderStep.vc_le {s t : State} {i : Instr} (h : OrderStep s i t) (a : Agent) : (s.vc a).Le (t.vc a) := by
  by_cases ha : a = s.issuer
  · cases h with
    | pushes =>
      rw [State.vc_respond, State.vc_pushOn_self ha.symm]
      exact Clock.le_set_succ _ _
    | pops =>
      rw [State.vc_respond, State.vc_popOff_self ha.symm]
      exact Clock.le_join_left _ _
    | keeps _ _ _ hvc => rw [hvc a]; exact Clock.Le.refl _
  · obtain rfl := (Agent.eq_or_other s.issuer a).resolve_left ha
    rw [h.vc_other rfl]
    exact Clock.Le.refl _

/-! ### The rings -/

/-- Slot count and contents of a queue are kept where the queue and its slot count are. -/
theorem State.Ring.congr {s t : State} {q : Nat} (h : s.Ring q) (hcap : t.cap q = s.cap q)
    (hq : t.queue q = s.queue q) : t.Ring q :=
  ⟨by rw [hcap]; exact h.legal, by rw [hcap, hq]; exact h.head, by rw [hcap, hq]; exact h.tail⟩

theorem State.entries_congr {s t : State} {q : Nat} (hcap : t.cap q = s.cap q) (hq : t.queue q = s.queue q) :
    t.entries q = s.entries q := by
  rw [State.entries, hcap, hq, State.entries]

theorem State.Ring.respond {s : State} {q : Nat} (h : s.Ring q) (r : Response) : (s.respond r).Ring q :=
  h.congr (State.cap_respond _ _ _) (State.queue_respond _ _ _)

theorem State.Ring.setIssuer {s : State} {q : Nat} (h : s.Ring q) (a : Agent) : (s.setIssuer a).Ring q :=
  h.congr rfl rfl

@[simp] theorem State.entries_respond (s : State) (r : Response) (q : Nat) : (s.respond r).entries q = s.entries q :=
  State.entries_congr (State.cap_respond _ _ _) (State.queue_respond _ _ _)

@[simp] theorem State.entries_setIssuer (s : State) (a : Agent) (q : Nat) : (s.setIssuer a).entries q = s.entries q :=
  rfl

theorem State.Ring.pushOn {s : State} {n : Nat} (h : s.Ring n) (q : Nat) (v : Word32) : (s.pushOn q v).Ring n := by
  by_cases heq : n = q
  · subst heq
    exact ⟨by simpa using h.legal, by simpa using cursorNext_lt h.legal _, by simpa using h.tail⟩
  · exact h.congr (by simp) (by simp [heq])

theorem State.Ring.popOff {s : State} {n : Nat} (h : s.Ring n) (q : Nat) : (s.popOff q).Ring n := by
  by_cases heq : n = q
  · subst heq
    exact ⟨by simpa using h.legal, by simpa using h.head, by simpa using cursorNext_lt h.legal _⟩
  · exact h.congr (by simp) (by simp [heq])

/-- A PUSH puts its value with the issuer's clock behind the row. -/
theorem State.entries_pushOn {s : State} {q : Nat} {v : Word32} (h : s.Ring q)
    (hfull : (s.queue q).full (s.cap q) = false) :
    (s.pushOn q v).entries q = s.entries q ++ [⟨v, s.vc s.issuer⟩] := by
  rw [State.entries, State.cap_pushOn, State.queue_pushOn, if_pos rfl,
    Queue.entries_enqueue h.legal h.head h.tail hfull, State.entries]

/-- A POP takes the front of the row. -/
theorem State.entries_popOff {s : State} {q : Nat} (h : s.Ring q) (hempty : (s.queue q).empty = false) :
    s.entries q = (s.queue q).front :: (s.popOff q).entries q := by
  rw [State.entries, Queue.entries_dequeue h.legal h.head h.tail hempty, State.entries, State.cap_popOff,
    State.queue_popOff, if_pos rfl]

theorem State.entries_pushOn_ne {s : State} {q n : Nat} {v : Word32} (h : n ≠ q) :
    (s.pushOn q v).entries n = s.entries n := State.entries_congr (by simp) (by simp [h])

theorem State.entries_popOff_ne {s : State} {q n : Nat} (h : n ≠ q) : (s.popOff q).entries n = s.entries n :=
  State.entries_congr (by simp) (by simp [h])

/-- A queue with an entry in its row is not empty. -/
theorem State.Ring.empty_eq_false {s : State} {q : Nat} (h : s.Ring q) (hne : s.entries q ≠ []) :
    (s.queue q).empty = false := by
  refine Bool.eq_false_iff.2 fun hempty => hne (List.length_eq_zero_iff.1 ?_)
  rw [State.entries_length, State.contents, Queue.contents_length]
  exact (Queue.empty_iff h.head h.tail).1 hempty

/-- A queue with less than N - 1 entries is not full (R9, R19). -/
theorem State.Ring.full_eq_false {s : State} {q : Nat} (h : s.Ring q) (hlt : (s.contents q).length < s.cap q - 1) :
    (s.queue q).full (s.cap q) = false := by
  refine Bool.eq_false_iff.2 fun hfull => Nat.ne_of_lt hlt ?_
  rw [State.contents, Queue.contents_length]
  exact (Queue.full_iff h.legal h.head h.tail).1 hfull

end Sys2Proof.Machine
end

section
/-! The hand-off of a buffer through a queue: a pushed entry reaches its popper behind those before it, with the clock
of its pusher (R45, R47). -/

namespace Sys2Proof.Machine

/-- Agent `x` may pop queue `q`, which is a ring in range, of a block without a fault. -/
structure State.MayPop (s : State) (q : Nat) (x : Agent) : Prop where
  fault : s.fault.valid = false
  inRange : q < s.cfg.nq
  popper : (s.cfg.queue q).popper = x
  ring : s.Ring q

/-- The popper takes the front of the row, answers with its value, and knows what the front's pusher knew; no buffer
changes, and it may pop on. -/
theorem exec_pop_front {s : State} {q : Byte} {x : Agent} {slot : Slot} {rest : List Slot} (h : s.MayPop q.toNat x)
    (hx : s.issuer = x) (hent : s.entries q.toNat = slot :: rest) :
    ∃ t, exec (.pop q) s = .next t ∧ t.MayPop q.toNat x ∧ t.entries q.toNat = rest ∧ slot.clk.Le (t.vc x) ∧
      sameBufs s t ∧ (t.agent x).resp = some (popResponse slot.val).word := by
  have hempty : (s.queue q.toNat).empty = false := h.ring.empty_eq_false (hent ▸ List.cons_ne_nil _ _)
  obtain ⟨rfl, rfl⟩ := List.cons_eq_cons.1 (hent.symm.trans (State.entries_popOff h.ring hempty))
  refine ⟨_, exec_pop_of_not_empty h.fault h.inRange (hx.trans h.popper.symm) hempty, ⟨?_, ?_, ?_, ?_⟩, ?_, ?_, ?_, ?_⟩
  · simpa using h.fault
  · simpa using h.inRange
  · simpa using h.popper
  · exact (h.ring.popOff q.toNat).respond _
  · exact State.entries_respond _ _ _
  · rw [State.vc_respond, State.vc_popOff_self hx]
    exact Clock.le_join_right _ _
  · exact fun b => by simp
  · exact State.resp_respond _ (by simpa using hx)

/-- Popped once more than there are entries ahead of it, an entry is answered and its pusher's knowledge acquired. -/
theorem runRequests_pop_behind {q : Byte} {x : Agent} {slot : Slot} (ahead : List Slot) {s : State}
    (h : s.MayPop q.toNat x) (hent : s.entries q.toNat = ahead ++ [slot]) :
    ∃ t, runRequests (List.replicate (ahead.length + 1) (x, .pop q)) s = some t ∧ slot.clk.Le (t.vc x) ∧
      sameBufs s t ∧ (t.agent x).resp = some (popResponse slot.val).word := by
  have hissue : (s.setIssuer x).MayPop q.toNat x := ⟨h.fault, h.inRange, h.popper, h.ring.setIssuer x⟩
  induction ahead generalizing s with
  | nil =>
    obtain ⟨t, hexec, ht, -, hclk, hbufs, hresp⟩ := exec_pop_front hissue rfl hent
    exact ⟨t, runRequests_cons_eq_some.2 ⟨t, hexec, ht.fault, rfl⟩, hclk, hbufs, hresp⟩
  | cons first ahead ih =>
    obtain ⟨t, hexec, ht, hrest, -, hbufs, -⟩ := exec_pop_front hissue rfl hent
    obtain ⟨u, hrun, hclk, hbufs', hresp⟩ := ih ht hrest ⟨ht.fault, ht.inRange, ht.popper, ht.ring.setIssuer x⟩
    exact ⟨u, runRequests_cons_eq_some.2 ⟨t, hexec, ht.fault, hrun⟩, hclk, fun b => (hbufs' b).trans (hbufs b), hresp⟩

/-- A PUSH on a queue that is not full, popped behind the entries ahead of it: the popper knows what the pusher knew,
and no buffer has changed. -/
theorem runRequests_push_pops {s : State} {q : Byte} (v : Word32) {a x : Agent} (hv : s.fault.valid = false)
    (hq : q.toNat < s.cfg.nq) (hpusher : (s.cfg.queue q.toNat).pusher = a) (hpopper : (s.cfg.queue q.toNat).popper = x)
    (hring : s.Ring q.toNat) (hfull : (s.queue q.toNat).full (s.cap q.toNat) = false) :
    ∃ t, runRequests ((a, .push q v) :: List.replicate ((s.contents q.toNat).length + 1) (x, .pop q)) s = some t ∧
      (s.vc a).Le (t.vc x) ∧ sameBufs s t ∧ (t.agent x).resp = some (popResponse v).word := by
  have hring' : (s.setIssuer a).Ring q.toNat := hring.setIssuer a
  have hexec := exec_push_of_not_full (s := s.setIssuer a) v hv hq hpusher.symm hfull
  generalize ht : ((s.setIssuer a).pushOn q.toNat v).respond (pushResponse true) = t at hexec
  have hmay : t.MayPop q.toNat x := by
    subst ht
    exact ⟨by simpa using hv, by simpa using hq, by simpa using hpopper,
      (hring'.pushOn q.toNat v).respond _⟩
  have hent : t.entries q.toNat = s.entries q.toNat ++ [⟨v, s.vc a⟩] := by
    subst ht
    rw [State.entries_respond, State.entries_pushOn hring' hfull, State.entries_setIssuer, State.vc_setIssuer]
    rfl
  have hbufs : sameBufs s t := fun b => by subst ht; simp
  obtain ⟨u, hrun, hclk, hbufs', hresp⟩ := runRequests_pop_behind (s.entries q.toNat) hmay hent
  rw [State.entries_length] at hrun
  exact ⟨u, runRequests_cons_eq_some.2 ⟨t, hexec, hmay.fault, hrun⟩, hclk, fun b => (hbufs' b).trans (hbufs b), hresp⟩

/-- An agent that knows all of the other's epochs meets no race with it (R46). -/
theorem not_conflicts_of_notBeyond {t : State} {a : Agent} {b : Nat} {now : Agent → Nat} (h : (t.buf b).NotBeyond now)
    (hknown : now a ≤ (t.vc a.other).get a) (kind : AccessKind) : ¬ conflicts t a.other b kind := by
  obtain ⟨hlast, hread⟩ := h
  rw [conflicts, Agent.other_other]
  rintro (⟨n, hw, hlt⟩ | ⟨-, hlt⟩)
  · obtain ⟨rfl, hn⟩ := hlast a n hw
    omega
  · have := hread a
    omega

end Sys2Proof.Machine
end

section
/-! Faults of a request, and what a POP leaves alone: it brings its popper knowledge, and the pusher none (R44). -/

namespace Sys2Proof.Machine

/-- A request whose effect is a cause takes the fault entry of R102. -/
theorem faultsWith_of_error {i : Instr} {s : State} {c : Cause} (hi : i.isRequest = true) (hv : s.fault.valid = false)
    (h : requestEffect i s = .error c) : faultsWith i s c.code := by
  rw [faultsWith, exec_request_error hi hv h]
  cases hs : s.issuer <;> simp [State.takeFault, State.setFault, hs, Agent.ident]

/-- An access that conflicts faults with DATA_RACE where its buffer and its port are right (R94). -/
theorem onBuffer_race {b : Nat} {wired : Bool} {kind : AccessKind} {s : State} {k : State → Except Cause State}
    (hb : b < s.cfg.nbuf) (hport : wired = true) (h : conflicts s s.issuer b kind) :
    onBuffer b wired kind s k = .error .dataRace :=
  onBuffer_eq_error.2 (.inr (.inr (.inl ⟨hb, hport, conflicts_iff.1 h, rfl⟩)))

/-- ENC_SIZE by an agent is a read of the buffer in the agent's present epoch, and no clock changes (R46, R76). -/
theorem exec_encSize_read {s t : State} {b : Byte} (h : exec (.encSize b) s = .next t) (hv : t.fault.valid = false) :
    (t.buf b.toNat).lastRead.get s.issuer = s.epoch s.issuer ∧ sameClocks s t := by
  have heff : encSizeEffect b.toNat s = .ok t := requestEffect_of_exec rfl h hv
  obtain ⟨-, -, -, hok⟩ := onBuffer_eq_ok.1 heff
  cases hok
  refine ⟨?_, fun a => by simp [State.accessed_eq]⟩
  rw [State.buf_respond, State.buf_accessed_self, State.noted, Buffer.noteAccess, Clock.get_set, State.epoch]

/-- A POP changes no buffer. -/
theorem exec_pop_sameBufs {s t : State} {q : Byte} (h : exec (.pop q) s = .next t) (hv : t.fault.valid = false) :
    sameBufs s t := by
  obtain ⟨-, -, ⟨-, rfl⟩ | ⟨-, rfl⟩⟩ := popEffect_eq_ok.1 (requestEffect_of_exec rfl h hv) <;> exact fun n => by simp

end Sys2Proof.Machine
end

section
/-! Runs as rows of events: the state at each place, and the way of every entry through its queue. -/

namespace Sys2Proof.Machine

/-- What stands at a place of a filtered row stands in the row, behind as many others that the filter keeps. -/
theorem getElem?_filterMap_eq_some_iff {α β : Type} {f : α → Option β} {l : List α} {n : Nat} {x : β} :
    (l.filterMap f)[n]? = some x ↔
      ∃ i a, l[i]? = some a ∧ f a = some x ∧ ((l.take i).filterMap f).length = n := by
  induction l generalizing n with
  | nil => simp
  | cons y l ih =>
    rw [← Nat.or_exists_add_one]
    cases hy : f y with
    | none => simp [hy, ih]
    | some z =>
      cases n with
      | zero => simp [hy]
      | succ n => simp [hy, ih]

/-! ### One event -/

/-- The event is its agent's, and it met the queues and the clocks as an instruction without a fault does. -/
structure Event.Performed (e : Event) : Prop where
  issuer : e.before.issuer = e.agent
  order : OrderStep e.before e.instr e.after
  cfg : e.after.cfg = e.before.cfg

/-- The slot an event puts into `q`: the value of a successful PUSH with its agent's clock (R67). -/
def Event.slotPushed (q : Nat) (e : Event) : Option Slot := (e.pushed q).map fun v => ⟨v, e.before.vc e.agent⟩

/-- The slot an event takes out of `q`: what a successful POP finds at the front (R68). -/
def Event.slotPopped (q : Nat) (e : Event) : Option Slot := (e.popped q).map fun _ => (e.before.queue q).front

/-- A successful PUSH. -/
theorem Event.pushed_eq_some {q : Nat} {e : Event} {v : Word32} :
    e.pushed q = some v ↔
      ∃ u, e.instr = .push u v ∧ u.toNat = q ∧ (e.before.queue q).full (e.before.cap q) = false := by
  unfold Event.pushed
  split
  next u w hi =>
    simp only [hi, Option.ite_none_right_eq_some, Option.some.injEq, Instr.push.injEq]
    constructor
    · rintro ⟨⟨hu, hfull⟩, rfl⟩; exact ⟨u, ⟨rfl, rfl⟩, hu, hfull⟩
    · rintro ⟨_, ⟨rfl, rfl⟩, hu, hfull⟩; exact ⟨⟨hu, hfull⟩, rfl⟩
  next hi =>
    simp only [reduceCtorEq, false_iff]
    rintro ⟨u, hpush, -⟩
    exact hi u v hpush

/-- A successful POP. -/
theorem Event.slotPopped_eq_some {q : Nat} {e : Event} {slot : Slot} :
    e.slotPopped q = some slot ↔
      ∃ u, e.instr = .pop u ∧ u.toNat = q ∧ (e.before.queue q).empty = false ∧ (e.before.queue q).front = slot := by
  unfold Event.slotPopped Event.popped
  split
  next u hi =>
    simp only [hi, Option.map_eq_some_iff, Option.ite_none_right_eq_some, Option.some.injEq, Instr.pop.injEq]
    constructor
    · rintro ⟨_, ⟨⟨hu, hempty⟩, rfl⟩, hslot⟩; exact ⟨u, rfl, hu, hempty, hslot⟩
    · rintro ⟨_, rfl, hu, hempty, hslot⟩; exact ⟨_, ⟨⟨hu, hempty⟩, rfl⟩, hslot⟩
  next hi =>
    simp only [Option.map_none, reduceCtorEq, false_iff]
    rintro ⟨u, hpop, -⟩
    exact hi u hpop

theorem Event.slotPushed_eq_some {q : Nat} {e : Event} {slot : Slot} :
    e.slotPushed q = some slot ↔ e.pushed q = some slot.val ∧ slot.clk = e.before.vc e.agent := by
  simp only [Event.slotPushed, Option.map_eq_some_iff]
  constructor
  · rintro ⟨v, hv, rfl⟩; exact ⟨hv, rfl⟩
  · rintro ⟨hv, hclk⟩; exact ⟨_, hv, hclk ▸ rfl⟩

/-- As many slots are pushed and popped as values. -/
theorem length_filterMap_slotPushed (q : Nat) (es : List Event) :
    (es.filterMap (Event.slotPushed q)).length = (es.filterMap (Event.pushed q)).length := by
  simp [List.length_filterMap_eq_countP, Event.slotPushed]

theorem length_filterMap_slotPopped (q : Nat) (es : List Event) :
    (es.filterMap (Event.slotPopped q)).length = (es.filterMap (Event.popped q)).length := by
  simp [List.length_filterMap_eq_countP, Event.slotPopped]

/-- A successful PUSH is by the queue's pusher, who releases (R45, R67). -/
theorem Event.Performed.of_pushed {e : Event} {q : Nat} {v : Word32} (h : e.Performed) (hpush : e.pushed q = some v) :
    q < e.before.cfg.nq ∧ e.agent = (e.before.cfg.queue q).pusher ∧
      (e.before.queue q).full (e.before.cap q) = false ∧
      e.after = (e.before.pushOn q v).respond (pushResponse true) := by
  obtain ⟨u, hi, rfl, hfull⟩ := Event.pushed_eq_some.1 hpush
  have horder := h.order
  rw [hi] at horder
  obtain ⟨hq, hport, hafter⟩ := horder.of_push hfull
  exact ⟨hq, h.issuer.symm.trans hport, hfull, hafter⟩

/-- A successful POP is by the queue's popper, who acquires (R45, R68). -/
theorem Event.Performed.of_slotPopped {e : Event} {q : Nat} {slot : Slot} (h : e.Performed)
    (hpop : e.slotPopped q = some slot) :
    q < e.before.cfg.nq ∧ e.agent = (e.before.cfg.queue q).popper ∧ (e.before.queue q).empty = false ∧
      (e.before.queue q).front = slot ∧ e.after = (e.before.popOff q).respond (popResponse slot.val) := by
  obtain ⟨u, hi, rfl, hempty, rfl⟩ := Event.slotPopped_eq_some.1 hpop
  have horder := h.order
  rw [hi] at horder
  obtain ⟨hq, hport, hafter⟩ := horder.of_pop hempty
  exact ⟨hq, h.issuer.symm.trans hport, hempty, rfl, hafter⟩

/-- Every other event leaves the queues and the clocks alone. -/
theorem Event.Performed.same {e : Event} (h : e.Performed) (hpush : ∀ q, e.pushed q = none)
    (hpop : ∀ q, e.slotPopped q = none) : sameQueues e.before e.after ∧ sameClocks e.before e.after := by
  refine h.order.same (fun u v hi => ?_) fun u hi => ?_
  · refine Bool.eq_true_of_not_eq_false fun hfull => ?_
    cases (hpush u.toNat).symm.trans (Event.pushed_eq_some.2 ⟨u, hi, rfl, hfull⟩)
  · refine Bool.eq_true_of_not_eq_false fun hempty => ?_
    cases (hpop u.toNat).symm.trans (Event.slotPopped_eq_some.2 ⟨u, hi, rfl, hempty, rfl⟩)

/-- An event pushes on a queue, pops from a queue, or does neither. -/
theorem Event.pushes_or_pops_or_neither (e : Event) :
    (∃ q v, e.pushed q = some v) ∨ (∃ q slot, e.slotPopped q = some slot) ∨
      ((∀ q, e.pushed q = none) ∧ ∀ q, e.slotPopped q = none) := by
  by_cases hpush : ∃ q v, e.pushed q = some v
  · exact .inl hpush
  by_cases hpop : ∃ q slot, e.slotPopped q = some slot
  · exact .inr (.inl hpop)
  simp only [not_exists, ← ne_eq, ← Option.eq_none_iff_forall_ne_some] at hpush hpop
  exact .inr (.inr ⟨hpush, hpop⟩)

/-- An event that pushes pops from no queue. -/
theorem Event.slotPopped_eq_none_of_pushed {q n : Nat} {e : Event} {v : Word32} (h : e.pushed q = some v) :
    e.slotPopped n = none := by
  obtain ⟨u, hi, -⟩ := Event.pushed_eq_some.1 h
  simp [Event.slotPopped, Event.popped, hi]

/-- An event that pops pushes on no queue. -/
theorem Event.pushed_eq_none_of_slotPopped {q n : Nat} {e : Event} {slot : Slot} (h : e.slotPopped q = some slot) :
    e.pushed n = none := by
  obtain ⟨u, hi, -⟩ := Event.slotPopped_eq_some.1 h
  simp [Event.pushed, hi]

/-- An event pushes on one queue at most. -/
theorem Event.pushed_eq_none_of_ne {q n : Nat} {e : Event} {v : Word32} (h : e.pushed q = some v) (hn : n ≠ q) :
    e.pushed n = none := by
  obtain ⟨u, hi, rfl, -⟩ := Event.pushed_eq_some.1 h
  simp [Event.pushed, hi, hn.symm]

/-- An event pops from one queue at most. -/
theorem Event.slotPopped_eq_none_of_ne {q n : Nat} {e : Event} {slot : Slot} (h : e.slotPopped q = some slot)
    (hn : n ≠ q) : e.slotPopped n = none := by
  obtain ⟨u, hi, rfl, -⟩ := Event.slotPopped_eq_some.1 h
  simp [Event.slotPopped, Event.popped, hi, hn.symm]

/-- The row of a queue before an event, with what the event pushes behind it, is what the event pops with the row after
it. -/
theorem Event.Performed.entries {e : Event} {q : Nat} (h : e.Performed) (hring : e.before.Ring q) :
    e.before.entries q ++ (e.slotPushed q).toList = (e.slotPopped q).toList ++ e.after.entries q := by
  rcases e.pushes_or_pops_or_neither with ⟨n, v, hpush⟩ | ⟨n, slot, hpop⟩ | ⟨hpush, hpop⟩
  · obtain ⟨-, -, hfull, hafter⟩ := h.of_pushed hpush
    have hentries : e.after.entries q = (e.before.pushOn n v).entries q := by
      rw [hafter, State.entries_respond]
    rw [hentries, Event.slotPopped_eq_none_of_pushed hpush]
    by_cases heq : q = n
    · subst heq
      rw [State.entries_pushOn hring hfull, Event.slotPushed, hpush, h.issuer]
      rfl
    · rw [State.entries_pushOn_ne heq, Event.slotPushed, Event.pushed_eq_none_of_ne hpush heq]
      simp
  · obtain ⟨-, -, hempty, hfront, hafter⟩ := h.of_slotPopped hpop
    have hentries : e.after.entries q = (e.before.popOff n).entries q := by
      rw [hafter, State.entries_respond]
    rw [hentries, Event.slotPushed, Event.pushed_eq_none_of_slotPopped hpop]
    by_cases heq : q = n
    · subst heq
      rw [State.entries_popOff hring hempty, hpop, hfront]
      simp
    · rw [State.entries_popOff_ne heq, Event.slotPopped_eq_none_of_ne hpop heq]
      simp
  · obtain ⟨hqueues, -⟩ := h.same hpush hpop
    rw [State.entries_congr (by rw [State.cap, h.cfg, State.cap]) (hqueues q), Event.slotPushed, hpush, hpop]
    simp

/-- A ring stays a ring. -/
theorem Event.Performed.ring {e : Event} {q : Nat} (h : e.Performed) (hring : e.before.Ring q) : e.after.Ring q := by
  rcases e.pushes_or_pops_or_neither with ⟨n, v, hpush⟩ | ⟨n, slot, hpop⟩ | ⟨hpush, hpop⟩
  · obtain ⟨-, -, -, hafter⟩ := h.of_pushed hpush
    rw [hafter]
    exact (hring.pushOn n v).respond _
  · obtain ⟨-, -, -, -, hafter⟩ := h.of_slotPopped hpop
    rw [hafter]
    exact (hring.popOff n).respond _
  · obtain ⟨hqueues, -⟩ := h.same hpush hpop
    exact hring.congr (by rw [State.cap, h.cfg, State.cap]) (hqueues q)

/-! ### A run -/

/-- The state in which event number `j` of a run from `s` finds the block; behind the last event, the one it leaves. -/
def stateAt (s : State) (es : List Event) : Nat → State
  | 0 => s
  | j + 1 => es[j]?.elim s Event.after

/-- Each event was performed in the state that the events before it left. -/
structure IsRun (s : State) (es : List Event) : Prop where
  performed {j : Nat} {e : Event} : es[j]? = some e → e.Performed
  before {j : Nat} {e : Event} : es[j]? = some e → e.before = (stateAt s es j).setIssuer e.agent

theorem stateAt_succ {s : State} {es : List Event} {j : Nat} {e : Event} (h : es[j]? = some e) :
    stateAt s es (j + 1) = e.after := by
  rw [stateAt, h]; rfl

/-- Behind its first event a run is a run from the state that event left. -/
theorem stateAt_cons {s : State} {e : Event} {es : List Event} {j : Nat} (h : j ≤ es.length) :
    stateAt s (e :: es) (j + 1) = stateAt e.after es j := by
  cases j with
  | zero => rfl
  | succ j =>
    have hj : es[j]? = some es[j] := List.getElem?_eq_getElem h
    rw [stateAt_succ (e := es[j]) (by simp), stateAt_succ hj]

/-- A row of requests has events where its first request runs without a fault and the others have events. -/
theorem eventsOf_cons_eq_some {a : Agent} {i : Instr} {rs : List (Agent × Instr)} {s : State} {es : List Event} :
    eventsOf ((a, i) :: rs) s = some es ↔
      ∃ t fs, exec i (s.setIssuer a) = .next t ∧ t.fault.valid = false ∧ eventsOf rs t = some fs ∧
        ⟨a, i, s.setIssuer a, t⟩ :: fs = es := by
  rw [eventsOf]
  cases exec i (s.setIssuer a) with
  | next t => cases hv : t.fault.valid <;> simp [hv]
  | fault f => simp
  | refused r => simp

/-- The events of a row of requests are a run. -/
theorem isRun_of_eventsOf {rs : List (Agent × Instr)} {s : State} {es : List Event} (h : eventsOf rs s = some es) :
    IsRun s es := by
  induction rs generalizing s es with
  | nil => cases h; exact ⟨by simp, by simp⟩
  | cons r rs ih =>
    obtain ⟨a, i⟩ := r
    obtain ⟨t, fs, hexec, hv, hfs, rfl⟩ := eventsOf_cons_eq_some.1 h
    have hrest := ih hfs
    constructor
    · intro j e he
      cases j with
      | zero => cases he; exact ⟨rfl, exec_orderStep hexec hv, exec_cfg hexec⟩
      | succ j => exact hrest.performed (by simpa using he)
    · intro j e he
      cases j with
      | zero => cases he; rfl
      | succ j =>
        have he' : fs[j]? = some e := by simpa using he
        obtain ⟨hlt, -⟩ := List.getElem?_eq_some_iff.1 he'
        rw [stateAt_cons (Nat.le_of_lt hlt)]
        exact hrest.before he'

/-- The rule for invariants of a run: what holds at its start and is kept by every event holds at every place. -/
theorem IsRun.induction {s : State} {es : List Event} (h : IsRun s es) {P : Nat → State → Prop} (h0 : P 0 s)
    (hstep : ∀ {j e}, es[j]? = some e → e.Performed → e.before = (stateAt s es j).setIssuer e.agent →
      P j (stateAt s es j) → P (j + 1) e.after) {j : Nat} (hj : j ≤ es.length) : P j (stateAt s es j) := by
  induction j with
  | zero => exact h0
  | succ j ih =>
    have he : es[j]? = some es[j] := List.getElem?_eq_getElem hj
    rw [stateAt_succ he]
    exact hstep he (h.performed he) (h.before he) (ih (Nat.le_of_succ_le hj))

theorem IsRun.cfg {s : State} {es : List Event} (h : IsRun s es) {j : Nat} (hj : j ≤ es.length) :
    (stateAt s es j).cfg = s.cfg :=
  h.induction (P := fun _ t => t.cfg = s.cfg) rfl
    (fun _ he hbefore ht => he.cfg.trans ((congrArg State.cfg hbefore).trans ht)) hj

theorem IsRun.cfg_before {s : State} {es : List Event} (h : IsRun s es) {j : Nat} {e : Event} (he : es[j]? = some e) :
    e.before.cfg = s.cfg := by
  obtain ⟨hlt, -⟩ := List.getElem?_eq_some_iff.1 he
  exact (congrArg State.cfg (h.before he)).trans (h.cfg (Nat.le_of_lt hlt))

theorem IsRun.ring {s : State} {es : List Event} (h : IsRun s es) {q : Nat} (hring : s.Ring q) {j : Nat}
    (hj : j ≤ es.length) : (stateAt s es j).Ring q := by
  refine h.induction (P := fun _ t => t.Ring q) hring (fun _ he hbefore ht => he.ring ?_) hj
  rw [hbefore]
  exact ht.setIssuer _

/-- A queue is first in, first out along a run: what it held and what was pushed is what was popped and what it holds
(R69). -/
theorem IsRun.fifo {s : State} {es : List Event} (h : IsRun s es) {q : Nat} (hring : s.Ring q) {j : Nat}
    (hj : j ≤ es.length) :
    s.entries q ++ (es.take j).filterMap (Event.slotPushed q) =
      (es.take j).filterMap (Event.slotPopped q) ++ (stateAt s es j).entries q := by
  refine h.induction (P := fun j t => s.entries q ++ (es.take j).filterMap (Event.slotPushed q) =
    (es.take j).filterMap (Event.slotPopped q) ++ t.entries q) (by simp) (fun {j e} he hdone hbefore ih => ?_) hj
  have hlt : j ≤ es.length := Nat.le_of_lt (List.getElem?_eq_some_iff.1 he).1
  have hentries : e.before.entries q = (stateAt s es j).entries q := by rw [hbefore, State.entries_setIssuer]
  have hring' : e.before.Ring q := by rw [hbefore]; exact (h.ring hring hlt).setIssuer _
  have hsingle (f : Event → Option Slot) : [e].filterMap f = (f e).toList := by cases hf : f e <;> simp [hf]
  simp only [List.take_add_one, he, Option.toList_some, List.filterMap_append, hsingle]
  calc s.entries q ++ ((es.take j).filterMap (Event.slotPushed q) ++ (e.slotPushed q).toList)
      = (es.take j).filterMap (Event.slotPopped q) ++ (e.before.entries q ++ (e.slotPushed q).toList) := by
        rw [← List.append_assoc, ih, List.append_assoc, hentries]
    _ = (es.take j).filterMap (Event.slotPopped q) ++ (e.slotPopped q).toList ++ e.after.entries q := by
        rw [hdone.entries hring', List.append_assoc]

/-- POP number n takes entry number n, counting the entries that stood in the queue first. -/
theorem IsRun.entry_of_slotPopped {s : State} {es : List Event} (h : IsRun s es) {q j : Nat} {f : Event} {slot : Slot}
    (hring : s.Ring q) (hf : es[j]? = some f) (hpop : f.slotPopped q = some slot) :
    (s.entries q ++ (es.take j).filterMap (Event.slotPushed q))[((es.take j).filterMap (Event.popped q)).length]? =
      some slot := by
  have hlt : j ≤ es.length := Nat.le_of_lt (List.getElem?_eq_some_iff.1 hf).1
  obtain ⟨-, -, hempty, rfl, -⟩ := (h.performed hf).of_slotPopped hpop
  have hring' : f.before.Ring q := by rw [h.before hf]; exact (h.ring hring hlt).setIssuer _
  have hentries : (stateAt s es j).entries q = f.before.entries q := by rw [h.before hf, State.entries_setIssuer]
  rw [h.fifo hring hlt, ← length_filterMap_slotPopped, hentries, State.entries_popOff hring' hempty]
  simp

/-- A POP matched with a PUSH by their numbers takes the slot that the PUSH put there. -/
theorem IsRun.slot_eq_of_matched {s : State} {es : List Event} (h : IsRun s es) {q i j : Nat} {e f : Event}
    {pushed popped : Slot} (hring : s.Ring q) (hij : i < j) (he : es[i]? = some e) (hf : es[j]? = some f)
    (hpush : e.slotPushed q = some pushed) (hpop : f.slotPopped q = some popped)
    (hnumber : ((es.take j).filterMap (Event.popped q)).length =
      (s.contents q).length + ((es.take i).filterMap (Event.pushed q)).length) : popped = pushed := by
  have hentry := h.entry_of_slotPopped hring hf hpop
  rw [hnumber, ← State.entries_length, List.getElem?_append_right (Nat.le_add_right _ _), Nat.add_sub_cancel_left,
    ← length_filterMap_slotPushed] at hentry
  have hpushed : ((es.take j).filterMap (Event.slotPushed q))[((es.take i).filterMap (Event.slotPushed q)).length]? =
      some pushed :=
    getElem?_filterMap_eq_some_iff.2 ⟨i, e, by rw [List.getElem?_take_of_lt hij, he], hpush,
      by rw [List.take_take, Nat.min_eq_left (Nat.le_of_lt hij)]⟩
  exact Option.some.inj (hentry.symm.trans hpushed)

/-- A POP takes a slot that stood in the queue at the start, or that of the PUSH it is matched with. -/
theorem IsRun.slotPopped_cases {s : State} {es : List Event} (h : IsRun s es) {q j : Nat} {f : Event} {slot : Slot}
    (hring : s.Ring q) (hf : es[j]? = some f) (hpop : f.slotPopped q = some slot) :
    slot ∈ s.entries q ∨
      ∃ i e, es[i]? = some e ∧ e.slotPushed q = some slot ∧ i < j ∧ HappensBefore s es i j := by
  have hentry := h.entry_of_slotPopped hring hf hpop
  rw [List.getElem?_append] at hentry
  split at hentry
  next => exact .inl (List.mem_of_getElem? hentry)
  next hge =>
    obtain ⟨i, e, he, hpush, hcount⟩ := getElem?_filterMap_eq_some_iff.1 hentry
    obtain ⟨hij, he⟩ : i < j ∧ es[i]? = some e := by simpa [List.getElem?_take] using he
    rw [List.take_take, Nat.min_eq_left (Nat.le_of_lt hij), length_filterMap_slotPushed] at hcount
    refine .inr ⟨i, e, he, hpush, hij, .sw q hij he hf ?_ ?_ ?_⟩
    · rw [(Event.slotPushed_eq_some.1 hpush).1]; rfl
    · simpa [Event.slotPopped] using congrArg Option.isSome hpop
    · rw [← State.entries_length]; omega

end Sys2Proof.Machine
end

section
/-! The clocks along a run, beside happens-before: what an agent knows of the other is the epoch of a PUSH that it has
popped, and along happens-before no clock goes back (R44, R45). -/

namespace Sys2Proof.Machine

/-- The clock of an event: the acquire of a POP is in it, the count of a PUSH is not. -/
def Event.clock (e : Event) : Clock :=
  match e.instr with
  | .pop _ => e.after.vc e.agent
  | _ => e.before.vc e.agent

theorem Event.clock_eq_after {e : Event} {u : Byte} (h : e.instr = .pop u) : e.clock = e.after.vc e.agent := by
  rw [Event.clock, h]

theorem Event.clock_eq_before {e : Event} (h : ∀ u, e.instr ≠ .pop u) : e.clock = e.before.vc e.agent := by
  unfold Event.clock
  split
  next u hi => exact absurd hi (h u)
  next => rfl

theorem Event.Performed.before_le_clock {e : Event} (h : e.Performed) : (e.before.vc e.agent).Le e.clock := by
  unfold Event.clock
  split
  · exact h.order.vc_le _
  · exact Clock.Le.refl _

theorem Event.Performed.clock_le_after {e : Event} (h : e.Performed) : e.clock.Le (e.after.vc e.agent) := by
  unfold Event.clock
  split
  · exact Clock.Le.refl _
  · exact h.order.vc_le _

/-- What a PUSH leaves in the slot is its clock. -/
theorem Event.clk_of_slotPushed {q : Nat} {e : Event} {slot : Slot} (h : e.slotPushed q = some slot) :
    slot.clk = e.clock := by
  obtain ⟨hpush, hclk⟩ := Event.slotPushed_eq_some.1 h
  obtain ⟨u, hi, -⟩ := Event.pushed_eq_some.1 hpush
  rw [hclk, Event.clock_eq_before (by simp [hi])]

/-- A POP joins the clock of its slot into its agent's. -/
theorem Event.Performed.vc_after_of_slotPopped {q : Nat} {e : Event} {slot : Slot} (h : e.Performed)
    (hpop : e.slotPopped q = some slot) : e.after.vc e.agent = (e.before.vc e.agent).join slot.clk := by
  obtain ⟨-, -, -, rfl, hafter⟩ := h.of_slotPopped hpop
  rw [hafter, State.vc_respond, State.vc_popOff_self h.issuer]

/-- A PUSH counts its agent's epoch on, and nothing else. -/
theorem Event.Performed.vc_after_of_pushed {q : Nat} {e : Event} {v : Word32} (h : e.Performed)
    (hpush : e.pushed q = some v) : e.after.vc e.agent = (e.before.vc e.agent).set e.agent (e.epoch + 1) := by
  obtain ⟨-, -, -, hafter⟩ := h.of_pushed hpush
  rw [hafter, State.vc_respond, State.vc_pushOn_self h.issuer]
  rfl

/-- What a POP takes is in its clock. -/
theorem Event.Performed.clk_le_clock {q : Nat} {e : Event} {slot : Slot} (h : e.Performed)
    (hpop : e.slotPopped q = some slot) : slot.clk.Le e.clock := by
  obtain ⟨u, hi, -⟩ := Event.slotPopped_eq_some.1 hpop
  rw [Event.clock_eq_after hi, h.vc_after_of_slotPopped hpop]
  exact Clock.le_join_right _ _

/-- An access to a buffer is no PUSH. -/
theorem Event.pushed_eq_none_of_accesses {e : Event} {b : Nat} (h : e.accesses b = true) (q : Nat) :
    e.pushed q = none := by
  refine Option.eq_none_iff_forall_ne_some.2 fun v hpush => ?_
  obtain ⟨u, hi, -⟩ := Event.pushed_eq_some.1 hpush
  simp [Event.accesses, hi] at h

/-- An access to a buffer acquires nothing. -/
theorem Event.clock_of_accesses {e : Event} {b : Nat} (h : e.accesses b = true) : e.clock = e.before.vc e.agent :=
  Event.clock_eq_before fun u hi => by simp [Event.accesses, hi] at h

theorem IsRun.vc_before {s : State} {es : List Event} (h : IsRun s es) {j : Nat} {e : Event} (he : es[j]? = some e)
    (a : Agent) : e.before.vc a = (stateAt s es j).vc a := by
  rw [h.before he, State.vc_setIssuer]

/-- No agent's clock goes back along a run. -/
theorem IsRun.vc_le {s : State} {es : List Event} (h : IsRun s es) (a : Agent) {i j : Nat} (hij : i ≤ j)
    (hj : j ≤ es.length) : ((stateAt s es i).vc a).Le ((stateAt s es j).vc a) := by
  induction j, hij using Nat.le_induction with
  | base => exact Clock.Le.refl _
  | succ j _ ih =>
    have he : es[j]? = some es[j] := List.getElem?_eq_getElem hj
    refine (ih (Nat.le_of_succ_le hj)).trans ?_
    rw [stateAt_succ he, ← h.vc_before he]
    exact (h.performed he).order.vc_le a

/-- From an event to a later one no agent's clock goes back. -/
theorem IsRun.after_le_before {s : State} {es : List Event} (h : IsRun s es) {i j : Nat} {e f : Event} (hij : i < j)
    (he : es[i]? = some e) (hf : es[j]? = some f) (a : Agent) : (e.after.vc a).Le (f.before.vc a) := by
  rw [← stateAt_succ (s := s) he, h.vc_before hf]
  exact h.vc_le a hij (Nat.le_of_lt (List.getElem?_eq_some_iff.1 hf).1)

/-- Along happens-before no event's clock goes back. -/
theorem IsRun.clock_le_of_happensBefore {s : State} {es : List Event} (h : IsRun s es)
    (hrings : ∀ q, q < s.cfg.nq → s.Ring q) {i j : Nat} (hb : HappensBefore s es i j) :
    ∃ e f, es[i]? = some e ∧ es[j]? = some f ∧ e.clock.Le f.clock := by
  induction hb with
  | @po i j e f hij he hf hagent =>
    refine ⟨e, f, he, hf, (h.performed he).clock_le_after.trans (Clock.Le.trans ?_ (h.performed hf).before_le_clock)⟩
    rw [hagent]
    exact h.after_le_before hij he hf _
  | @sw i j e f q hij he hf hpush hpop hnumber =>
    obtain ⟨pushed, hpushed⟩ : ∃ slot, e.slotPushed q = some slot :=
      Option.isSome_iff_exists.1 (by simpa [Event.slotPushed] using hpush)
    obtain ⟨popped, hpopped⟩ : ∃ slot, f.slotPopped q = some slot :=
      Option.isSome_iff_exists.1 (by simpa [Event.slotPopped] using hpop)
    obtain ⟨hq, -⟩ := (h.performed hf).of_slotPopped hpopped
    obtain rfl := h.slot_eq_of_matched (hrings q (h.cfg_before hf ▸ hq)) hij he hf hpushed hpopped hnumber
    refine ⟨e, f, he, hf, ?_⟩
    rw [← Event.clk_of_slotPushed hpushed]
    exact (h.performed hf).clk_le_clock hpopped
  | trans _ _ ih ih' =>
    obtain ⟨e, f, he, hf, hle⟩ := ih
    obtain ⟨f', g, hf', hg, hle'⟩ := ih'
    cases hf.symm.trans hf'
    exact ⟨e, g, he, hg, hle.trans hle'⟩

/-! ### What an agent knows of the other -/

/-- Agent `a` was in epoch `n` when it made a PUSH that the other agent had popped before event number `j`. -/
def PoppedEpoch (s : State) (es : List Event) (a : Agent) (n j : Nat) : Prop :=
  ∃ p r g h q v, r < j ∧ es[p]? = some g ∧ es[r]? = some h ∧ g.agent = a ∧ h.agent = a.other ∧
    g.pushed q = some v ∧ g.epoch = n ∧ HappensBefore s es p r

theorem PoppedEpoch.succ {s : State} {es : List Event} {a : Agent} {n j : Nat} (h : PoppedEpoch s es a n j) :
    PoppedEpoch s es a n (j + 1) := by
  obtain ⟨p, r, g, h, q, v, hr, hrest⟩ := h
  exact ⟨p, r, g, h, q, v, Nat.lt_succ_of_lt hr, hrest⟩

/-- From fresh clocks no slot of a queue has a clock that counts (R20, R115). -/
theorem State.entries_clk_of_fresh {s : State} (h : s.clocksFresh = true) {q : Nat} {slot : Slot}
    (hslot : slot ∈ s.entries q) : slot.clk = Clock.zero := by
  simp only [State.clocksFresh, Bool.and_eq_true, List.all_eq_true, decide_eq_true_eq] at h
  obtain ⟨-, hqueues⟩ := h
  have hwritten : ∀ e ∈ (s.queue q).slots, e.2.clk = Clock.zero :=
    (forall_mem_iff_getD (P := fun Q : Queue => ∀ e ∈ Q.slots, e.2.clk = Clock.zero) (by simp [Queue.reset]) _).1
      hqueues q
  obtain ⟨i, -, rfl⟩ := List.mem_map.1 hslot
  rw [Queue.slot]
  cases hget : Sparse.get (s.queue q).slots _ with
  | none => rfl
  | some slot => exact hwritten _ (Sparse.mem_of_get hget)

/-- From fresh clocks every agent is in epoch 1 and knows no epoch of the other. -/
theorem State.vc_of_fresh {s : State} (h : s.clocksFresh = true) (a : Agent) :
    s.epoch a = 1 ∧ (s.vc a.other).get a = 0 := by
  simp only [State.clocksFresh, Bool.and_eq_true, decide_eq_true_eq] at h
  obtain ⟨⟨hp, hc⟩, -⟩ := h
  cases a <;> simp [State.epoch, State.vc, Agent.other, Clock.get, hp, hc]

/-- What an agent knows of the other's epochs after one event: what it knew before, or what the clock of a slot says
that it has popped. -/
theorem Event.Performed.get_after_cases {e : Event} (h : e.Performed) (a : Agent) :
    (e.after.vc a.other).get a = (e.before.vc a.other).get a ∨
      ∃ q slot, e.agent = a.other ∧ e.slotPopped q = some slot ∧ (e.after.vc a.other).get a = slot.clk.get a := by
  rcases Agent.eq_or_other a e.agent with ha | ha
  · exact .inl (by rw [h.order.vc_other (h.issuer.trans ha)])
  rcases e.pushes_or_pops_or_neither with ⟨q, v, hpush⟩ | ⟨q, slot, hpop⟩ | ⟨hpush, hpop⟩
  · obtain rfl : a = e.agent.other := by rw [ha, Agent.other_other]
    exact .inl (by rw [Agent.other_other, h.vc_after_of_pushed hpush, Clock.get_set_other])
  · have hafter := h.vc_after_of_slotPopped hpop
    rw [ha] at hafter
    rw [hafter, Clock.get_join]
    rcases Nat.le_total (slot.clk.get a) ((e.before.vc a.other).get a) with hle | hle
    · exact .inl (Nat.max_eq_left hle)
    · exact .inr ⟨q, slot, ha, hpop, Nat.max_eq_right hle⟩
  · obtain ⟨-, hvc⟩ := h.same hpush hpop
    exact .inl (by rw [hvc a.other])

/-- Along a run from fresh clocks an agent knows no epoch of the other but those of PUSHes it has popped. -/
theorem IsRun.knows_zero_or_poppedEpoch {s : State} {es : List Event} (h : IsRun s es)
    (hrings : ∀ q, q < s.cfg.nq → s.Ring q ∧ (s.cfg.queue q).popper ≠ (s.cfg.queue q).pusher)
    (hfresh : s.clocksFresh = true) (a : Agent) {j : Nat} (hj : j ≤ es.length) :
    ((stateAt s es j).vc a.other).get a = 0 ∨
      PoppedEpoch s es a (((stateAt s es j).vc a.other).get a) j := by
  refine h.induction (P := fun j t => (t.vc a.other).get a = 0 ∨ PoppedEpoch s es a ((t.vc a.other).get a) j)
    (.inl (State.vc_of_fresh hfresh a).2) (fun {j e} he hdone hbefore ih => ?_) hj
  rcases hdone.get_after_cases a with hsame | ⟨q, slot, hagent, hpop, hget⟩
  · rw [hsame, h.vc_before he]
    exact ih.imp_right PoppedEpoch.succ
  · obtain ⟨hq, hpopper, -⟩ := hdone.of_slotPopped hpop
    rw [h.cfg_before he] at hq hpopper
    obtain ⟨hring, hne⟩ := hrings q hq
    rw [hget]
    rcases h.slotPopped_cases hring he hpop with hold | ⟨i, g, hg, hslot, -, hsync⟩
    · exact .inl (by rw [State.entries_clk_of_fresh hfresh hold, Clock.get_zero])
    · obtain ⟨hpush, hclk⟩ := Event.slotPushed_eq_some.1 hslot
      obtain ⟨-, hpusher, -⟩ := (h.performed hg).of_pushed hpush
      rw [h.cfg_before hg] at hpusher
      have hgagent : g.agent = a := by
        have hother : g.agent ≠ a.other := fun heq => hne (by rw [← hpopper, ← hpusher, heq, hagent])
        exact (Agent.eq_or_other a g.agent).resolve_right hother
      refine .inr ⟨i, j, g, e, q, slot.val, Nat.lt_succ_self j, hg, he, hgagent, hagent, hpush, ?_, hsync⟩
      rw [Event.epoch, hclk, hgagent]

/-- From fresh clocks every event has an epoch of 1 or more. -/
theorem IsRun.epoch_pos {s : State} {es : List Event} (h : IsRun s es) (hfresh : s.clocksFresh = true) {i : Nat}
    {e : Event} (he : es[i]? = some e) : 0 < e.epoch := by
  have hle := h.vc_le e.agent (Nat.zero_le i) (Nat.le_of_lt (List.getElem?_eq_some_iff.1 he).1) e.agent
  rw [← h.vc_before he] at hle
  obtain ⟨hone, -⟩ := State.vc_of_fresh hfresh e.agent
  calc 0 < s.epoch e.agent := by rw [hone]; exact Nat.zero_lt_one
    _ ≤ e.epoch := hle

/-- Behind a PUSH of its own an agent is in a later epoch. -/
theorem IsRun.epoch_lt_of_pushed {s : State} {es : List Event} (h : IsRun s es) {p i q : Nat} {g e : Event} {v : Word32}
    (hpi : p < i) (hg : es[p]? = some g) (he : es[i]? = some e) (hpush : g.pushed q = some v)
    (hagent : g.agent = e.agent) : g.epoch < e.epoch := by
  have hle := h.after_le_before hpi hg he g.agent g.agent
  rw [(h.performed hg).vc_after_of_pushed hpush, Clock.get_set, hagent] at hle
  exact hle

/-- An access happens before a later event of the other agent that knows its epoch: the agent has made a PUSH since,
which the other has popped (R44, R45). -/
theorem IsRun.happensBefore_of_known {s : State} {es : List Event} (h : IsRun s es)
    (hrings : ∀ q, q < s.cfg.nq → s.Ring q ∧ (s.cfg.queue q).popper ≠ (s.cfg.queue q).pusher)
    (hfresh : s.clocksFresh = true) {i j b : Nat} {e f : Event} (he : es[i]? = some e) (hf : es[j]? = some f)
    (hagent : f.agent = e.agent.other) (haccess : e.accesses b = true)
    (hknown : e.epoch ≤ (f.before.vc f.agent).get e.agent) : HappensBefore s es i j := by
  have hj : j ≤ es.length := Nat.le_of_lt (List.getElem?_eq_some_iff.1 hf).1
  have hpos := h.epoch_pos hfresh he
  rw [hagent, h.vc_before hf] at hknown
  rcases h.knows_zero_or_poppedEpoch hrings hfresh e.agent hj with hzero | hpopped
  · omega
  · obtain ⟨p, r, g, k, q, v, hr, hg, hk, hgagent, hkagent, hpush, hepoch, hbefore⟩ := hpopped
    have hip : i < p := by
      rcases Nat.lt_trichotomy i p with hlt | rfl | hgt
      · exact hlt
      · cases he.symm.trans hg
        cases hpush.symm.trans (Event.pushed_eq_none_of_accesses haccess q)
      · have := h.epoch_lt_of_pushed hgt hg he hpush hgagent
        omega
    exact .trans (.po hip he hg hgagent.symm) (.trans hbefore (.po hr hk hf (hkagent.trans hagent.symm)))

/-- What happens before an access is known to its agent. -/
theorem IsRun.known_of_happensBefore {s : State} {es : List Event} (h : IsRun s es)
    (hrings : ∀ q, q < s.cfg.nq → s.Ring q) {i j b : Nat} {e f : Event} (he : es[i]? = some e) (hf : es[j]? = some f)
    (haccess : f.accesses b = true) (hbefore : HappensBefore s es i j) :
    e.epoch ≤ (f.before.vc f.agent).get e.agent := by
  obtain ⟨e', f', he', hf', hle⟩ := h.clock_le_of_happensBefore hrings hbefore
  cases he.symm.trans he'
  cases hf.symm.trans hf'
  calc e.epoch ≤ e.clock.get e.agent := (h.performed he).before_le_clock e.agent
    _ ≤ f.clock.get e.agent := hle e.agent
    _ = (f.before.vc f.agent).get e.agent := by rw [Event.clock_of_accesses haccess]

end Sys2Proof.Machine
end

section
/-! The obligations of 20_memory.md, settled. -/

namespace Sys2Proof.Machine

/-- Settles O23: each of the four had its effect, and that effect on what it left is the same state again. -/
theorem repeatedReadsAndFlagWritesChangeNothing : Obligations.RepeatedReadsAndFlagWritesChangeNothing := by
  rintro s t i hi h hv
  rcases hi with ⟨b, rfl⟩ | ⟨b, rfl⟩ | ⟨b, rfl⟩ | ⟨n, rfl⟩
  · exact exec_request_ok rfl hv (encBeginEffect_again (requestEffect_of_exec rfl h hv))
  · exact exec_request_ok rfl hv (encSealEffect_again (requestEffect_of_exec rfl h hv))
  · exact exec_request_ok rfl hv (encSizeEffect_again (requestEffect_of_exec rfl h hv))
  · exact exec_request_ok rfl hv (fbReadEffect_again (requestEffect_of_exec rfl h hv))

/-- Settles O49: the entry's slot carries the pusher's clock to the popper, and no access record is beyond it. -/
theorem handOffMakesABufferVisible : Obligations.HandOffMakesABufferVisible := by
  intro s q v b a hinv hclocks hv hq hpusher hpopper hroom
  have hring := State.ring_of_inv hinv hq
  obtain ⟨t, hrun, hclk, hbufs, hresp⟩ :=
    runRequests_push_pops v hv hq hpusher hpopper hring (hring.full_eq_false hroom)
  obtain ⟨-, -, hnotBeyond⟩ := State.clocksOk_iff.1 hclocks
  have hrecord : (t.buf b).NotBeyond s.epoch := by rw [hbufs b]; exact hnotBeyond b
  exact ⟨t, hrun, not_conflicts_of_notBeyond hrecord (hclk a), hbufs b, hresp⟩

/-- Settles O50: C's read is in its present epoch, which P does not know, and C's POP leaves both the record of the
read and P's clock alone. -/
theorem popGivesNoTailSideOrder : Obligations.PopGivesNoTailSideOrder := by
  intro s t b q hclocks hb hrun
  obtain ⟨u, hread, hv, hrun⟩ := runRequests_cons_eq_some.1 hrun
  obtain ⟨w, hpop, hv', hrun⟩ := runRequests_cons_eq_some.1 hrun
  cases hrun
  obtain ⟨hread_epoch, hclk⟩ := exec_encSize_read hread hv
  have hvc : t.vc .producer = s.vc .producer :=
    calc t.vc .producer = (u.setIssuer .consumer).vc .producer := (exec_orderStep hpop hv').vc_other rfl
      _ = s.vc .producer := by simp [hclk .producer]
  have hlast : (t.buf b.toNat).lastRead.get .consumer = s.epoch .consumer := by
    rw [exec_pop_sameBufs hpop hv' b.toNat]; exact hread_epoch
  obtain ⟨hbehind, -⟩ := State.clocksOk_iff.1 hclocks
  have hcfg : t.cfg = s.cfg := (exec_cfg hpop).trans (exec_cfg hread :)
  have hrace : conflicts (t.setIssuer .producer) .producer b.toNat .write := by
    refine .inr ⟨rfl, ?_⟩
    rw [State.vc_setIssuer, State.buf_setIssuer, hvc, Agent.other, hlast]
    exact hbehind .consumer
  have heff : encBeginEffect b.toNat (t.setIssuer .producer) = .error .dataRace :=
    onBuffer_race (show b.toNat < t.cfg.nbuf from hcfg ▸ hb) rfl hrace
  exact faultsWith_of_error (i := .encBegin b) (s := t.setIssuer .producer) rfl hv' heff

/-- Settles O52: an agent knows of the other's epochs those of the PUSHes it has popped, and along happens-before no
clock goes back. -/
theorem clocksDecideHappensBefore : Obligations.ClocksDecideHappensBefore := by
  intro s rs es i j e f b c hinv hfresh hes he hf _ hagent heaccess hfaccess
  have hrun := isRun_of_eventsOf hes
  obtain ⟨hlegal, -⟩ := State.inv_iff.1 hinv
  obtain ⟨-, -, hqueues, -⟩ := Config.legal_iff.1 hlegal
  have hring (q : Nat) (hq : q < s.cfg.nq) : s.Ring q := State.ring_of_inv hinv hq
  have hports (q : Nat) (hq : q < s.cfg.nq) : (s.cfg.queue q).popper ≠ (s.cfg.queue q).pusher :=
    (QueueConfig.legal_iff.1 (hqueues q hq)).2
  have hother : f.agent = e.agent.other := (Agent.eq_or_other e.agent f.agent).resolve_left (Ne.symm hagent)
  exact ⟨hrun.happensBefore_of_known (fun q hq => ⟨hring q hq, hports q hq⟩) hfresh he hf hother heaccess,
    hrun.known_of_happensBefore hring he hf hfaccess⟩

end Sys2Proof.Machine
end

section
/-! The layout of a request word, both ways: its fields read what was written, and written again they are the word
(R54). -/

namespace Sys2Proof

/-- Adjacent fields of a word, each placed where it stood, are one longer field. -/
theorem place_extract_join (r : Packet) {lo m at' n width : Nat} (hat : at' = lo + m) (hwidth : width = m + n) :
    place lo (r.extractLsb' lo m) ||| place at' (r.extractLsb' at' n) = place lo (r.extractLsb' lo width) := by
  subst hat hwidth
  apply BitVec.eq_of_getLsbD_eq
  intro i hi
  simp only [BitVec.getLsbD_or, place_getLsbD _ _ _ hi, BitVec.getLsbD_extractLsb']
  by_cases hlo : lo ≤ i <;> by_cases hm : lo + m ≤ i
  · have hleft : ¬ i - lo < m := by omega
    have hright : i - (lo + m) < n ↔ i - lo < m + n := by omega
    simp [hlo, hm, hleft, hright]
  · have hleft : i - lo < m := by omega
    have hwhole : i - lo < m + n := by omega
    simp [hlo, hm, hleft, hwhole]
  · omega
  · simp [hlo, hm]

/-- The whole word is its one field of 128 bits. -/
theorem place_extract_whole (r : Packet) : place 0 (r.extractLsb' 0 128) = r := by
  simp [place]

/-- The fields of R54 leave no bit of a word out. -/
theorem requestWordOf_requestFields (r : Packet) : requestWordOf (requestFields r) = r := by
  simp only [requestWordOf, requestFields]
  rw [place_extract_join r (width := 8) rfl rfl, place_extract_join r (width := 16) rfl rfl,
    place_extract_join r (width := 24) rfl rfl, place_extract_join r (width := 32) rfl rfl,
    place_extract_join r (width := 64) rfl rfl, place_extract_join r (width := 80) rfl rfl,
    place_extract_join r (width := 96) rfl rfl, place_extract_join r (width := 112) rfl rfl,
    place_extract_join r (width := 128) rfl rfl, place_extract_whole]

/-- No two fields of R54 share a bit. -/
@[simp] theorem requestFields_requestWordOf (f : RequestFields) : requestFields (requestWordOf f) = f := by
  simp [requestFields, requestWordOf, extract_or, extract_place, extract_place_below, extract_place_above]

theorem requestFields_injective : Function.Injective requestFields :=
  Function.LeftInverse.injective requestWordOf_requestFields

theorem requestWordOf_eq_iff {f : RequestFields} {r : Packet} : requestWordOf f = r ↔ requestFields r = f :=
  ⟨fun h => h ▸ requestFields_requestWordOf f, fun h => h ▸ requestWordOf_requestFields r⟩

/-- The word of a reserved OP, taken apart (R59). -/
theorem reservedWord_fields (op : BitVec 4) (rest : BitVec 124) :
    (place 0 op ||| place 4 rest).extractLsb' 0 4 = op ∧ (place 0 op ||| place 4 rest).extractLsb' 4 124 = rest := by
  simp [extract_or, extract_place, extract_place_below, extract_place_above]

/-- OP and the 124 bits above it are the whole word (R59). -/
theorem reservedWord_extract (r : Packet) : place 0 (r.extractLsb' 0 4) ||| place 4 (r.extractLsb' 4 124) = r := by
  rw [place_extract_join r (width := 128) rfl rfl, place_extract_whole]

end Sys2Proof
end

section
/-! The decoder of request words, both ways: it accepts the words of the well-formed requests, each as its request. -/

namespace Sys2Proof

/-! ### The OP values (R55, R59) -/

/-- The two reserved rows share no OP. -/
theorem isOpCF_not_isOpAB : ∀ {op : BitVec 4}, isOpCF op = true → isOpAB op = false := by decide

/-- Every OP is in one of the two reserved rows or in R55. -/
theorem reserved_or_op_lt : ∀ op : BitVec 4, isOpAB op = true ∨ isOpCF op = true ∨ op.toNat < 10 := by decide

theorem not_reserved_of_op_lt : ∀ {op : BitVec 4}, op.toNat < 10 → isOpAB op = false ∧ isOpCF op = false := by decide

/-! ### What the encoder writes is decoded -/

/-- A reserved OP decides its row whatever stands above it (R59). -/
theorem decodeRequest_reservedOpAB {op : BitVec 4} (rest : BitVec 124) (h : isOpAB op = true) :
    decodeRequest (place 0 op ||| place 4 rest) = .ok (.reservedOpAB op rest) := by
  obtain ⟨hop, hrest⟩ := reservedWord_fields op rest
  simp [decodeRequest, requestFields, hop, hrest, h]

theorem decodeRequest_reservedOpCF {op : BitVec 4} (rest : BitVec 124) (h : isOpCF op = true) :
    decodeRequest (place 0 op ||| place 4 rest) = .ok (.reservedOpCF op rest) := by
  obtain ⟨hop, hrest⟩ := reservedWord_fields op rest
  simp [decodeRequest, requestFields, hop, hrest, isOpCF_not_isOpAB h, h]

/-- With an OP of R55 and zero reserved fields, the OP map decides (R59). -/
theorem decodeRequest_requestWordOf {f : RequestFields} (hop : f.op.toNat < 10)
    (hrsv : f.rsvA = 0 ∧ f.rsvB = 0) : decodeRequest (requestWordOf f) = f.select := by
  obtain ⟨hab, hcf⟩ := not_reserved_of_op_lt hop
  simp [decodeRequest, hab, hcf, hrsv]

/-- The encoder's word of a well-formed request decodes to the request. -/
theorem decodeRequest_requestWord {i : Instr} (hwf : i.wellFormed = true) (hi : i.isRequest = true) :
    decodeRequest (requestWord i) = .ok i := by
  cases i with
  | reservedOpAB op rest => exact decodeRequest_reservedOpAB rest hwf
  | reservedOpCF op rest => exact decodeRequest_reservedOpCF rest hwf
  | recClear | recRect | recUnrecognized => cases hi
  | push | pop | encBegin | pushClear | pushRect | encSeal | encSize | decode | decodeN | fbRead =>
    exact decodeRequest_requestWordOf (Nat.le_of_ble_eq_true rfl) ⟨rfl, rfl⟩

/-- The encoding of a request is the word on its port (R53). -/
theorem decode_encode_of_isRequest {i : Instr} (hi : i.isRequest = true) :
    decode (encode i) = decodeRequest (requestWord i) := by
  cases henc : encode i with
  | request r => simp [decode, requestWord, henc]
  | record bytes => simp [Instr.isRequest, henc] at hi

/-! ### What is decoded, the encoder writes -/

section

variable {f : RequestFields} {op : BitVec 4}

/-- The words of the OPs that use UNIT and VAL (R56). -/
theorem plainRequest_of_noRect (hop : f.op = op) (hrsv : f.rsvA = 0 ∧ f.rsvB = 0) (h : f.noRect = true) :
    plainRequest op f.unit f.val = requestWordOf f := by
  cases f
  simp_all [plainRequest, RequestFields.noRect]

/-- The words of the OPs that use UNIT alone (R56). -/
theorem plainRequest_of_unitOnly (hop : f.op = op) (hrsv : f.rsvA = 0 ∧ f.rsvB = 0) (h : f.unitOnly = true) :
    plainRequest op f.unit 0 = requestWordOf f := by
  obtain ⟨hrect, hval⟩ := Bool.and_eq_true_iff.1 h
  rw [← plainRequest_of_noRect hop hrsv hrect, eq_of_beq hval]

/-- The words of the OP that uses VAL alone (R56). -/
theorem plainRequest_of_valOnly (hop : f.op = op) (hrsv : f.rsvA = 0 ∧ f.rsvB = 0) (h : f.valOnly = true) :
    plainRequest op 0 f.val = requestWordOf f := by
  obtain ⟨hrect, hunit⟩ := Bool.and_eq_true_iff.1 h
  rw [← plainRequest_of_noRect hop hrsv hrect, eq_of_beq hunit]

/-- The word of PUSH_RECT, which uses every field (R56). -/
theorem encode_pushRect_eq (hop : f.op = 4) (hrsv : f.rsvA = 0 ∧ f.rsvB = 0) :
    encode (.pushRect f.unit f.layer f.val f.x f.y f.w f.h) = .request (requestWordOf f) := by
  cases f
  simp_all [encode]

/-- A guarded instruction has the word's fields where the guard makes its encoding the word. -/
theorem RequestFields.encode_of_guardUnused {ok : Bool} {i j : Instr} {r r' : Packet} (hwf : j.wellFormed = true)
    (hword : ok = true → r' = r) (h : f.guardUnused ok j = .ok i) (henc : encode j = .request r') :
    i.wellFormed = true ∧ encode i = .request r := by
  obtain ⟨hok, rfl⟩ := RequestFields.guardUnused_eq_ok.1 h
  exact ⟨hwf, henc.trans (congrArg Encoded.request (hword hok))⟩

/-- An instruction that the OP map selects is well-formed and has the word's fields (R55, R56). -/
theorem RequestFields.encode_of_select {i : Instr} (hlt : f.op.toNat < 10) (hrsv : f.rsvA = 0 ∧ f.rsvB = 0)
    (h : f.select = .ok i) : i.wellFormed = true ∧ encode i = .request (requestWordOf f) := by
  unfold RequestFields.select at h
  split_ifs at h with h0 h1 h2 h3 h4 h5 h6 h7 h8
  · exact encode_of_guardUnused rfl (plainRequest_of_noRect h0 hrsv) h rfl
  · exact encode_of_guardUnused rfl (plainRequest_of_unitOnly h1 hrsv) h rfl
  · exact encode_of_guardUnused rfl (plainRequest_of_unitOnly h2 hrsv) h rfl
  · exact encode_of_guardUnused rfl (plainRequest_of_noRect h3 hrsv) h rfl
  · cases h
    exact ⟨rfl, encode_pushRect_eq h4 hrsv⟩
  · exact encode_of_guardUnused rfl (plainRequest_of_unitOnly h5 hrsv) h rfl
  · exact encode_of_guardUnused rfl (plainRequest_of_unitOnly h6 hrsv) h rfl
  · exact encode_of_guardUnused rfl (plainRequest_of_unitOnly h7 hrsv) h rfl
  · exact encode_of_guardUnused rfl (plainRequest_of_noRect h8 hrsv) h rfl
  · have h9 : f.op = 9 := by bv_omega
    exact encode_of_guardUnused rfl (plainRequest_of_valOnly h9 hrsv) h rfl

end

/-- A word the decoder accepts is that of a well-formed request. -/
theorem encode_of_decodeRequest {r : Packet} {i : Instr} (h : decodeRequest r = .ok i) :
    i.wellFormed = true ∧ encode i = .request r := by
  simp only [decodeRequest] at h
  split_ifs at h with hab hcf hrsvA hrsvB
  · cases h
    exact ⟨hab, congrArg Encoded.request (reservedWord_extract r)⟩
  · cases h
    exact ⟨hcf, congrArg Encoded.request (reservedWord_extract r)⟩
  · have hop : (requestFields r).op.toNat < 10 := by
      simpa [hab, hcf] using reserved_or_op_lt (requestFields r).op
    simpa [requestWordOf_requestFields] using
      RequestFields.encode_of_select hop ⟨not_not.1 hrsvA, not_not.1 hrsvB⟩ h

/-- The decoder of request words and the encoder agree. -/
theorem decodeRequest_eq_ok {r : Packet} {i : Instr} :
    decodeRequest r = .ok i ↔ i.wellFormed = true ∧ encode i = .request r := by
  refine ⟨encode_of_decodeRequest, fun ⟨hwf, henc⟩ => ?_⟩
  have hi : i.isRequest = true := by simp [Instr.isRequest, henc]
  have hword : requestWord i = r := by simp [requestWord, henc]
  exact hword ▸ decodeRequest_requestWord hwf hi

end Sys2Proof
end

section
/-! The bytes of a record, both ways: the decoder reads back what `enc` writes, and the bytes offset by offset (R60,
R61). -/

namespace Sys2Proof

/-! ### The decoder of records -/

@[simp] theorem fromLe_singleton (b : Byte) : fromLe 8 [b] = b := by
  simp [fromLe, fromLeNat]

/-- A Clear record is the opcode byte and the payload that `parse` takes back (R60, R80). -/
theorem parseCommand_clear (color : Word32) : parseCommand 0x00#8 (le32 color) = .clear color := by
  simp [parseCommand, parseClear, List.take_of_length_le]

/-- A Rect record likewise (R61, R81). -/
theorem parseCommand_rect (layer : Byte) (color : Word32) (x y w h : Half) :
    parseCommand 0x01#8 (layer :: (le32 color ++ le16 x ++ le16 y ++ le16 w ++ le16 h)) =
      .rect layer color x y w h := by
  simp [parseCommand, parseRect, List.take_append, List.drop_append, List.take_of_length_le,
    List.drop_of_length_le]

/-- The decoder of records takes back the record of a command, whole. -/
theorem decode_encodeCommand (c : Command) : decode (.record (encodeCommand c)) = .ok c.toInstr := by
  have hrecord : decodeRecord (encodeCommand c) = .ok (c.toInstr, []) := by
    cases c with
    | clear color =>
      rw [encodeCommand, Machine.decodeRecord_whole (n := 5) rfl (by simp), parseCommand_clear]
    | rect layer color x y w h =>
      rw [encodeCommand, Machine.decodeRecord_whole (n := 14) rfl (by simp), parseCommand_rect]
  simp [decode, hrecord]

/-! ### Opcode bytes (R62, R63) -/

/-- The length of a record, by the number of its opcode byte. -/
theorem recordSize_toNat (op : Byte) :
    recordSize op = if op.toNat = 0 then some 5 else if op.toNat = 1 then some 14 else none := by
  simp [recordSize, ← BitVec.toNat_inj]

/-- From 0x02 up an opcode byte gives no length. -/
theorem recordSize_unrecognized {op : Byte} (h : 2 ≤ op.toNat) : recordSize op = none := by
  rw [recordSize_toNat, if_neg (by omega), if_neg (by omega)]

/-- Of an unrecognized record the opcode byte is the whole. -/
theorem decode_unrecognized {op : Byte} (h : isUnrecognized op = true) :
    decode (.record [op]) = .ok (.recUnrecognized op) := by
  simp [decode, decodeRecord, recordSize_unrecognized (of_decide_eq_true h)]

/-- A round that meets an opcode byte without a length stops with BAD_OPCODE (R62, R79). -/
theorem Machine.decodeRound_unrecognized {m : Machine.Memory} {s : Machine.State} {op : Byte}
    (hstop : s.dec.stop = none) (hpos : s.dec.pos < s.dec.len) (hread : Machine.Memory.read m s.dec.pos = some op)
    (hop : 2 ≤ op.toNat) : Machine.decodeRound m s = some (s.stopDecode .badOpcode) := by
  have hreason : Machine.stopReason s.cfg.fbcap s.dec none = some .badOpcode := by
    rw [Machine.stopReason, if_neg (by omega)]
  simp [Machine.decodeRound, Nat.not_le.2 hpos, hread, recordSize_unrecognized hop, Machine.State.takeRecord, hstop,
    hreason]

/-! ### Bytes by offset -/

/-- The bytes of a 16-bit field, least significant byte first (R35). -/
theorem le16_eq_extract (v : Half) : le16 v = [v.extractLsb' 0 8, v.extractLsb' 8 8] := by
  simp [le16, leBytes, ← BitVec.toNat_inj, Nat.shiftRight_eq_div_pow]

/-- The bytes of a color, least significant byte first (R35). -/
theorem le32_eq_extract (v : Word32) :
    le32 v = [v.extractLsb' 0 8, v.extractLsb' 8 8, v.extractLsb' 16 8, v.extractLsb' 24 8] := by
  simp [le32, leBytes, ← BitVec.toNat_inj, Nat.shiftRight_eq_div_pow, Nat.div_div_eq_div_mul]

end Sys2Proof
end

section
/-! The rows of the opcode table: a request word under the mask of a row, field by field (R55, R56, R59). -/

namespace Sys2Proof

/-! ### Words under a mask -/

/-- The fields of a word under a mask. -/
def RequestFields.and (f m : RequestFields) : RequestFields where
  op := f.op &&& m.op
  rsvA := f.rsvA &&& m.rsvA
  unit := f.unit &&& m.unit
  layer := f.layer &&& m.layer
  rsvB := f.rsvB &&& m.rsvB
  val := f.val &&& m.val
  x := f.x &&& m.x
  y := f.y &&& m.y
  w := f.w &&& m.w
  h := f.h &&& m.h

theorem requestFields_and (r m : Packet) : requestFields (r &&& m) = (requestFields r).and (requestFields m) := by
  simp [requestFields, RequestFields.and, BitVec.extractLsb'_and]

/-- A word under a mask is compared field by field. -/
theorem and_eq_iff_fields {r m v : Packet} :
    r &&& m = v ↔ (requestFields r).and (requestFields m) = requestFields v := by
  rw [← requestFields_and, requestFields_injective.eq_iff]

/-- A word whose masked fields are OP alone, compared field by field. -/
theorem and_eq_plainRequest_iff {r m : Packet} {op : BitVec 4} {f : RequestFields} (hmask : requestFields m = f) :
    r &&& m = plainRequest op 0 0 ↔ (requestFields r).and f = ⟨op, 0, 0, 0, 0, 0, 0, 0, 0, 0⟩ := by
  rw [and_eq_iff_fields, hmask, plainRequest, requestFields_requestWordOf]

/-- A mask of ones, given as a numeral. -/
theorem and_of_eq_allOnes {width : Nat} {v m : BitVec width} (h : m = BitVec.allOnes width) : v &&& m = v := by
  rw [h, BitVec.and_allOnes]

/-! ### The rows, by the fields that they use -/

section

variable {r : Packet} {op : BitVec 4}

/-- The mask of the rows that use UNIT and VAL. -/
theorem and_unitValMask_eq_iff :
    r &&& 0xffffffffffffffff00000000ffff00ff = plainRequest op 0 0 ↔ ∃ u v, plainRequest op u v = r := by
  have hmask : requestFields 0xffffffffffffffff00000000ffff00ff =
      ⟨0xf, 0xf, 0, 0xff, 0xff, 0, 0xffff, 0xffff, 0xffff, 0xffff⟩ := by decide
  rw [and_eq_plainRequest_iff hmask]
  simp only [plainRequest, requestWordOf_eq_iff]
  cases requestFields r
  simp [RequestFields.and, and_of_eq_allOnes]

/-- The mask of the rows that use UNIT alone. -/
theorem and_unitMask_eq_iff :
    r &&& 0xffffffffffffffffffffffffffff00ff = plainRequest op 0 0 ↔ ∃ u, plainRequest op u 0 = r := by
  have hmask : requestFields 0xffffffffffffffffffffffffffff00ff =
      ⟨0xf, 0xf, 0, 0xff, 0xff, 0xffffffff, 0xffff, 0xffff, 0xffff, 0xffff⟩ := by decide
  rw [and_eq_plainRequest_iff hmask]
  simp only [plainRequest, requestWordOf_eq_iff]
  cases requestFields r
  simp [RequestFields.and, and_of_eq_allOnes]

/-- The mask of the row that uses VAL alone. -/
theorem and_valMask_eq_iff :
    r &&& 0xffffffffffffffff00000000ffffffff = plainRequest op 0 0 ↔ ∃ v, plainRequest op 0 v = r := by
  have hmask : requestFields 0xffffffffffffffff00000000ffffffff =
      ⟨0xf, 0xf, 0xff, 0xff, 0xff, 0, 0xffff, 0xffff, 0xffff, 0xffff⟩ := by decide
  rw [and_eq_plainRequest_iff hmask]
  simp only [plainRequest, requestWordOf_eq_iff]
  cases requestFields r
  simp [RequestFields.and, and_of_eq_allOnes]

/-- The mask of the row that uses every field. -/
theorem and_rectMask_eq_iff :
    r &&& 0x000000000000000000000000ff0000ff = plainRequest op 0 0 ↔
      ∃ u l v x y w h, requestWordOf ⟨op, 0, u, l, 0, v, x, y, w, h⟩ = r := by
  have hmask : requestFields 0x000000000000000000000000ff0000ff = ⟨0xf, 0xf, 0, 0, 0xff, 0, 0, 0, 0, 0⟩ := by decide
  rw [and_eq_plainRequest_iff hmask]
  simp only [requestWordOf_eq_iff]
  cases requestFields r
  simp [RequestFields.and, and_of_eq_allOnes]

/-- A mask within OP compares OP alone. -/
theorem and_opMask_eq_iff {m : BitVec 4} :
    r &&& plainRequest m 0 0 = plainRequest op 0 0 ↔ r.extractLsb' 0 4 &&& m = op := by
  have hmask : requestFields (plainRequest m 0 0) = ⟨m, 0, 0, 0, 0, 0, 0, 0, 0, 0⟩ := requestFields_requestWordOf _
  rw [and_eq_plainRequest_iff hmask]
  simp [RequestFields.and, requestFields]

/-- The mask of the row of OP 0xA and 0xB. -/
theorem and_opABMask_eq_iff : r &&& 0xe = 0xa ↔ isOpAB (r.extractLsb' 0 4) = true :=
  have hop : ∀ op : BitVec 4, op &&& 0xe = 0xa ↔ isOpAB op = true := by decide
  (and_opMask_eq_iff (op := 0xa) (m := 0xe)).trans (hop _)

/-- The mask of the row of OP 0xC to 0xF. -/
theorem and_opCFMask_eq_iff : r &&& 0xc = 0xc ↔ isOpCF (r.extractLsb' 0 4) = true :=
  have hop : ∀ op : BitVec 4, op &&& 0xc = 0xc ↔ isOpCF op = true := by decide
  (and_opMask_eq_iff (op := 0xc) (m := 0xc)).trans (hop _)

/-- The words of a reserved row are those whose OP it names. -/
theorem exists_reservedWord_eq_iff {p : BitVec 4 → Bool} :
    (∃ op, ∃ rest : BitVec 124, p op = true ∧ place 0 op ||| place 4 rest = r) ↔ p (r.extractLsb' 0 4) = true := by
  constructor
  · rintro ⟨op, rest, hop, rfl⟩
    rwa [(reservedWord_fields op rest).1]
  · exact fun h => ⟨_, _, h, reservedWord_extract r⟩

end

end Sys2Proof

namespace Sys2Proof.Machine

/-- Settles O3: a word decodes to a row where it is the encoder's word of that row for some operands, and the row's mask
keeps all but those operands. -/
theorem tableRowsSelectTheirInstruction : Obligations.TableRowsSelectTheirInstruction := by
  intro r
  simp only [decodeRequest_eq_ok, Instr.wellFormed, encode, true_and, Encoded.request.injEq]
  exact ⟨and_unitValMask_eq_iff.symm, and_unitMask_eq_iff.symm, and_unitMask_eq_iff.symm, and_unitValMask_eq_iff.symm,
    and_rectMask_eq_iff.symm, and_unitMask_eq_iff.symm, and_unitMask_eq_iff.symm, and_unitMask_eq_iff.symm,
    and_unitValMask_eq_iff.symm, and_valMask_eq_iff.symm,
    exists_reservedWord_eq_iff.trans and_opABMask_eq_iff.symm,
    exists_reservedWord_eq_iff.trans and_opCFMask_eq_iff.symm⟩

end Sys2Proof.Machine
end

section
/-! The request words that are no operation (R59): the masks of the ten operations, and the fault of every other
word. -/

namespace Sys2Proof

/-- The rows of reserved OP values (R59). -/
def Instr.isReserved : Instr → Bool
  | .reservedOpAB _ _ => true
  | .reservedOpCF _ _ => true
  | _ => false

theorem Instr.isReserved_eq_false_iff {i : Instr} :
    i.isReserved = false ↔ (∀ op rest, i ≠ .reservedOpAB op rest) ∧ (∀ op rest, i ≠ .reservedOpCF op rest) := by
  cases i <;> simp [Instr.isReserved]

end Sys2Proof

namespace Sys2Proof.Machine

theorem or_and_left_self (a b : Packet) : (a ||| b) &&& a = a := by
  ext i
  simpa using Or.inl

/-- The mask of an OP's row: the bits it does not use, and OP itself. -/
def rowMask (op : Nat) : Packet := ~~~(usedBits op) ||| 0xf

/-- OP is the number of the low four bits (R54). -/
theorem and_opBits (r : Packet) : r &&& 0xf = BitVec.ofNat 128 (r.toNat % 16) := by
  apply BitVec.eq_of_toNat_eq
  rw [BitVec.toNat_and, BitVec.toNat_ofNat, show (0xf : Packet).toNat = 2 ^ 4 - 1 by rfl,
    Nat.and_two_pow_sub_one_eq_mod]
  omega

/-- An OP is within the bits that it uses. -/
theorem op_and_unusedBits : ∀ op < 10, BitVec.ofNat 128 op &&& ~~~(usedBits op) = 0 := by decide

/-- The words of an operation's row have its OP and no bit that it does not use. -/
theorem and_rowMask_eq_iff {r : Packet} {op : Nat} (hop : op < 10) :
    r &&& rowMask op = BitVec.ofNat 128 op ↔ r.toNat % 16 = op ∧ r &&& ~~~(usedBits op) = 0 := by
  constructor
  · intro h
    have hunused : r &&& ~~~(usedBits op) = 0 :=
      calc r &&& ~~~(usedBits op) = r &&& rowMask op &&& ~~~(usedBits op) := by
            rw [BitVec.and_assoc, rowMask, or_and_left_self]
        _ = 0 := by rw [h, op_and_unusedBits op hop]
    have hlow : BitVec.ofNat 128 (r.toNat % 16) = BitVec.ofNat 128 op :=
      calc BitVec.ofNat 128 (r.toNat % 16) = r &&& rowMask op &&& 0xf := by
            rw [← and_opBits, BitVec.and_assoc, rowMask, BitVec.or_comm, or_and_left_self]
        _ = BitVec.ofNat 128 op := by
            rw [h, and_opBits, BitVec.toNat_ofNat, Nat.mod_eq_of_lt (by omega : op < 2 ^ 128),
              Nat.mod_eq_of_lt (by omega)]
    have hnat := congrArg BitVec.toNat hlow
    simp only [BitVec.toNat_ofNat] at hnat
    exact ⟨by omega, hunused⟩
  · rintro ⟨hlow, hunused⟩
    rw [rowMask, BitVec.and_or_distrib_left, hunused, and_opBits, hlow]
    exact BitVec.zero_or

theorem not_illegalWord_iff {r : Packet} : ¬ illegalWord r ↔ ∃ op < 10, r &&& rowMask op = BitVec.ofNat 128 op := by
  simp only [illegalWord, not_or, not_le, not_not]
  constructor
  · exact fun ⟨hop, hunused⟩ => ⟨_, hop, (and_rowMask_eq_iff hop).2 ⟨rfl, hunused⟩⟩
  · rintro ⟨op, hop, h⟩
    obtain ⟨rfl, hunused⟩ := (and_rowMask_eq_iff hop).1 h
    exact ⟨hop, hunused⟩

/-- The words of the ten rows of operations are those that decode to one. -/
theorem exists_operation_iff_row {r : Packet} :
    (∃ i, decodeRequest r = .ok i ∧ i.isReserved = false) ↔ ∃ op < 10, r &&& rowMask op = BitVec.ofNat 128 op := by
  obtain ⟨hpush, hpop, hbegin, hclear, hrect, hseal, hsize, hdecode, hdecodeN, hread, -⟩ :=
    tableRowsSelectTheirInstruction r
  constructor
  · rintro ⟨i, h, hres⟩
    have hi := decodeRequest_isRequest h
    cases i with
    | push q v => exact ⟨0, by decide, hpush.1 ⟨q, v, h⟩⟩
    | pop q => exact ⟨1, by decide, hpop.1 ⟨q, h⟩⟩
    | encBegin b => exact ⟨2, by decide, hbegin.1 ⟨b, h⟩⟩
    | pushClear b c => exact ⟨3, by decide, hclear.1 ⟨b, c, h⟩⟩
    | pushRect b l c x y w z => exact ⟨4, by decide, hrect.1 ⟨b, l, c, x, y, w, z, h⟩⟩
    | encSeal b => exact ⟨5, by decide, hseal.1 ⟨b, h⟩⟩
    | encSize b => exact ⟨6, by decide, hsize.1 ⟨b, h⟩⟩
    | decode b => exact ⟨7, by decide, hdecode.1 ⟨b, h⟩⟩
    | decodeN b n => exact ⟨8, by decide, hdecodeN.1 ⟨b, n, h⟩⟩
    | fbRead n => exact ⟨9, by decide, hread.1 ⟨n, h⟩⟩
    | reservedOpAB | reservedOpCF => cases hres
    | recClear | recRect | recUnrecognized => cases hi
  · rintro ⟨op, hop, h⟩
    interval_cases op
    · obtain ⟨q, v, hdec⟩ := hpush.2 h
      exact ⟨_, hdec, rfl⟩
    · obtain ⟨q, hdec⟩ := hpop.2 h
      exact ⟨_, hdec, rfl⟩
    · obtain ⟨b, hdec⟩ := hbegin.2 h
      exact ⟨_, hdec, rfl⟩
    · obtain ⟨b, c, hdec⟩ := hclear.2 h
      exact ⟨_, hdec, rfl⟩
    · obtain ⟨b, l, c, x, y, w, z, hdec⟩ := hrect.2 h
      exact ⟨_, hdec, rfl⟩
    · obtain ⟨b, hdec⟩ := hseal.2 h
      exact ⟨_, hdec, rfl⟩
    · obtain ⟨b, hdec⟩ := hsize.2 h
      exact ⟨_, hdec, rfl⟩
    · obtain ⟨b, hdec⟩ := hdecode.2 h
      exact ⟨_, hdec, rfl⟩
    · obtain ⟨b, n, hdec⟩ := hdecodeN.2 h
      exact ⟨_, hdec, rfl⟩
    · obtain ⟨n, hdec⟩ := hread.2 h
      exact ⟨_, hdec, rfl⟩

/-- R59 says which words are an operation. -/
theorem exists_operation_iff {r : Packet} :
    (∃ i, decodeRequest r = .ok i ∧ i.isReserved = false) ↔ ¬ illegalWord r :=
  exists_operation_iff_row.trans not_illegalWord_iff.symm

/-- A reserved OP means ILLEGAL_REQUEST with its own word (R59, R91). -/
theorem exec_of_isReserved {i : Instr} (h : i.isReserved = true) (s : State) :
    exec i s = performIllegal (requestWord i) s := by
  cases i with
  | reservedOpAB | reservedOpCF => rfl
  | _ => cases h

/-- A word of R59 is performed as ILLEGAL_REQUEST, whether it decodes to a reserved row or to nothing. -/
theorem performWord_of_illegalWord {r : Packet} (h : illegalWord r) (s : State) :
    performWord r s = performIllegal r s := by
  cases hdec : decodeRequest r with
  | error e => simp [performWord, hdec]
  | ok i =>
    have hres : i.isReserved = true := by
      by_contra hop
      exact exists_operation_iff.1 ⟨i, hdec, Bool.eq_false_iff.2 hop⟩ h
    have hword : requestWord i = r := by
      simp [requestWord, (decodeRequest_eq_ok.1 hdec).2]
    rw [performWord_of_decode hdec, exec_of_isReserved hres, hword]

/-- ILLEGAL_REQUEST takes the fault entry of R102 and nothing else. -/
theorem performIllegal_eq_next {s : State} (hv : s.fault.valid = false) (r : Packet) :
    performIllegal r s = .next { s with fault := ⟨true, 1, if s.issuer = .consumer then 1 else 0, r⟩ } := by
  rw [performIllegal, perform_of_error hv]
  cases hs : s.issuer <;> simp [State.takeFault, State.setFault, hs, Agent.ident, Cause.code]

end Sys2Proof.Machine
end

section
/-! The assembler's numbers (R64, R65): an operand in its field's range is the field with that number. -/

namespace Sys2Proof.Machine

/-- An unsigned operand of any width. -/
theorem unsignedOperand_eq_some {width : Nat} {n : Numeral} {u : BitVec width} :
    unsignedOperand width n = some u ↔ (u.toNat : Int) = n.value := by
  have hlt : (u.toNat : Int) < 2 ^ width := by exact_mod_cast u.isLt
  simp only [unsignedOperand, Option.ite_none_right_eq_some, Option.some.injEq]
  constructor
  · rintro ⟨⟨hnonneg, hrange⟩, rfl⟩
    rw [BitVec.toNat_ofInt, Nat.cast_pow, Nat.cast_ofNat, Int.emod_eq_of_lt hnonneg hrange, Int.toNat_of_nonneg hnonneg]
  · intro h
    refine ⟨by omega, ?_⟩
    rw [← h, BitVec.ofInt_natCast, BitVec.ofNat_toNat, BitVec.setWidth_eq]

/-- A decimal operand of a signed field. -/
theorem signedOperand_decimal_eq_some {n : Int} {f : Half} :
    signedOperand (.decimal n) = some f ↔ -32768 ≤ n ∧ n ≤ 32767 ∧ f.toInt = n := by
  simp only [signedOperand, Option.ite_none_right_eq_some, Option.some.injEq, and_assoc]
  refine and_congr_right fun hlow => and_congr_right fun hhigh => ⟨?_, ?_⟩
  · rintro rfl
    exact BitVec.toInt_ofInt_eq_self (by omega) (by omega) (by omega)
  · rintro rfl
    exact BitVec.ofInt_toInt

/-- A hexadecimal operand of a signed field is the field's pattern. -/
theorem signedOperand_hex_eq_some {n : Nat} {f : Half} : signedOperand (.hex n) = some f ↔ f.toNat = n := by
  simp only [signedOperand, Option.ite_none_right_eq_some, Option.some.injEq]
  constructor
  · rintro ⟨hrange, rfl⟩
    exact Nat.mod_eq_of_lt hrange
  · rintro rfl
    exact ⟨f.isLt, BitVec.ofNat_toNat 16 f ▸ BitVec.setWidth_eq f⟩

end Sys2Proof.Machine
end

section
/-! The obligations of 30_encoding.md, settled. -/

namespace Sys2Proof.Machine

/-- Settles O1: a request's word is taken back field by field, a record's bytes payload by payload. -/
theorem decodeOfEncodeIsTheInstruction : Obligations.DecodeOfEncodeIsTheInstruction := by
  intro i hwf
  cases i with
  | recClear color => exact decode_encodeCommand (.clear color)
  | recRect layer color x y w h => exact decode_encodeCommand (.rect layer color x y w h)
  | recUnrecognized op => exact decode_unrecognized hwf
  | _ => exact (decode_encode_of_isRequest rfl).trans (decodeRequest_requestWord hwf rfl)

/-- Settles O2: every bit of an accepted word is in a field that its instruction keeps or that is checked to be 0. -/
theorem acceptedWordEncodesBack : Obligations.AcceptedWordEncodesBack := fun _ _ h =>
  have ⟨hwf, henc⟩ := decodeRequest_eq_ok.1 h
  ⟨hwf, decodeRequest_isRequest h, henc⟩

/-- Settles O4: a word of R59 is outside the ten rows of operations, and every other word is in one of them. -/
theorem illegalWordsFault : Obligations.IllegalWordsFault := by
  intro r s hv
  refine ⟨fun h => ?_, fun h => ?_⟩
  · rw [performWord_of_illegalWord h, performIllegal_eq_next hv]
  · obtain ⟨i, hdec, hres⟩ := exists_operation_iff.2 h
    exact ⟨i, hdec, (decodeRequest_eq_ok.1 hdec).2, Instr.isReserved_eq_false_iff.1 hres⟩

/-- Settles O6: the bytes are those `enc` writes, and the decoder takes back what `enc` writes. -/
theorem recordBytesStandAtTheirOffsets : Obligations.RecordBytesStandAtTheirOffsets := by
  intro layer color x y w h clearBytes rectBytes
  have hclear : encodeCommand (.clear color) = clearBytes := by
    rw [encodeCommand, le32_eq_extract]; rfl
  have hrect : encodeCommand (.rect layer color x y w h) = rectBytes := by
    simp only [encodeCommand, le32_eq_extract, le16_eq_extract]; rfl
  exact ⟨hclear, hclear ▸ decode_encodeCommand (.clear color), hrect,
    hrect ▸ decode_encodeCommand (.rect layer color x y w h)⟩

/-- Settles O7: such a byte has no record length, which is the check of R79 that stops the round. -/
theorem unrecognizedOpcodeStopsTheDecode : Obligations.UnrecognizedOpcodeStopsTheDecode := by
  refine ⟨fun m s op hstop hpos hread hop => ?_, recordSize_toNat, fun c => ?_⟩
  · exact decodeRound_unrecognized hstop hpos hread hop
  · cases c <;> exact ⟨_, _, rfl, rfl⟩

/-- Settles O32: both rows mean ILLEGAL_REQUEST whatever their OP field, and their word keeps OP and the bits above. -/
theorem reservedOpsFault : Obligations.ReservedOpsFault := by
  refine fun s op rest hv =>
    ⟨faultsWith_of_error (c := .illegalRequest) rfl hv rfl, faultsWith_of_error (c := .illegalRequest) rfl hv rfl, ?_⟩
  rintro r (rfl | rfl) <;> exact reservedWord_fields op rest

/-- Settles O60: in its range an operand is its field's number, and only the operand with that number gives the
field. -/
theorem assembledOperandsKeepTheirNumbers : Obligations.AssembledOperandsKeepTheirNumbers :=
  ⟨fun _ _ => signedOperand_decimal_eq_some, fun _ _ => signedOperand_hex_eq_some,
    fun _ _ => unsignedOperand_eq_some, fun _ _ => unsignedOperand_eq_some⟩

/-- Settles O5: each word and record is evaluated. -/
theorem specWordsDecode : Obligations.SpecWordsDecode := by
  refine ⟨?_, ?_, ?_, ?_, ?_, ?_, ?_, ?_⟩ <;> decide

/-- Settles O8: no two fields of the response word share a bit, and none reaches into the gaps. -/
theorem responseFieldsStandAtTheirBits : Obligations.ResponseFieldsStandAtTheirBits := by
  intro r
  have hok : okBit r.ok = if r.ok then 1 else 0 := by cases r.ok <;> rfl
  simp [Response.word, hok, extract_or, extract_place, extract_place_below, extract_place_above]

end Sys2Proof.Machine
end

section
/-! The values in a queue (`contents(q)`, R19) beside its row of slots: in a queue in shape every slot of the row is
written, and what PUSH and POP do to the row they do to the values. -/

namespace Sys2Proof.Machine

/-- Where every slot that `contents(q)` names is written, the contents are the values of the row. -/
theorem Queue.contents_eq_entries {cap : Nat} {Q : Queue} (hcap : legalCap cap = true) (h : Q.ok cap = true) :
    Q.contents cap = ((Q.entries cap).map Slot.val).map some := by
  obtain ⟨-, -, -, -, hwritten⟩ := Queue.ok_iff.1 h
  simp only [Queue.contents, Queue.entries, List.mem_map, forall_exists_index, and_imp, forall_apply_eq_imp_iff₂,
    List.map_map, and_mask hcap] at hwritten ⊢
  refine List.map_congr_left fun i hi => ?_
  obtain ⟨slot, hslot⟩ := Option.isSome_iff_exists.1 (Option.isSome_map.symm.trans (hwritten i hi))
  simp [Queue.slot, hslot]

/-- Queue `q` has a legal slot count and is in shape (R7, R16 to R19): a ring in range, its entries written. -/
structure State.QueueOk (s : State) (q : Nat) : Prop where
  legal : legalCap (s.cap q) = true
  ok : (s.queue q).ok (s.cap q) = true

theorem State.queueOk_of_inv {s : State} {q : Nat} (h : s.inv = true) (hq : q < s.cfg.nq) : s.QueueOk q :=
  ⟨State.legalCap_of_inv h hq, State.queue_ok_of_inv h hq⟩

theorem State.QueueOk.ring {s : State} {q : Nat} (h : s.QueueOk q) : s.Ring q := by
  obtain ⟨hhead, htail, -⟩ := Queue.ok_iff.1 h.ok
  exact ⟨h.legal, hhead, htail⟩

theorem State.QueueOk.contents_eq {s : State} {q : Nat} (h : s.QueueOk q) :
    s.contents q = ((s.entries q).map Slot.val).map some := Queue.contents_eq_entries h.legal h.ok

theorem State.QueueOk.congr {s t : State} {q : Nat} (h : s.QueueOk q) (hcap : t.cap q = s.cap q)
    (hq : t.queue q = s.queue q) : t.QueueOk q :=
  ⟨by rw [hcap]; exact h.legal, by rw [hcap, hq]; exact h.ok⟩

theorem State.QueueOk.respond {s : State} {q : Nat} (h : s.QueueOk q) (r : Response) : (s.respond r).QueueOk q :=
  h.congr (State.cap_respond _ _ _) (State.queue_respond _ _ _)

theorem State.QueueOk.setIssuer {s : State} {q : Nat} (h : s.QueueOk q) (a : Agent) : (s.setIssuer a).QueueOk q :=
  h.congr rfl rfl

theorem State.QueueOk.pushOn {s : State} {n q : Nat} (h : s.QueueOk n) (v : Word32)
    (hfull : (s.queue q).full (s.cap q) = false) : (s.pushOn q v).QueueOk n := by
  by_cases heq : n = q
  · subst heq
    exact ⟨by simpa using h.legal, by simpa using Queue.ok_enqueue h.legal h.ok hfull⟩
  · exact h.congr (by simp) (by simp [heq])

theorem State.QueueOk.popOff {s : State} {n q : Nat} (h : s.QueueOk n) (hempty : (s.queue q).empty = false) :
    (s.popOff q).QueueOk n := by
  by_cases heq : n = q
  · subst heq
    exact ⟨by simpa using h.legal, by simpa using Queue.ok_dequeue h.legal h.ok hempty⟩
  · exact h.congr (by simp) (by simp [heq])

theorem State.contents_congr {s t : State} {q : Nat} (hcap : t.cap q = s.cap q) (hq : t.queue q = s.queue q) :
    t.contents q = s.contents q := by
  rw [State.contents, hcap, hq, State.contents]

@[simp] theorem State.contents_respond (s : State) (r : Response) (q : Nat) :
    (s.respond r).contents q = s.contents q :=
  State.contents_congr (State.cap_respond _ _ _) (State.queue_respond _ _ _)

theorem State.contents_pushOn_ne {s : State} {q n : Nat} {v : Word32} (h : n ≠ q) :
    (s.pushOn q v).contents n = s.contents n := State.contents_congr (by simp) (by simp [h])

theorem State.contents_popOff_ne {s : State} {q n : Nat} (h : n ≠ q) : (s.popOff q).contents n = s.contents n :=
  State.contents_congr (by simp) (by simp [h])

/-- A PUSH puts its value behind the contents (R69). -/
theorem State.QueueOk.contents_pushOn {s : State} {q : Nat} (h : s.QueueOk q) (v : Word32)
    (hfull : (s.queue q).full (s.cap q) = false) : (s.pushOn q v).contents q = s.contents q ++ [some v] := by
  rw [(h.pushOn v hfull).contents_eq, State.entries_pushOn h.ring hfull, List.map_append, List.map_append,
    ← h.contents_eq, List.map_singleton, List.map_singleton]

/-- A POP takes the front of the contents, and its value is the front slot's (R69). -/
theorem State.QueueOk.contents_popOff {s : State} {q : Nat} (h : s.QueueOk q) (hempty : (s.queue q).empty = false) :
    s.contents q = some (s.queue q).front.val :: (s.popOff q).contents q := by
  rw [h.contents_eq, State.entries_popOff h.ring hempty, List.map_cons, List.map_cons,
    ← (h.popOff hempty).contents_eq]

/-- A queue with contents is not empty. -/
theorem State.Ring.empty_eq_false_of_contents {s : State} {q : Nat} (h : s.Ring q) (hne : s.contents q ≠ []) :
    (s.queue q).empty = false :=
  h.empty_eq_false fun hnil => hne (List.length_eq_zero_iff.1 (by rw [← State.entries_length, hnil, List.length_nil]))

end Sys2Proof.Machine
end

section
/-! The queue requests that change nothing, and the frame of the ones that do: a queue, the issuer's clock and the
issuer's answer are all that is written. -/

namespace Sys2Proof.Machine

/-- A PUSH on a full queue, by its pusher. -/
theorem exec_push_of_full {s : State} {q : Byte} (v : Word32) (hv : s.fault.valid = false) (hq : q.toNat < s.cfg.nq)
    (hport : s.issuer = (s.cfg.queue q.toNat).pusher) (hfull : (s.queue q.toNat).full (s.cap q.toNat) = true) :
    exec (.push q v) s = .next (s.respond (pushResponse false)) :=
  exec_request_ok rfl hv (pushEffect_eq_ok.2 ⟨hq, hport, .inl ⟨hfull, rfl⟩⟩)

/-- A POP of an empty queue, by its popper. -/
theorem exec_pop_of_empty {s : State} {q : Byte} (hv : s.fault.valid = false) (hq : q.toNat < s.cfg.nq)
    (hport : s.issuer = (s.cfg.queue q.toNat).popper) (hempty : (s.queue q.toNat).empty = true) :
    exec (.pop q) s = .next (s.respond popEmptyResponse) :=
  exec_request_ok rfl hv (popEffect_eq_ok.2 ⟨hq, hport, .inl ⟨hempty, rfl⟩⟩)

/-- What a queue request that writes one queue and the issuer's clock leaves alone, its answer given. -/
def queueRequestFrame (q : Nat) (s t : State) (r : Packet) : Prop :=
  answers s t r ∧ sameQueuesBut q s t ∧ sameBufs s t ∧ sameBytes s t ∧ t.fb = s.fb ∧ t.fault = s.fault ∧
  sameOwn s t

theorem queueRequestFrame_setQueue_setVc (s : State) (q : Nat) (Q : Queue) (a : Agent) (k : Clock) (r : Response) :
    queueRequestFrame q s (((s.setQueue q Q).setVc a k).respond r) r.word := by
  refine ⟨answers_respond s _ r (by simp) fun x => by simp, fun n hn => by simp [hn], fun n => by simp,
    fun n i => by simp, ?_⟩
  simp [sameOwn]

theorem queueRequestFrame_pushOn (s : State) (q : Nat) (v : Word32) (r : Response) :
    queueRequestFrame q s ((s.pushOn q v).respond r) r.word :=
  queueRequestFrame_setQueue_setVc s q _ _ _ r

theorem queueRequestFrame_popOff (s : State) (q : Nat) (r : Response) :
    queueRequestFrame q s ((s.popOff q).respond r) r.word := by
  rw [State.popOff, ← State.setVc_setQueue]
  exact queueRequestFrame_setQueue_setVc s q _ _ _ r

end Sys2Proof.Machine
end

section
/-! The values pushed and popped along a run, beside its slots, and the state that a row of requests ends in. -/

namespace Sys2Proof.Machine

theorem Event.map_val_slotPushed (q : Nat) (e : Event) : (e.slotPushed q).map Slot.val = e.pushed q := by
  simp [Event.slotPushed, Function.comp_def]

theorem Event.map_val_slotPopped (q : Nat) (e : Event) : (e.slotPopped q).map Slot.val = e.popped q := by
  unfold Event.slotPopped Event.popped
  split
  · split <;> rfl
  · rfl

/-- The values pushed are those of the slots pushed, in order. -/
theorem map_val_filterMap_slotPushed (q : Nat) (es : List Event) :
    (es.filterMap (Event.slotPushed q)).map Slot.val = es.filterMap (Event.pushed q) := by
  simp only [List.map_filterMap, Event.map_val_slotPushed]

/-- The values popped are those of the slots popped, in order. -/
theorem map_val_filterMap_slotPopped (q : Nat) (es : List Event) :
    (es.filterMap (Event.slotPopped q)).map Slot.val = es.filterMap (Event.popped q) := by
  simp only [List.map_filterMap, Event.map_val_slotPopped]

/-- An event keeps a queue in shape. -/
theorem Event.Performed.queueOk {e : Event} {q : Nat} (h : e.Performed) (hok : e.before.QueueOk q) :
    e.after.QueueOk q := by
  rcases e.pushes_or_pops_or_neither with ⟨n, v, hpush⟩ | ⟨n, slot, hpop⟩ | ⟨hpush, hpop⟩
  · obtain ⟨-, -, hfull, hafter⟩ := h.of_pushed hpush
    rw [hafter]
    exact (hok.pushOn v hfull).respond _
  · obtain ⟨-, -, hempty, -, hafter⟩ := h.of_slotPopped hpop
    rw [hafter]
    exact (hok.popOff hempty).respond _
  · obtain ⟨hqueues, -⟩ := h.same hpush hpop
    exact hok.congr (by rw [State.cap, h.cfg, State.cap]) (hqueues q)

theorem IsRun.queueOk {s : State} {es : List Event} (h : IsRun s es) {q : Nat} (hok : s.QueueOk q) {j : Nat}
    (hj : j ≤ es.length) : (stateAt s es j).QueueOk q := by
  refine h.induction (P := fun _ t => t.QueueOk q) hok (fun _ he hbefore ht => he.queueOk ?_) hj
  rw [hbefore]
  exact ht.setIssuer _

/-- A row of requests ends in the state behind its last event. -/
theorem stateAt_length_of_runRequests {rs : List (Agent × Instr)} {s t : State} {es : List Event}
    (hes : eventsOf rs s = some es) (ht : runRequests rs s = some t) : stateAt s es es.length = t := by
  induction rs generalizing s es with
  | nil =>
    cases hes
    cases ht
    rfl
  | cons r rs ih =>
    obtain ⟨a, i⟩ := r
    obtain ⟨u, fs, hexec, -, hfs, rfl⟩ := eventsOf_cons_eq_some.1 hes
    obtain ⟨u', hexec', -, hrun⟩ := runRequests_cons_eq_some.1 ht
    obtain rfl : u = u' := Host.Outcome.next.inj (hexec.symm.trans hexec')
    rw [List.length_cons, stateAt_cons le_rfl]
    exact ih hfs hrun

/-- The FIFO law along a run, in values: what a queue held and what was pushed is what was popped and what it holds
(R69). -/
theorem IsRun.fifo_contents {s : State} {es : List Event} (h : IsRun s es) {q : Nat} (hok : s.QueueOk q) :
    s.contents q ++ (es.filterMap (Event.pushed q)).map some =
      (es.filterMap (Event.popped q)).map some ++ (stateAt s es es.length).contents q := by
  have hslots := h.fifo hok.ring le_rfl
  rw [List.take_length] at hslots
  rw [hok.contents_eq, (h.queueOk hok le_rfl).contents_eq, ← map_val_filterMap_slotPushed,
    ← map_val_filterMap_slotPopped]
  simpa only [List.map_append] using congrArg (fun slots => (slots.map Slot.val).map some) hslots

end Sys2Proof.Machine
end

section
/-! The obligations of 40_ring_queue.md, settled. -/

namespace Sys2Proof.Machine

/-- Settles O16: the FIFO law of slots along a run, read as values, since every queue stays in shape. -/
theorem fifoLawOverRuns : Obligations.FifoLawOverRuns := by
  intro s t rs es q hinv hq hes ht
  rw [← stateAt_length_of_runRequests hes ht]
  exact (isRun_of_eventsOf hes).fifo_contents (State.queueOk_of_inv hinv hq)

/-- Settles O12: `full` is the test of R67, and a release writes one slot, one head and one clock. -/
theorem pushEnqueuesOrReportsFull : Obligations.PushEnqueuesOrReportsFull := by
  intro s q v hv hq hport Q next a
  refine ⟨fun hnext => ?_, fun hnext => ?_⟩
  · have hfull : (s.queue q.toNat).full (s.cap q.toNat) = true := beq_iff_eq.2 hnext
    exact ⟨_, exec_push_of_full v hv hq hport hfull, onlyAnswers_respond s _⟩
  · have hfull : (s.queue q.toNat).full (s.cap q.toNat) = false := beq_eq_false_iff_ne.2 hnext
    have hqueue : ((s.pushOn q.toNat v).respond (pushResponse true)).queue q.toNat =
        Q.enqueue (s.cap q.toNat) v (s.vc a) := by simp [Q, a]
    have hown : ((s.pushOn q.toNat v).respond (pushResponse true)).vc a = (s.vc a).set a (s.epoch a + 1) := by
      rw [State.vc_respond, State.vc_pushOn_self rfl]
    refine ⟨_, exec_push_of_not_full v hv hq hport hfull, ?_, ?_, fun i => ?_, ?_, ?_, ?_,
      queueRequestFrame_pushOn s q.toNat v (pushResponse true)⟩
    · rw [hqueue]; rfl
    · rw [hqueue]; rfl
    · rw [hqueue, Queue.enqueue_slots, Sparse.get_put]
    · rw [hown, Clock.get_set, State.epoch]
    · rw [hown, Clock.get_set_other]
    · rw [State.vc_respond, State.vc_pushOn_other rfl]

/-- Settles O13: `empty` is the test of R68, and an acquire writes one tail and one clock. -/
theorem popDequeuesOrReportsEmpty : Obligations.PopDequeuesOrReportsEmpty := by
  intro s q hv hq hport Q a
  refine ⟨fun heq => ?_, fun slot hne hslot => ?_⟩
  · exact ⟨_, exec_pop_of_empty hv hq hport (beq_iff_eq.2 heq), onlyAnswers_respond s _⟩
  · have hempty : (s.queue q.toNat).empty = false := beq_eq_false_iff_ne.2 hne
    have hfront : (s.queue q.toNat).front = slot := by rw [Queue.front, hslot, Option.getD_some]
    refine ⟨_, exec_pop_of_not_empty hv hq hport hempty, ?_, fun x => ?_, ?_,
      hfront ▸ queueRequestFrame_popOff s q.toNat _⟩
    · rw [State.queue_respond, State.queue_popOff, if_pos rfl]; rfl
    · rw [State.vc_respond, State.vc_popOff_self rfl, Clock.get_join, hfront]
    · rw [State.vc_respond, State.vc_popOff_other rfl]

/-- Settles O14: release and acquire of a queue in shape, read as what they do to its contents. -/
theorem pushAndPopAreFirstInFirstOut : Obligations.PushAndPopAreFirstInFirstOut := by
  intro s q hinv hv hq
  have hok := State.queueOk_of_inv hinv hq
  refine ⟨fun v hport hroom => ?_, fun hport hne => ?_⟩
  · have hfull := hok.ring.full_eq_false (lt_of_le_of_ne (State.contents_length_le hinv hq) hroom)
    refine ⟨_, exec_push_of_not_full v hv hq hport hfull, ?_, fun n hn => ?_⟩
    · rw [State.contents_respond, hok.contents_pushOn v hfull]
    · rw [State.contents_respond, State.contents_pushOn_ne hn]
  · have hempty := hok.ring.empty_eq_false_of_contents hne
    refine ⟨_, _, exec_pop_of_not_empty hv hq hport hempty, ?_, State.resp_respond _ (by simp), fun n hn => ?_⟩
    · rw [State.contents_respond, hok.contents_popOff hempty]
    · rw [State.contents_respond, State.contents_popOff_ne hn]

end Sys2Proof.Machine
end

section
/-! The encoder requests, forwards: where the checks hold, the next state is the change of one buffer that the request
stands for and the answer with its cursor (R58, R72 to R76); what such a state keeps of the old one. -/

namespace Sys2Proof.Machine

/-! ### Behind the checks -/

/-- A buffer request runs its own effect where its buffer exists, its port is open and no access conflicts (R100). -/
theorem onBuffer_of_not_conflicts {b : Nat} {wired : Bool} {kind : AccessKind} {s : State}
    {k : State → Except Cause State} (hb : b < s.cfg.nbuf) (hport : wired = true)
    (h : ¬ conflicts s s.issuer b kind) : onBuffer b wired kind s k = k (s.accessed b kind) := by
  have hrace : (s.buf b).races s.issuer (s.vc s.issuer) kind = false := by
    rwa [conflicts_iff, Bool.not_eq_true] at h
  simp [onBuffer, require, hb, hport, hrace, State.accessed]

/-- A request of the encoder's writing port runs its own effect for P (R93). -/
theorem onBuffer_of_producer {b : Nat} {s : State} {k : State → Except Cause State} (hb : b < s.cfg.nbuf)
    (hs : s.issuer = .producer) (h : ¬ conflicts s s.issuer b .write) :
    onBuffer b s.byProducer .write s k = k (s.accessed b .write) :=
  onBuffer_of_not_conflicts hb (decide_eq_true hs) h

/-- The requests that append a record share one effect (R73, R74). -/
theorem requestEffect_of_appendedRecord {i : Instr} {b : Nat} {c : Command} (h : appendedRecord i = some (b, c))
    (s : State) : requestEffect i s = onBuffer b s.byProducer .write s (appendRecord b c) := by
  cases i <;> cases h <;> rfl

theorem isRequest_of_bufferAccess {i : Instr} {b : Nat} {kind : AccessKind} (h : bufferAccess i = some (b, kind)) :
    i.isRequest = true := by
  cases i <;> cases h <;> rfl

/-- An encoder request that passes the checks makes its change of the buffer and answers with the cursor, the converse
of `Completes.changes`. -/
theorem exec_of_bufferChange {i : Instr} {b : Nat} {kind : AccessKind} {s : State} {B : Buffer}
    (hi : bufferAccess i = some (b, kind)) (hv : s.fault.valid = false) (hb : b < s.cfg.nbuf)
    (hport : kind = .write → s.issuer = .producer) (hfree : ¬ conflicts s s.issuer b kind)
    (hB : BufferChange s.cfg.bufcap (s.noted b kind) i B) :
    exec i s = .next ((s.setBuf b B).respond (cursorResponse B.cursor)) := by
  refine exec_request_ok (isRequest_of_bufferAccess hi) hv ?_
  cases hB with
  | begins =>
    cases hi
    rw [requestEffect, encBeginEffect, unitNumber, onBuffer_of_producer hb (hport rfl) hfree,
      State.buf_accessed_self, State.accessed_eq, State.setBuf_setBuf]
  | appends happ hopen hfit =>
    cases hi.symm.trans (bufferAccess_of_appendedRecord happ)
    rw [requestEffect_of_appendedRecord happ, onBuffer_of_producer hb (hport rfl) hfree, appendRecord_eq_ok,
      State.buf_accessed_self, State.accessed_eq, State.setBuf_setBuf]
    exact ⟨hopen, hfit, rfl⟩
  | seals =>
    cases hi
    rw [requestEffect, encSealEffect, unitNumber, onBuffer_of_producer hb (hport rfl) hfree,
      State.buf_accessed_self, State.accessed_eq, State.setBuf_setBuf]
  | sizes =>
    cases hi
    rw [requestEffect, encSizeEffect, unitNumber, onBuffer_of_not_conflicts hb rfl hfree,
      State.buf_accessed_self, State.accessed_eq]

/-! ### What is kept -/

/-- What a request that writes one buffer leaves alone, its answer given. -/
def bufferRequestFrame (b : Nat) (s t : State) (r : Packet) : Prop :=
  sameBufsBut b s t ∧ sameQueues s t ∧ sameClocks s t ∧ t.fb = s.fb ∧ t.fault = s.fault ∧ sameOwn s t ∧
  answers s t r

theorem bufferRequestFrame_setBuf (s : State) (b : Nat) (B : Buffer) (r : Response) :
    bufferRequestFrame b s ((s.setBuf b B).respond r) r.word := by
  refine ⟨fun n hn => by simp [hn], fun q => by simp, fun a => by simp, by simp, by simp, by simp [sameOwn], ?_⟩
  exact answers_respond s _ r (by simp) fun a => by simp

theorem State.buf_setBuf_respond (s : State) (b : Nat) (B : Buffer) (r : Response) :
    ((s.setBuf b B).respond r).buf b = B := by simp

/-- Replacing a buffer by one with the same bytes changes no byte. -/
theorem sameBytes_setBuf {s : State} {b : Nat} {B : Buffer} (r : Response) (h : B.bytes = (s.buf b).bytes) :
    sameBytes s ((s.setBuf b B).respond r) := fun n i => by
  rw [State.byte_respond, State.byte_setBuf]
  split
  next hn => rw [h, hn, State.byte]
  next => rfl

@[simp] theorem State.noted_bytes (s : State) (b : Nat) (kind : AccessKind) :
    (s.noted b kind).bytes = (s.buf b).bytes := Buffer.noteAccess_bytes _ _ _ _

@[simp] theorem State.noted_cursor (s : State) (b : Nat) (kind : AccessKind) :
    (s.noted b kind).cursor = (s.buf b).cursor := Buffer.noteAccess_cursor _ _ _ _

@[simp] theorem State.noted_writable (s : State) (b : Nat) (kind : AccessKind) :
    (s.noted b kind).writable = (s.buf b).writable := (Buffer.noteAccess_content _ _ _ _).2.2

/-- A write by P is noted with P's epoch, and the reads before it are forgotten (R46). -/
theorem State.noted_write_of_producer {s : State} (h : s.issuer = .producer) (b : Nat) :
    s.noted b .write = { s.buf b with lastWrite := some (.producer, s.vcP.p), lastRead := ⟨0, 0⟩ } := by
  rw [State.noted, h]
  rfl

/-! ### An appended record -/

/-- What appending the bytes `bs` to buffer `b` makes of a state: the bytes at the old cursor and every other byte as
before, the cursor behind them, P's write noted, and the new cursor answered (R71, R73, R74). -/
def bytesAppended (b : Nat) (bs : List Byte) (s t : State) : Prop :=
  (∀ n i, t.byte n i =
    if n = b ∧ (s.buf b).cursor ≤ i ∧ i < (s.buf b).cursor + bs.length then bs[i - (s.buf b).cursor]?
    else s.byte n i) ∧
  (t.buf b).cursor = (s.buf b).cursor + bs.length ∧ (t.buf b).writable = true ∧
  (t.buf b).lastWrite = some (.producer, s.vcP.p) ∧ (t.buf b).lastRead = ⟨0, 0⟩ ∧
  bufferRequestFrame b s t (cursorResponse ((s.buf b).cursor + bs.length)).word

/-- Bytes written into one buffer stand there, and every other byte of every buffer is as before. -/
theorem State.byte_setBuf_writeBytes {s : State} {b n i off : Nat} {bs : List Byte} {B : Buffer}
    (h : B.bytes = Memory.writeBytes (s.buf b).bytes off bs) :
    (s.setBuf b B).byte n i = if n = b ∧ off ≤ i ∧ i < off + bs.length then bs[i - off]? else s.byte n i := by
  rw [State.byte_setBuf, h, Memory.read_writeBytes]
  by_cases hn : n = b
  · subst hn
    simp [State.byte]
  · simp [hn]

/-- A record request of P into an open window, where the record fits, appends the bytes of its record. -/
theorem exec_appends_record {i : Instr} {b : Nat} {c : Command} {s : State} (hi : appendedRecord i = some (b, c))
    (hv : s.fault.valid = false) (hb : b < s.cfg.nbuf) (hs : s.issuer = .producer)
    (hfree : ¬ conflicts s .producer b .write) (hopen : (s.buf b).writable = true)
    (hfit : (s.buf b).cursor + commandSize c ≤ s.cfg.bufcap) :
    ∃ t, exec i s = .next t ∧ bytesAppended b (encodeCommand c) s t := by
  have hchange : BufferChange s.cfg.bufcap (s.noted b .write) i _ :=
    .appends hi (by simpa using hopen) (by simpa using hfit)
  refine ⟨_, exec_of_bufferChange (bufferAccess_of_appendedRecord hi) hv hb (fun _ => hs) (hs.symm ▸ hfree) hchange,
    fun n j => ?_, ?_⟩
  · simp only [State.byte_respond, State.noted_bytes, State.noted_cursor]
    exact State.byte_setBuf_writeBytes rfl
  · rw [encodeCommand_length, State.buf_setBuf_respond, State.noted_cursor, State.noted_write_of_producer hs]
    exact ⟨rfl, hopen, rfl, rfl, bufferRequestFrame_setBuf s b _ _⟩

end Sys2Proof.Machine
end

section
/-! The obligations of 41_encoder.md, settled. -/

namespace Sys2Proof.Machine

/-- Settles O17: the window opened in the buffer with P's write noted. -/
theorem encBeginOpensTheBuffer : Obligations.EncBeginOpensTheBuffer := by
  intro s b hv hb hs hfree
  refine ⟨_, exec_of_bufferChange rfl hv hb (fun _ => hs) (hs.symm ▸ hfree) .begins, ?_,
    sameBytes_setBuf _ (State.noted_bytes s _ _), bufferRequestFrame_setBuf s _ _ _⟩
  rw [State.buf_setBuf_respond, State.noted_write_of_producer hs]

/-- Settles O18: an appended record, whose bytes are those of a Clear. -/
theorem pushClearAppendsFiveBytes : Obligations.PushClearAppendsFiveBytes := by
  intro s b color hv hb hs hfree B hopen hfit
  obtain ⟨hbytes, -⟩ := recordBytesStandAtTheirOffsets 0 color 0 0 0 0
  have happend := exec_appends_record (i := .pushClear b color) rfl hv hb hs hfree hopen hfit
  rwa [hbytes] at happend

/-- Settles O19: an appended record, whose bytes are those of a Rect. -/
theorem pushRectAppendsFourteenBytes : Obligations.PushRectAppendsFourteenBytes := by
  intro s b layer color x y w h hv hb hs hfree B hopen hfit
  obtain ⟨-, -, hbytes, -⟩ := recordBytesStandAtTheirOffsets layer color x y w h
  have happend := exec_appends_record (i := .pushRect b layer color x y w h) rfl hv hb hs hfree hopen hfit
  rwa [hbytes] at happend

/-- Settles O20: the window closed in the buffer with P's write noted. -/
theorem encSealClosesTheBuffer : Obligations.EncSealClosesTheBuffer := by
  intro s b hv hb hs hfree
  have hcursor := State.noted_cursor s b.toNat .write
  refine ⟨_, exec_of_bufferChange rfl hv hb (fun _ => hs) (hs.symm ▸ hfree) .seals, ?_,
    sameBytes_setBuf _ (State.noted_bytes s _ _), ?_⟩
  · rw [State.buf_setBuf_respond, State.noted_write_of_producer hs]
  · rw [← hcursor]
    exact bufferRequestFrame_setBuf s _ _ _

/-- Settles O21: the buffer with the issuer's read noted, whichever agent issues. -/
theorem encSizeReportsTheCursor : Obligations.EncSizeReportsTheCursor := by
  intro s b hv hb hfree
  have hcursor := State.noted_cursor s b.toNat .read
  refine ⟨_, exec_of_bufferChange rfl hv hb nofun hfree .sizes, State.buf_setBuf_respond s _ _ _,
    sameBytes_setBuf _ (State.noted_bytes s _ _), ?_⟩
  rw [← hcursor]
  exact bufferRequestFrame_setBuf s _ _ _

end Sys2Proof.Machine
end

section
/-! The bytes that a decode reads, record by record: the front of a byte sequence and the rest, and the record that
stands at a place of a buffer (R11, R63, R79). -/

namespace Sys2Proof.Machine

/-! ### Byte sequences, front and rest -/

/-- `BufRead` of a sequence is `BufRead` of its front and of what stands behind it (R11). -/
theorem Memory.readBytes_take_drop {m : Memory} {i n k : Nat} {bs : List Byte} (hk : k ≤ n)
    (h : Memory.readBytes m i n = some bs) :
    Memory.readBytes m i k = some (bs.take k) ∧ Memory.readBytes m (i + k) (n - k) = some (bs.drop k) := by
  obtain ⟨hlen, hread⟩ := (Memory.readBytes_eq_some m i n bs).1 h
  refine ⟨(Memory.readBytes_eq_some ..).2 ⟨by simp; omega, fun j hj => ?_⟩,
    (Memory.readBytes_eq_some ..).2 ⟨by simp; omega, fun j hj => ?_⟩⟩
  · rw [List.getElem?_take_of_lt hj, hread j (by omega)]
  · rw [List.getElem?_drop, Nat.add_assoc, hread (k + j) (by omega)]

theorem Memory.read_of_readBytes_cons {m : Memory} {i n : Nat} {b : Byte} {bs : List Byte}
    (h : Memory.readBytes m i n = some (b :: bs)) : Memory.read m i = some b := by
  obtain ⟨hlen, hread⟩ := (Memory.readBytes_eq_some m i n _).1 h
  exact hread 0 (hlen ▸ Nat.succ_pos _)

/-! ### The decoder of records, case by case (R62, R63) -/

theorem recordSize_pos {op : Byte} {size : Nat} (h : recordSize op = some size) : 0 < size := by
  rcases recordSize_eq h with rfl | rfl <;> decide

theorem decodeRecord_of_no_size {op : Byte} {rest : List Byte} (h : recordSize op = none) :
    decodeRecord (op :: rest) = .ok (.recUnrecognized op, rest) := by
  simp [decodeRecord, h]

theorem decodeRecord_of_short {op : Byte} {rest : List Byte} {size : Nat} (h : recordSize op = some size)
    (hlen : rest.length + 1 < size) : decodeRecord (op :: rest) = .error (.truncatedRecord op) := by
  simp only [decodeRecord, h]
  rw [if_pos (by omega)]

/-- The whole record is at the front, and the rest is what stands behind it. -/
theorem decodeRecord_of_fits {op : Byte} {rest : List Byte} {size : Nat} (h : recordSize op = some size)
    (hlen : size ≤ rest.length + 1) :
    decodeRecord (op :: rest) =
      .ok ((parseCommand op (rest.take (size - 1))).toInstr, rest.drop (size - 1)) := by
  simp only [decodeRecord, h]
  rw [if_neg (by omega)]

/-- Bytes that the decoder of records takes whole: an opcode byte without a length, or a record of the length that its
opcode byte says. -/
theorem decodeRecord_eq_whole {bs : List Byte} {i : Instr} (h : decodeRecord bs = .ok (i, [])) :
    (∃ op, bs = [op] ∧ recordSize op = none ∧ i = .recUnrecognized op) ∨
    ∃ op p, bs = op :: p ∧ recordSize op = some (p.length + 1) ∧ i = (parseCommand op p).toInstr := by
  cases bs with
  | nil => cases h
  | cons op rest =>
    cases hsize : recordSize op with
    | none =>
      rw [decodeRecord_of_no_size hsize] at h
      cases h
      exact .inl ⟨op, rfl, hsize, rfl⟩
    | some size =>
      rcases Nat.lt_or_ge (rest.length + 1) size with hshort | hfits
      · rw [decodeRecord_of_short hsize hshort] at h
        cases h
      · have hpos := recordSize_pos hsize
        rw [decodeRecord_of_fits hsize hfits] at h
        obtain ⟨rfl, hdrop⟩ := Prod.mk.inj (Except.ok.inj h)
        have hlen : rest.length ≤ size - 1 := List.drop_eq_nil_iff.1 hdrop
        refine .inr ⟨op, rest, rfl, ?_, by rw [List.take_of_length_le hlen]⟩
        rw [hsize, show size = rest.length + 1 by omega]

/-! ### The record of a command -/

theorem decodeRecord_encodeCommand (c : Command) : decodeRecord (encodeCommand c) = .ok (c.toInstr, []) := by
  have h := decode_encodeCommand c
  unfold decode at h
  split at h
  next hreq => cases hreq
  next bytes hrec =>
    cases hrec
    split at h
    next => cases h
    next i hok => cases h; exact hok
    next => cases h

/-- The encoder writes the opcode byte that says the record's length (R62, R63). -/
theorem encodeCommand_opcode (c : Command) :
    ∃ op p, encodeCommand c = op :: p ∧ recordSize op = some (commandSize c) := by
  cases c <;> exact ⟨_, _, rfl, rfl⟩

@[simp] theorem recordsSize_nil : recordsSize [] = 0 := rfl

@[simp] theorem recordsSize_cons (c : Command) (cmds : List Command) :
    recordsSize (c :: cmds) = commandSize c + recordsSize cmds := by
  simp [recordsSize]

theorem recordsBytes_cons (c : Command) (cmds : List Command) :
    recordsBytes (c :: cmds) = encodeCommand c ++ recordsBytes cmds := by
  simp [recordsBytes]

/-- A row of records in a buffer is its first record and the row of the others behind it. -/
theorem Memory.readBytes_records_cons {m : Memory} {pos : Nat} {c : Command} {cmds : List Command}
    (h : Memory.readBytes m pos (recordsSize (c :: cmds)) = some (recordsBytes (c :: cmds))) :
    Memory.readBytes m pos (commandSize c) = some (encodeCommand c) ∧
    Memory.readBytes m (pos + commandSize c) (recordsSize cmds) = some (recordsBytes cmds) := by
  have hlen := encodeCommand_length c
  obtain ⟨hfront, hrest⟩ :=
    Memory.readBytes_take_drop (k := commandSize c) (by simp) h
  rw [recordsBytes_cons, List.take_left' hlen] at hfront
  rw [recordsBytes_cons, List.drop_left' hlen, recordsSize_cons, Nat.add_sub_cancel_left] at hrest
  exact ⟨hfront, hrest⟩

end Sys2Proof.Machine
end

section
/-! The relation `DecodesTo` (R79): what it says of a record that stands whole in the buffer, that it says one thing
only, and that the loop of the decode procedure finds exactly that. -/

namespace Sys2Proof.Machine

/-! ### A record in the buffer -/

section
variable {m : Memory} {pos len room : Nat} {c : Command} {cmds : List Command} {reason : StopReason}

/-- A whole record is decoded to its command, and the decode goes on behind it. -/
theorem DecodesTo.command (hbytes : Memory.readBytes m pos (commandSize c) = some (encodeCommand c))
    (hfits : pos + commandSize c ≤ len) (hrest : DecodesTo m len (pos + commandSize c) room cmds reason) :
    DecodesTo m len pos (room + 1) (c :: cmds) reason := by
  obtain ⟨op, p, hcode, hsize⟩ := encodeCommand_opcode c
  exact .record (Memory.read_of_readBytes_cons (hcode ▸ hbytes)) hsize hfits hbytes (decodeRecord_encodeCommand c)
    (commandOf_toInstr c) hrest

theorem DecodesTo.full_at_command (hbytes : Memory.readBytes m pos (commandSize c) = some (encodeCommand c))
    (hfits : pos + commandSize c ≤ len) : DecodesTo m len pos 0 [] .fbFull := by
  obtain ⟨op, p, hcode, hsize⟩ := encodeCommand_opcode c
  exact .fbFull (Memory.read_of_readBytes_cons (hcode ▸ hbytes)) hsize hfits

theorem DecodesTo.cut_command (hbytes : Memory.readBytes m pos (commandSize c) = some (encodeCommand c))
    (hpos : pos < len) (hcut : len < pos + commandSize c) : DecodesTo m len pos room [] .truncated := by
  obtain ⟨op, p, hcode, hsize⟩ := encodeCommand_opcode c
  exact .truncated hpos (Memory.read_of_readBytes_cons (hcode ▸ hbytes)) hsize hcut

end

/-! ### The loop -/

/-- The procedure decodes one row of commands and stops for one reason: it meets one opcode byte at a place, and of the
checks that this byte and the lengths decide no two hold. -/
theorem DecodesTo.unique {m : Memory} {len pos room : Nat} {cmds cmds' : List Command} {reason reason' : StopReason}
    (h : DecodesTo m len pos room cmds reason) (h' : DecodesTo m len pos room cmds' reason') :
    cmds = cmds' ∧ reason = reason' := by
  induction h generalizing cmds' reason' with
  | exhausted hle => cases h' <;> grind [→ recordSize_pos]
  | badOpcode hlt hop hsize => cases h' <;> grind
  | truncated hlt hop hsize hcut => cases h' <;> grind
  | fbFull hop hsize hfits => cases h' <;> grind [→ recordSize_pos]
  | record hop hsize hfits hbytes hdec hc _ ih => cases h' <;> grind [→ recordSize_pos]

/-- From the start of a decode the loop takes what `DecodesTo` says and leaves it with that reason. -/
theorem decodeLoop_eq_some_of_decodesTo {m : Memory} {s : State} {len : Nat} {cmds : List Command}
    {reason : StopReason} (h : DecodesTo m len 0 s.cfg.fbcap cmds reason) :
    ∃ d, decodeLoop m (len + 1) (s.setDec ⟨len, 0, [], none⟩) = some (s.setDec d) ∧ d.out = cmds ∧
      d.stop = some reason := by
  obtain ⟨t, ht⟩ := h.decodeLoop_isSome (s := s.setDec ⟨len, 0, [], none⟩) rfl rfl rfl (Nat.zero_add _).symm
    (Nat.lt_succ_self len)
  obtain ⟨found, why, hfound, hout, hstop⟩ := decodeLoop_decodesTo rfl (Nat.zero_le _) (Nat.lt_succ_self len) ht
  obtain ⟨rfl, rfl⟩ := h.unique hfound
  obtain ⟨d, rfl⟩ := decodeLoop_dec ht
  exact ⟨d, ht, hout, hstop⟩

/-- The loop comes to an unwritten byte where `DecodesTo` says nothing (R22, R99). -/
theorem decodeLoop_eq_none_of_not_decodesTo {m : Memory} {s : State} {len : Nat}
    (h : ∀ cmds reason, ¬ DecodesTo m len 0 s.cfg.fbcap cmds reason) :
    decodeLoop m (len + 1) (s.setDec ⟨len, 0, [], none⟩) = none := by
  refine Option.eq_none_iff_forall_ne_some.2 fun t ht => ?_
  obtain ⟨found, why, hfound, -⟩ := decodeLoop_decodesTo rfl (Nat.zero_le _) (Nat.lt_succ_self len) ht
  exact h found why hfound

end Sys2Proof.Machine
end

section
/-! What the procedure of R79 decodes from bytes that are known: the leading records that a parser of the byte sequence
finds, and of a recorded row of commands as many as fit into the length and into the frame buffer (R87). -/

namespace Sys2Proof.Machine

/-! ### The parser of the byte sequence -/

section
variable {op : Byte} {rest : List Byte} {size room fuel : Nat}

theorem recordsOf_of_no_size (h : recordSize op = none) :
    recordsOf room (fuel + 1) (op :: rest) = ([], .badOpcode) := by
  simp [recordsOf, decodeRecord_of_no_size h, commandOf]

theorem recordsOf_of_short (h : recordSize op = some size) (hlen : rest.length + 1 < size) :
    recordsOf room (fuel + 1) (op :: rest) = ([], .truncated) := by
  simp [recordsOf, decodeRecord_of_short h hlen]

theorem recordsOf_of_no_room (h : recordSize op = some size) (hlen : size ≤ rest.length + 1) :
    recordsOf 0 (fuel + 1) (op :: rest) = ([], .fbFull) := by
  simp [recordsOf, decodeRecord_of_fits h hlen, commandOf_toInstr]

theorem recordsOf_of_fits (h : recordSize op = some size) (hlen : size ≤ rest.length + 1) :
    recordsOf (room + 1) (fuel + 1) (op :: rest) =
      (parseCommand op (rest.take (size - 1)) :: (recordsOf room fuel (rest.drop (size - 1))).1,
        (recordsOf room fuel (rest.drop (size - 1))).2) := by
  simp [recordsOf, decodeRecord_of_fits h hlen, commandOf_toInstr]

end

/-- Over written bytes the procedure decodes what the parser of the byte sequence finds. -/
theorem decodesTo_recordsOf {m : Memory} {len : Nat} (fuel : Nat) {pos room : Nat} {bs : List Byte}
    (hfuel : bs.length < fuel) (hlen : pos + bs.length = len) (h : Memory.readBytes m pos bs.length = some bs) :
    DecodesTo m len pos room (recordsOf room fuel bs).1 (recordsOf room fuel bs).2 := by
  induction fuel generalizing pos room bs with
  | zero => exact absurd hfuel (Nat.not_lt_zero _)
  | succ fuel ih =>
    cases bs with
    | nil => exact .exhausted (Nat.le_of_eq hlen.symm)
    | cons op rest =>
      have hop := Memory.read_of_readBytes_cons h
      rw [List.length_cons] at hfuel hlen
      cases hsize : recordSize op with
      | none =>
        rw [recordsOf_of_no_size hsize]
        exact .badOpcode (by omega) hop hsize
      | some size =>
        have hpos := recordSize_pos hsize
        rcases Nat.lt_or_ge (rest.length + 1) size with hshort | hfits
        · rw [recordsOf_of_short hsize hshort]
          exact .truncated (by omega) hop hsize (by omega)
        cases room with
        | zero =>
          rw [recordsOf_of_no_room hsize hfits]
          exact .fbFull hop hsize (by omega)
        | succ room =>
          rw [recordsOf_of_fits hsize hfits]
          obtain ⟨size, rfl⟩ : ∃ n, size = n + 1 := ⟨size - 1, by omega⟩
          obtain ⟨hrecord, hbehind⟩ := Memory.readBytes_take_drop (k := size + 1) hfits h
          rw [Nat.add_sub_cancel]
          refine .record hop hsize (by omega) hrecord (decodeRecord_whole hsize ?_) (commandOf_toInstr _) (ih ?_ ?_ ?_)
          · simp only [List.length_take]; omega
          · simp only [List.length_drop]; omega
          · simp only [List.length_drop]; omega
          · rwa [List.drop_succ_cons, Nat.add_sub_add_right, ← List.length_drop] at hbehind

/-! ### A recorded row of commands -/

/-- Why a decode stops whose `len` bytes begin with `j` whole records of `size` bytes in all: at the first record for
which there is no room, or else behind the last whole one (R87). -/
def leadingReason (room len j size : Nat) : StopReason :=
  if room < j then .fbFull else if len = size then .exhausted else .truncated

/-- The length `n` cuts a row of commands behind its first `j` records: these fit, one more would not (R87). -/
structure FitLeading (cmds : List Command) (n j : Nat) : Prop where
  le_length : j ≤ cmds.length
  fits : recordsSize (cmds.take j) ≤ n
  maximal : j < cmds.length → n < recordsSize (cmds.take (j + 1))

theorem FitLeading.tail {c : Command} {cmds : List Command} {n j : Nat}
    (h : FitLeading (c :: cmds) (commandSize c + n) (j + 1)) : FitLeading cmds n j := by
  obtain ⟨hj, hfits, hmax⟩ := h
  simp only [List.take_succ_cons, recordsSize_cons, List.length_cons, Nat.add_lt_add_iff_right,
    Nat.add_le_add_iff_left, Nat.add_lt_add_iff_left, Nat.add_le_add_iff_right] at hj hfits hmax
  exact ⟨hj, hfits, hmax⟩

theorem FitLeading.whole (cmds : List Command) : FitLeading cmds (recordsSize cmds) cmds.length :=
  ⟨le_rfl, by rw [List.take_length], fun h => absurd h (Nat.lt_irrefl _)⟩

/-- Of a recorded row of commands the procedure decodes the leading ones that fit (R87). -/
theorem decodesTo_leading {m : Memory} {pos n room j : Nat} {cmds : List Command}
    (hbytes : Memory.readBytes m pos (recordsSize cmds) = some (recordsBytes cmds)) (hn : n ≤ recordsSize cmds)
    (hj : FitLeading cmds n j) :
    DecodesTo m (pos + n) pos room (cmds.take (min j room)) (leadingReason room n j (recordsSize (cmds.take j))) := by
  induction cmds generalizing pos n room j with
  | nil =>
    obtain rfl : n = 0 := Nat.le_zero.1 hn
    obtain rfl : j = 0 := Nat.le_zero.1 hj.le_length
    simpa [leadingReason] using DecodesTo.exhausted (m := m) (room := room) (le_refl pos)
  | cons c cmds ih =>
    obtain ⟨hc, hrest⟩ := Memory.readBytes_records_cons hbytes
    cases j with
    | zero =>
      have hcut : n < commandSize c := by simpa using hj.maximal (Nat.succ_pos _)
      rcases Nat.eq_zero_or_pos n with rfl | hpos
      · simpa [leadingReason] using DecodesTo.exhausted (m := m) (room := room) (le_refl pos)
      · simpa [leadingReason, Nat.ne_of_gt hpos] using
          DecodesTo.cut_command (room := room) (len := pos + n) hc (by omega) (by omega)
    | succ j =>
      have hfits : commandSize c + recordsSize (cmds.take j) ≤ n := by simpa using hj.fits
      obtain ⟨n, rfl⟩ : ∃ k, n = commandSize c + k := ⟨n - commandSize c, by omega⟩
      cases room with
      | zero => simpa [leadingReason] using DecodesTo.full_at_command (len := pos + (commandSize c + n)) hc (by omega)
      | succ room =>
        have hleading := ih (room := room) hrest (by simpa using hn) hj.tail
        rw [Nat.add_assoc] at hleading
        simpa [leadingReason, Nat.add_min_add_right] using hleading.command hc (by omega)

end Sys2Proof.Machine
end

section
/-! The decoder requests, forwards: where the checks hold, DECODE and DECODE_N answer what the procedure of R79 decodes,
or come to an unwritten byte (R83, R84, R99). -/

namespace Sys2Proof.Machine

/-- A request of C to decode the first `len` bytes of buffer `b`, past the checks of R92 to R94 and R97: DECODE takes the
bytes below the cursor, DECODE_N a length of its own (R83, R84). -/
structure State.MayDecode (s : State) (i : Instr) (b : Byte) (len : Nat) : Prop where
  fault : s.fault.valid = false
  inRange : b.toNat < s.cfg.nbuf
  issuer : s.issuer = .consumer
  free : ¬ conflicts s .consumer b.toNat .read
  input : (i = .decode b ∧ len = (s.buf b.toNat).cursor) ∨
    ∃ n, i = .decodeN b n ∧ len = n.toNat ∧ len ≤ s.cfg.bufcap

/-- The state after a decode of buffer `b` that found `cmds` and stopped for `reason`: the read noted, the frame buffer
rebuilt, count and reason answered (R79). -/
def State.decoded (s : State) (b : Nat) (cmds : List Command) (reason : StopReason) : State :=
  (((s.accessed b .read).setFb (s.fb.rebuild cmds)).setDec DecodeWork.idle).respond
    (decodeResponse cmds.length reason)

/-! ### Behind the checks -/

section
variable {s : State} {i : Instr} {b : Byte} {len : Nat} (h : s.MayDecode i b len)
include h

theorem State.MayDecode.isRequest : i.isRequest = true := by
  obtain ⟨rfl, -⟩ | ⟨n, rfl, -⟩ := h.input <;> rfl

theorem State.MayDecode.requestEffect_eq :
    requestEffect i s = decodeBuffer b.toNat len (s.accessed b.toNat .read) := by
  have hchecked (k : State → Except Cause State) :
      onBuffer b.toNat s.byConsumer .read s k = k (s.accessed b.toNat .read) :=
    onBuffer_of_not_conflicts h.inRange (decide_eq_true h.issuer) (h.issuer ▸ h.free)
  obtain ⟨rfl, rfl⟩ | ⟨n, rfl, rfl, hle⟩ := h.input
  · rw [requestEffect, decodeEffect, unitNumber, hchecked, State.buf_accessed_self, State.noted_cursor]
  · rw [requestEffect, decodeNEffect, unitNumber, valNumber, hchecked, State.accessed_eq, State.setBuf_cfg, require,
      if_pos (decide_eq_true hle)]

/-- A decode that meets no unwritten byte (R83, R84). -/
theorem State.MayDecode.exec_eq {cmds : List Command} {reason : StopReason}
    (hdec : DecodesTo (s.buf b.toNat).bytes len 0 s.cfg.fbcap cmds reason) :
    exec i s = .next (s.decoded b.toNat cmds reason) := by
  obtain ⟨d, hloop, rfl, hstop⟩ := decodeLoop_eq_some_of_decodesTo (s := s.accessed b.toNat .read) hdec
  refine exec_request_ok h.isRequest h.fault (h.requestEffect_eq.trans
    (decodeBuffer_eq_ok.2 ⟨(s.accessed b.toNat .read).setDec d, ?_, ?_⟩))
  · rw [State.buf_accessed_self, State.noted_bytes]
    exact hloop
  · simp only [State.setDec_dec, hstop, Option.getD_some]
    rfl

/-- A decode that comes to an unwritten byte (R99). -/
theorem State.MayDecode.faultsWith_unwrittenRead
    (hdec : ∀ cmds reason, ¬ DecodesTo (s.buf b.toNat).bytes len 0 s.cfg.fbcap cmds reason) : faultsWith i s 9 := by
  refine faultsWith_of_error (c := .unwrittenRead) h.isRequest h.fault
    (h.requestEffect_eq.trans (decodeBuffer_eq_error.2 ⟨?_, rfl⟩))
  rw [State.buf_accessed_self, State.noted_bytes]
  exact decodeLoop_eq_none_of_not_decodesTo (s := s.accessed b.toNat .read) hdec

end

/-! ### What is changed and what is kept -/

/-- What a decode of buffer `b` leaves alone, beside the frame buffer, its answer and the note of the access. -/
def decodeFrame (b : Nat) (s t : State) : Prop :=
  sameBytes s t ∧ sameBufsBut b s t ∧ sameQueues s t ∧ sameClocks s t ∧ t.fault = s.fault ∧ t.cfg = s.cfg ∧
  t.phase = s.phase ∧ t.host = s.host ∧ t.issuer = s.issuer ∧ t.dec = DecodeWork.idle ∧ t.sched = s.sched ∧
  t.turns = s.turns

section
variable (s : State) (b : Nat) (cmds : List Command) (reason : StopReason)

@[simp] theorem State.fb_decoded : (s.decoded b cmds reason).fb = s.fb.rebuild cmds := by simp [State.decoded]

@[simp] theorem State.fault_decoded : (s.decoded b cmds reason).fault = s.fault := by
  simp [State.decoded, State.accessed]

theorem State.buf_decoded_self (h : s.issuer = .consumer) :
    (s.decoded b cmds reason).buf b = { s.buf b with lastRead := (s.buf b).lastRead.set .consumer s.vcC.c } := by
  simp only [State.decoded, State.buf_respond, State.buf_setDec, State.buf_setFb, State.buf_accessed_self]
  rw [State.noted, h]
  rfl

theorem State.answers_decoded :
    answers s (s.decoded b cmds reason) (decodeResponse cmds.length reason).word :=
  answers_respond s _ _ (by simp [State.accessed]) fun a => by simp [State.accessed]

theorem State.decodeFrame_decoded : decodeFrame b s (s.decoded b cmds reason) := by
  have hbytes : sameBytes s (s.decoded b cmds reason) := fun n i => by
    simpa [State.decoded, State.accessed_eq] using sameBytes_setBuf (s := s) (b := b)
      (decodeResponse cmds.length reason) (State.noted_bytes s b .read) n i
  simp only [decodeFrame, hbytes, true_and]
  refine ⟨fun n hn => ?_, ?_⟩
  · simp [State.decoded, State.accessed, hn]
  · simp [sameQueues, sameClocks, State.decoded, State.accessed]

end

/-- The valid entries of a rebuilt frame buffer are the new ones. -/
theorem FrameBuffer.take_count_rebuild (fb : FrameBuffer) (new : List Command) :
    (fb.rebuild new).entry.take (fb.rebuild new).count = new := List.take_left

/-- DECODE_N and DECODE of a recorded row of commands give the leading ones that fit (R87, R88). -/
theorem State.MayDecode.exec_of_holds {s : State} {i : Instr} {b : Byte} {len j : Nat} {cmds : List Command}
    (h : s.MayDecode i b len) (hholds : (s.buf b.toNat).holds cmds = true) (hlen : len ≤ recordsSize cmds)
    (hj : FitLeading cmds len j) :
    exec i s = .next (s.decoded b.toNat (cmds.take (min j s.cfg.fbcap))
      (leadingReason s.cfg.fbcap len j (recordsSize (cmds.take j)))) := by
  rw [Buffer.holds, Bool.and_eq_true, decide_eq_true_eq, decide_eq_true_eq] at hholds
  obtain ⟨hcursor, hbytes⟩ := hholds
  rw [hcursor] at hbytes
  have hdec := decodesTo_leading (room := s.cfg.fbcap) hbytes hlen hj
  rw [Nat.zero_add] at hdec
  exact h.exec_eq hdec

/-- The response after a decode of the leading records that fit (R87). -/
theorem decodeResponse_leading {cmds : List Command} {j : Nat} (room len size : Nat) (hj : j ≤ cmds.length) :
    decodeResponse (cmds.take (min j room)).length (leadingReason room len j size) =
      { ok := true
        val := numberVal (min j room)
        reason := if room < j then 3 else if len = size then 0 else 1 } := by
  have hcode : (leadingReason room len j size).code = if room < j then 3 else if len = size then 0 else 1 := by
    unfold leadingReason
    split_ifs <;> rfl
  rw [decodeResponse, List.length_take_of_le (by omega), hcode]

end Sys2Proof.Machine
end

section
/-! A record as a step of its own (log 7): what it makes of the procedure's variables, and that a round of the loop is
the record that stands at its position. -/

namespace Sys2Proof.Machine

/-- A record row's meaning is to meet the decode procedure. -/
theorem exec_toInstr (c : Command) (s : State) : exec c.toInstr s = .next (s.takeRecord (some c)) := by
  cases c <;> rfl

theorem exec_recUnrecognized (op : Byte) (s : State) : exec (.recUnrecognized op) s = .next (s.takeRecord none) := rfl

/-- After a stop a record changes nothing. -/
theorem State.takeRecord_of_stopped {s : State} (record : Option Command) (h : s.dec.stop ≠ none) :
    s.takeRecord record = s := by
  obtain ⟨r, hr⟩ := Option.ne_none_iff_exists'.1 h
  simp [State.takeRecord, hr]

theorem State.takeRecord_of_stopReason {s : State} {record : Option Command} {r : StopReason} (h : s.dec.stop = none)
    (hr : stopReason s.cfg.fbcap s.dec (record.map commandSize) = some r) : s.takeRecord record = s.stopDecode r := by
  simp [State.takeRecord, h, hr]

/-- The procedure's variables once a record has met them, the checks of R79 in their order; `none` is an unrecognized
opcode. -/
def DecodeWork.meet (fbcap : Nat) (d : DecodeWork) (record : Option Command) : DecodeWork :=
  if d.len ≤ d.pos then { d with stop := some .exhausted }
  else match record with
    | none => { d with stop := some .badOpcode }
    | some c =>
      if d.len < d.pos + commandSize c then { d with stop := some .truncated }
      else if d.out.length = fbcap then { d with stop := some .fbFull }
      else d.push c

theorem State.takeRecord_eq_meet {s : State} (record : Option Command) (h : s.dec.stop = none) :
    s.takeRecord record = s.setDec (s.dec.meet s.cfg.fbcap record) := by
  have hstops (r : StopReason) (hr : stopReason s.cfg.fbcap s.dec (record.map commandSize) = some r) :
      s.takeRecord record = s.setDec { s.dec with stop := some r } := State.takeRecord_of_stopReason h hr
  by_cases hend : s.dec.len ≤ s.dec.pos
  · simp only [hstops .exhausted (by simp [stopReason, hend]), DecodeWork.meet, if_pos hend]
  simp only [DecodeWork.meet, if_neg hend]
  cases record with
  | none => exact hstops .badOpcode (by simp [stopReason, hend])
  | some c =>
    by_cases hcut : s.dec.len < s.dec.pos + commandSize c
    · simp only [if_pos hcut]
      exact hstops .truncated (by simp [stopReason, hend, hcut])
    by_cases hfull : s.dec.out.length = s.cfg.fbcap
    · simp only [if_neg hcut, if_pos hfull]
      exact hstops .fbFull (by simp [stopReason, hend, hcut, hfull])
    · simp [State.takeRecord, h, stopReason, hend, hcut, hfull, DecodeWork.push]

/-! ### A round of the loop -/

section
variable {m : Memory} {s : State} {op : Byte} (hpos : s.dec.pos < s.dec.len) (hop : Memory.read m s.dec.pos = some op)
include hpos hop

/-- A round that meets an opcode byte without a length is the unrecognized record. -/
theorem decodeRound_of_no_size (hsize : recordSize op = none) : decodeRound m s = some (s.takeRecord none) := by
  simp [decodeRound, Nat.not_le.2 hpos, hop, hsize]

/-- A round that meets a whole record is that record, whether it is taken or a check of R79 stops the decode. -/
theorem decodeRound_of_record {size : Nat} {p : List Byte} (hstop : s.dec.stop = none)
    (hsize : recordSize op = some size) (hp : Memory.readBytes m (s.dec.pos + 1) (size - 1) = some p) :
    decodeRound m s = some (s.takeRecord (some (parseCommand op p))) := by
  cases hreason : stopReason s.cfg.fbcap s.dec (some size) with
  | none => simp [decodeRound, Nat.not_le.2 hpos, hop, hsize, hreason, hp]
  | some r =>
    have hstopped : s.takeRecord (some (parseCommand op p)) = s.stopDecode r :=
      State.takeRecord_of_stopReason hstop (by rw [Option.map_some, commandSize_parseCommand hsize, hreason])
    simp [decodeRound, Nat.not_le.2 hpos, hop, hsize, hreason, hstopped]

end

end Sys2Proof.Machine
end

section
/-! A recording (R72 to R74): what P's ENC_BEGIN and the records appended behind it make of a state, request by request,
and that requests which do not write the buffer keep what it holds (R88). -/

namespace Sys2Proof.Machine

/-- P has begun a recording in buffer `b` in state `s`, and has appended `cmds` up to state `u`. -/
structure Recording (s : State) (b : Nat) (cmds : List Command) (u : State) : Prop where
  fault : u.fault.valid = false
  cfg : u.cfg = s.cfg
  queues : sameQueues s u
  holds : (u.buf b).holds cmds = true
  writable : (u.buf b).writable = true
  lastWrite : (u.buf b).lastWrite = some (.producer, u.vcP.p)
  lastRead : (u.buf b).lastRead = ⟨0, 0⟩

/-- The last access is P's own write, so P meets no race (R46). -/
theorem Recording.not_conflicts {s u : State} {b : Nat} {cmds : List Command} (h : Recording s b cmds u) :
    ¬ conflicts u .producer b .write := by
  rintro (⟨t, hwrite, -⟩ | ⟨-, hread⟩)
  · rw [h.lastWrite] at hwrite
    cases hwrite
  · rw [h.lastRead] at hread
    exact Nat.not_lt_zero _ hread

/-- ENC_BEGIN begins a recording (R72). -/
theorem exec_encBegin_recording {s : State} {b : Byte} (hv : s.fault.valid = false) (hb : b.toNat < s.cfg.nbuf)
    (hfree : ¬ conflicts s .producer b.toNat .write) :
    ∃ u, exec (.encBegin b) (s.setIssuer .producer) = .next u ∧ Recording s b.toNat [] u := by
  obtain ⟨u, hexec, hbuf, -, -, hqueues, hclocks, -, hfault, ⟨hcfg, -⟩, -⟩ :=
    encBeginOpensTheBuffer (s.setIssuer .producer) b hv hb rfl hfree
  have hvc : u.vcP = s.vcP := hclocks .producer
  exact ⟨u, hexec, by rw [hfault]; exact hv, hcfg, hqueues, Buffer.holds_nil (by rw [hbuf]), by rw [hbuf],
    by rw [hbuf, hvc]; rfl, by rw [hbuf]⟩

theorem appendedRecord_recordRequest (b : Byte) (c : Command) :
    appendedRecord (recordRequest b c) = some (b.toNat, c) := by
  cases c <;> rfl

/-- Appending goes on with the recording (R73, R74). -/
theorem Recording.append {s u : State} {b : Byte} {cmds : List Command} (h : Recording s b.toNat cmds u)
    (hb : b.toNat < s.cfg.nbuf) (c : Command) (hfits : recordsSize (cmds ++ [c]) ≤ s.cfg.bufcap) :
    ∃ v, exec (recordRequest b c) (u.setIssuer .producer) = .next v ∧ Recording s b.toNat (cmds ++ [c]) v := by
  have happ := appendedRecord_recordRequest b c
  obtain ⟨hcursor, -⟩ := Buffer.holds_iff.1 h.holds
  obtain ⟨v, hexec, -, -, hwritable, hlast, hread, -, hqueues, hclocks, -, hfault, ⟨hcfg, -⟩, -⟩ :=
    exec_appends_record (s := u.setIssuer .producer) happ h.fault (h.cfg ▸ hb) rfl h.not_conflicts h.writable
      (show (u.buf b.toNat).cursor + commandSize c ≤ u.cfg.bufcap by rwa [hcursor, h.cfg, ← recordsSize_append])
  have hvalid : v.fault.valid = false := by rw [hfault]; exact h.fault
  have hvc : v.vcP = u.vcP := hclocks .producer
  have hholds := exec_holds (a := .producer) hexec hvalid h.holds
  rw [recordedBy_append happ] at hholds
  exact ⟨v, hexec, hvalid, hcfg.trans h.cfg, fun q => (hqueues q).trans (h.queues q), hholds, hwritable,
    by rw [hlast, hvc]; rfl, hread⟩

/-- A row of commands that fits is recorded in order. -/
theorem Recording.appendAll {s : State} {b : Byte} (hb : b.toNat < s.cfg.nbuf) (more : List Command) {u : State}
    {cmds : List Command} (h : Recording s b.toNat cmds u) (hfits : recordsSize (cmds ++ more) ≤ s.cfg.bufcap) :
    ∃ v, runRequests (more.map fun c => (Agent.producer, recordRequest b c)) u = some v ∧
      Recording s b.toNat (cmds ++ more) v := by
  induction more generalizing u cmds with
  | nil => exact ⟨u, rfl, by rwa [List.append_nil]⟩
  | cons c more ih =>
    rw [List.append_cons] at hfits ⊢
    have hfirst : recordsSize (cmds ++ [c]) ≤ s.cfg.bufcap := by
      simp only [recordsSize, List.map_append, List.sum_append] at hfits ⊢
      omega
    obtain ⟨v, hexec, hv⟩ := h.append hb c hfirst
    obtain ⟨w, hrun, hw⟩ := ih hv hfits
    exact ⟨w, runRequests_cons_eq_some.2 ⟨v, hexec, hv.fault, hrun⟩, hw⟩

/-- Handed over through an empty queue from P to C, the recording is ordered before C's reads (R47, R88). -/
theorem Recording.handOver {s u : State} {b : Nat} {cmds : List Command} (h : Recording s b cmds u) {q : Byte}
    (v : Word32) (hinv : s.inv = true) (hq : q.toNat < s.cfg.nq) (hpusher : (s.cfg.queue q.toNat).pusher = .producer)
    (hpopper : (s.cfg.queue q.toNat).popper = .consumer) (hempty : s.contents q.toNat = []) :
    ∃ t, runRequests [(.producer, .push q v), (.consumer, .pop q)] u = some t ∧ ¬ conflicts t .consumer b .read := by
  have hcap : u.cap q.toNat = s.cap q.toNat := by rw [State.cap, h.cfg, State.cap]
  have hring : u.Ring q.toNat := (State.ring_of_inv hinv hq).congr hcap (h.queues q.toNat)
  have hcontents : u.contents q.toNat = [] := (State.contents_congr hcap (h.queues q.toNat)).trans hempty
  have hroom : (u.contents q.toNat).length < u.cap q.toNat - 1 := by
    have := legalCap_two_le hring.legal
    rw [hcontents, List.length_nil]
    omega
  obtain ⟨t, hrun, hknown, hbufs, -⟩ := runRequests_push_pops v h.fault (h.cfg ▸ hq) (h.cfg ▸ hpusher) (h.cfg ▸ hpopper)
    hring (hring.full_eq_false hroom)
  rw [hcontents] at hrun
  refine ⟨t, hrun, ?_⟩
  rintro (⟨n, hwrite, hlt⟩ | ⟨hkind, -⟩)
  · rw [hbufs, h.lastWrite] at hwrite
    cases hwrite
    exact absurd (hknown .producer) (Nat.not_le.2 hlt)
  · cases hkind

/-! ### Requests that do not write the buffer -/

/-- A run without a fault ends without one, in the same configuration. -/
theorem runRequests_cfg_fault {rs : List (Agent × Instr)} {s t : State} (hv : s.fault.valid = false)
    (h : runRequests rs s = some t) : t.cfg = s.cfg ∧ t.fault.valid = false := by
  induction rs generalizing s with
  | nil => cases h; exact ⟨rfl, hv⟩
  | cons r rs ih =>
    obtain ⟨a, i⟩ := r
    obtain ⟨u, hexec, hu, hrest⟩ := runRequests_cons_eq_some.1 h
    obtain ⟨hcfg, ht⟩ := ih hu hrest
    exact ⟨hcfg.trans (exec_cfg hexec :), ht⟩

theorem recordedBy_of_no_writes {b : Nat} (cmds : List Command) {rs : List (Agent × Instr)}
    (h : ∀ r ∈ rs, bufferAccess r.2 ≠ some (b, .write)) : recordedBy b cmds rs = cmds := by
  induction rs with
  | nil => rfl
  | cons r rs ih =>
    obtain ⟨hr, hrs⟩ := List.forall_mem_cons.1 h
    rw [recordedBy_cons, recordedBy_of_no_write (a := r.1) (i := r.2) fun n hn hnb => hr (hnb ▸ hn :), ih hrs]

/-- A DECODE of C over a recorded row of commands (R88). -/
theorem runRequests_decode_of_holds {t : State} {b : Byte} {cmds : List Command} (hv : t.fault.valid = false)
    (hb : b.toNat < t.cfg.nbuf) (hfree : ¬ conflicts t .consumer b.toNat .read)
    (hholds : (t.buf b.toNat).holds cmds = true) :
    runRequests [(.consumer, .decode b)] t =
      some ((t.setIssuer .consumer).decoded b.toNat (cmds.take (min cmds.length t.cfg.fbcap))
        (leadingReason t.cfg.fbcap (recordsSize cmds) cmds.length (recordsSize cmds))) := by
  obtain ⟨hcursor, -⟩ := Buffer.holds_iff.1 hholds
  have hmay : (t.setIssuer .consumer).MayDecode (.decode b) b (recordsSize cmds) :=
    ⟨hv, hb, rfl, hfree, .inl ⟨rfl, hcursor.symm⟩⟩
  have hexec := hmay.exec_of_holds hholds le_rfl (FitLeading.whole cmds)
  rw [List.take_length] at hexec
  exact runRequests_cons_eq_some.2 ⟨_, hexec, by rw [State.fault_decoded]; exact hv, rfl⟩

end Sys2Proof.Machine
end

section
/-! The obligations of 42_decoder.md, settled. -/

namespace Sys2Proof.Machine

/-- Settles O26: behind the checks the loop finds what `DecodesTo` says, and nothing where that says nothing. -/
theorem decodeFollowsTheProcedure : Obligations.DecodeFollowsTheProcedure := by
  intro s i b len hv hb hs hfree hinput
  have hmay : s.MayDecode i b len := ⟨hv, hb, hs, hfree, hinput⟩
  refine ⟨fun cmds reason hdec => ⟨_, hmay.exec_eq hdec, State.fb_decoded .., ?_, State.buf_decoded_self _ _ _ _ hs,
    State.decodeFrame_decoded ..⟩, hmay.faultsWith_unwrittenRead⟩
  have hanswers := s.answers_decoded b.toNat cmds reason
  cases reason <;> exact hanswers

/-- Settles O25: over written bytes the procedure decodes what the parser of the byte sequence finds. -/
theorem decodeRefinesTheRecordParser : Obligations.DecodeRefinesTheRecordParser := by
  intro s i b len bs hv hb hs hfree hinput hbytes cmds reason
  have hlen : bs.length = len := ((Memory.readBytes_eq_some ..).1 hbytes).1
  have hdec : DecodesTo (s.buf b.toNat).bytes len 0 s.cfg.fbcap cmds reason :=
    decodesTo_recordsOf (len + 1) (by omega) (by omega) (hlen ▸ hbytes)
  obtain ⟨hfollows, -⟩ := decodeFollowsTheProcedure s i b len hv hb hs hfree hinput
  obtain ⟨t, hexec, hfb, hrest⟩ := hfollows cmds reason hdec
  exact ⟨t, hexec, by rw [hfb], by rw [hfb], hrest⟩

/-- Settles O27: the leading records that fit are whole in the first `len` bytes, and the next one is not. -/
theorem truncationLaw : Obligations.TruncationLaw := by
  intro s b len cmds j hv hb hs hfree hholds hcap hlen hj hfits hmax
  obtain ⟨hcursor, -⟩ := Buffer.holds_iff.1 hholds
  have hmay : s.MayDecode (.decodeN b len) b len.toNat := ⟨hv, hb, hs, hfree, .inr ⟨len, rfl, rfl, hlen.trans hcap⟩⟩
  refine ⟨_, hmay.exec_of_holds hholds (hcursor ▸ hlen) ⟨hj, hfits, hmax⟩, State.fault_decoded .., ?_⟩
  rw [State.fb_decoded, FrameBuffer.take_count_rebuild]
  refine ⟨List.length_take_of_le (by omega), rfl, ?_⟩
  have hanswers := s.answers_decoded b.toNat (cmds.take (min j s.cfg.fbcap))
    (leadingReason s.cfg.fbcap len.toNat j (recordsSize (cmds.take j)))
  rwa [decodeResponse_leading _ _ _ hj] at hanswers

/-- Settles O28: the recording holds the commands, requests that do not write the buffer keep them there, and DECODE gives
back as many as there is room for. -/
theorem roundTripLaw : Obligations.RoundTripLaw := by
  intro s b cmds hinv hv hb hfree hfits
  obtain ⟨v, hbegin, hbegun⟩ := exec_encBegin_recording hv hb hfree
  obtain ⟨u, hrun, hu⟩ := hbegun.appendAll hb cmds hfits
  refine ⟨u, runRequests_cons_eq_some.2 ⟨v, hbegin, hbegun.fault, hrun⟩,
    fun q val hq hpusher hpopper hempty => hu.handOver val hinv hq hpusher hpopper hempty, ?_⟩
  intro rs t hrs hrun' hordered
  obtain ⟨hkept, ht⟩ := runRequests_cfg_fault hu.fault hrun'
  have hcfg : t.cfg = s.cfg := hkept.trans hu.cfg
  have hholds := runRequests_holds hu.holds hrun'
  rw [recordedBy_of_no_writes _ hrs] at hholds
  refine ⟨_, runRequests_decode_of_holds ht (hcfg ▸ hb) hordered hholds, ?_⟩
  rw [State.fb_decoded, FrameBuffer.take_count_rebuild, hcfg]
  refine ⟨List.length_take_of_le (by omega), rfl, ?_⟩
  obtain ⟨hagent, -⟩ := (t.setIssuer .consumer).answers_decoded b.toNat (cmds.take (min cmds.length s.cfg.fbcap))
    (leadingReason s.cfg.fbcap (recordsSize cmds) cmds.length (recordsSize cmds))
  rw [decodeResponse_leading _ _ _ le_rfl, if_pos rfl] at hagent
  refine (congrArg AgentPort.resp hagent).trans ?_
  simp only [← Nat.not_le, ite_not]
  rfl

/-- Settles O29: an entry that is written is what FB_READ answers. -/
theorem fbReadAnswersTheEntry : Obligations.FbReadAnswersTheEntry := by
  intro s idx c hv hs hlt hc
  have hat : s.fb.at idx.toNat = c := by rw [FrameBuffer.at, List.getD_eq_getElem?_getD, hc, Option.getD_some]
  refine ⟨_, exec_request_ok rfl hv (fbReadEffect_eq_ok.2 ⟨hs, hlt, rfl⟩), ?_⟩
  rw [valNumber, hat]
  cases c <;> exact onlyAnswers_respond _ _

/-- Settles O30: each record row is its command meeting the procedure's variables. -/
theorem recordsExtendOrStopTheDecode : Obligations.RecordsExtendOrStopTheDecode := by
  intro s i c hi
  have hexec : exec i s = .next (s.takeRecord c) := by
    obtain ⟨color, rfl, rfl⟩ | ⟨layer, color, x, y, w, h, rfl, rfl⟩ | ⟨op, rfl, rfl⟩ := hi <;> rfl
  refine ⟨fun h => by rw [hexec, State.takeRecord_of_stopped c h], fun h => ?_⟩
  rw [hexec, State.takeRecord_eq_meet c h]
  cases c with
  | none => rfl
  | some cmd => cases cmd <;> rfl

/-- Settles O31: the bytes are an opcode byte without a length or a whole record, and the round meets just that. -/
theorem decodeRoundRunsTheDecodedRecord : Obligations.DecodeRoundRunsTheDecodedRecord := by
  intro m s i n bs hstop hfits hn hbytes hdec
  have hpos : s.dec.pos < s.dec.len := by omega
  obtain ⟨op, rfl, hsize, rfl⟩ | ⟨op, p, rfl, hsize, rfl⟩ := decodeRecord_eq_whole hdec
  · exact ⟨_, exec_recUnrecognized op s,
      decodeRound_of_no_size hpos (Memory.read_of_readBytes_cons hbytes) hsize⟩
  · have hop := Memory.read_of_readBytes_cons hbytes
    obtain ⟨hlen, -⟩ := (Memory.readBytes_eq_some ..).1 hbytes
    obtain ⟨_, hp, hpayload⟩ := Memory.readBytes_head hn hbytes hop
    obtain ⟨-, rfl⟩ := List.cons_eq_cons.1 hp
    rw [List.length_cons] at hlen
    exact ⟨_, exec_toInstr _ s, decodeRound_of_record hpos hop hstop hsize (hlen ▸ hpayload)⟩

end Sys2Proof.Machine
end

section
/-! The checks of a request (R90 to R100): the causes it can raise, in the order in which they are looked at, and that
its effect raises the lowest of those that apply. -/

namespace Sys2Proof.Machine

/-! ### Checks one after another -/

/-- A request that looks at the causes `cs`, and to which those of `P` apply, answers so: with the lowest of these, or
with its effect where none of them applies (R12, R100). -/
def RaisesLowest (P : Cause → Prop) (cs : List Cause) : Except Cause State → Prop
  | .ok _ => ∀ e ∈ cs, ¬ P e
  | .error c => P c ∧ ∀ e ∈ cs, P e → c.code.toNat ≤ e.code.toNat

section
variable {P : Cause → Prop} {s : State} {cs : List Cause}

theorem RaisesLowest.done (t : State) : RaisesLowest P [] (.ok t) := fun _ he => absurd he List.not_mem_nil

/-- One more check, of a cause below those of the checks behind it. -/
theorem RaisesLowest.require {holds : Bool} {c : Cause} {k : Except Cause State} (hc : P c ↔ holds = false)
    (hlow : ∀ e ∈ cs, c.code.toNat ≤ e.code.toNat) (hk : holds = true → RaisesLowest P cs k) :
    RaisesLowest P (c :: cs) (require holds c k) := by
  cases holds with
  | false => exact ⟨hc.2 rfl, fun e he _ => (List.mem_cons.1 he).elim (fun h => h ▸ le_rfl) (hlow e)⟩
  | true =>
    have hnot : ¬ P c := fun h => absurd (hc.1 h) Bool.noConfusion
    have hrest := hk rfl
    cases k with
    | ok t => exact List.forall_mem_cons.2 ⟨hnot, hrest⟩
    | error e => exact ⟨hrest.1, List.forall_mem_cons.2 ⟨fun h => absurd h hnot, hrest.2⟩⟩

theorem RaisesLowest.onQueue {q : Nat} {wired : QueueConfig → Agent} {k : Except Cause State}
    (hunit : P .badUnit ↔ s.cfg.nq ≤ q) (hport : P .portViolation ↔ s.issuer ≠ wired (s.cfg.queue q))
    (hk : RaisesLowest P [] k) : RaisesLowest P [.badUnit, .portViolation] (onQueue q wired s k) :=
  .require (by simpa using hunit) (by decide) fun _ => .require (by simpa using hport) (by decide) fun _ => hk

theorem RaisesLowest.onBuffer {b : Nat} {wired : Bool} {kind : AccessKind} {k : State → Except Cause State}
    (hunit : P .badUnit ↔ s.cfg.nbuf ≤ b) (hport : P .portViolation ↔ wired = false)
    (hrace : P .dataRace ↔ conflicts s s.issuer b kind) (hlow : ∀ e ∈ cs, 4 ≤ e.code.toNat)
    (hk : RaisesLowest P cs (k (s.accessed b kind))) :
    RaisesLowest P (.badUnit :: .portViolation :: .dataRace :: cs) (onBuffer b wired kind s k) := by
  have hlow' (n : Nat) (hn : n ≤ 4) : ∀ e ∈ cs, n ≤ e.code.toNat := fun e he => hn.trans (hlow e he)
  refine .require (by simpa using hunit) ?_ fun _ => .require hport ?_ fun _ =>
    .require (by simpa [conflicts_iff] using hrace) hlow fun _ => hk
  · exact List.forall_mem_cons.2 ⟨by decide, List.forall_mem_cons.2 ⟨by decide, hlow' 2 (by decide)⟩⟩
  · exact List.forall_mem_cons.2 ⟨by decide, hlow' 3 (by decide)⟩

end

/-! ### The causes of each request -/

/-- The causes that a request looks at, in its order (R91 to R100). -/
def checks : Instr → List Cause
  | .push _ _ | .pop _ => [.badUnit, .portViolation]
  | .encBegin _ | .encSeal _ | .encSize _ => [.badUnit, .portViolation, .dataRace]
  | .pushClear _ _ | .pushRect _ _ _ _ _ _ _ =>
    [.badUnit, .portViolation, .dataRace, .encNotWritable, .encOverflow]
  | .decode _ => [.badUnit, .portViolation, .dataRace, .unwrittenRead]
  | .decodeN _ _ => [.badUnit, .portViolation, .dataRace, .badLength, .unwrittenRead]
  | .fbRead _ => [.portViolation, .fbIndex]
  | .reservedOpAB _ _ | .reservedOpCF _ _ => [.illegalRequest]
  | .recClear _ | .recRect _ _ _ _ _ _ | .recUnrecognized _ => []

theorem checks_of_bufferAccess {i : Instr} {b : Nat} {kind : AccessKind} (h : bufferAccess i = some (b, kind)) :
    ∃ rest, checks i = .badUnit :: .portViolation :: .dataRace :: rest := by
  cases i <;> cases h <;> exact ⟨_, rfl⟩

theorem checks_of_appendedRecord {i : Instr} {b : Nat} {c : Command} (h : appendedRecord i = some (b, c)) :
    checks i = [.badUnit, .portViolation, .dataRace, .encNotWritable, .encOverflow] := by
  cases i <;> cases h <;> rfl

theorem unwrittenRead_mem_checks {i : Instr} {s : State} {b len : Nat} (h : decodedInput s i = some (b, len)) :
    .unwrittenRead ∈ checks i := by
  cases i <;> cases h <;> simp [checks]

theorem portViolation_mem_checks {i : Instr} {c : Config} {a : Agent} (h : portOpenTo c a i = false) :
    .portViolation ∈ checks i := by
  cases i with
  | reservedOpAB | reservedOpCF | recClear | recRect | recUnrecognized => cases h
  | _ => simp [checks]

/-- No cause applies to a request beside those that it looks at. -/
theorem mem_checks_of_applies {i : Instr} {s : State} {c : Cause} (h : applies i s c) : c ∈ checks i := by
  cases c with
  | illegalRequest => obtain ⟨_, _, rfl⟩ | ⟨_, _, rfl⟩ := h <;> exact List.mem_singleton_self _
  | badUnit =>
    obtain ⟨_, _, rfl, -⟩ | ⟨_, rfl, -⟩ | ⟨b, kind, hacc, -⟩ := h
    · exact List.mem_cons_self
    · exact List.mem_cons_self
    · obtain ⟨rest, hrest⟩ := checks_of_bufferAccess hacc
      simp [hrest]
  | portViolation => exact portViolation_mem_checks h
  | dataRace =>
    obtain ⟨b, kind, hacc, -⟩ := h
    obtain ⟨rest, hrest⟩ := checks_of_bufferAccess hacc
    simp [hrest]
  | encNotWritable | encOverflow =>
    obtain ⟨b, record, happ, -⟩ := h
    simp [checks_of_appendedRecord happ]
  | badLength => obtain ⟨_, _, rfl, -⟩ := h; simp [checks]
  | fbIndex => obtain ⟨_, rfl, -⟩ := h; simp [checks]
  | unwrittenRead => obtain ⟨b, len, hin, -⟩ := h; exact unwrittenRead_mem_checks hin

/-! ### Buffer requests -/

/-- Every buffer request stands behind the checks of its buffer, of its port and of its access (R92 to R94, R100). -/
theorem requestEffect_of_bufferAccess {i : Instr} {b : Nat} {kind : AccessKind} (h : bufferAccess i = some (b, kind))
    (s : State) : ∃ k, requestEffect i s = onBuffer b (portOpenTo s.cfg s.issuer i) kind s k := by
  cases i <;> cases h <;>
    simp only [requestEffect, encBeginEffect, encSealEffect, encSizeEffect, decodeEffect, decodeNEffect] <;>
    exact ⟨_, rfl⟩

section
variable {i : Instr} {s : State} {b : Nat} {kind : AccessKind} (h : bufferAccess i = some (b, kind))
include h

theorem applies_badUnit_iff : applies i s .badUnit ↔ s.cfg.nbuf ≤ b := by
  constructor
  · rintro (⟨_, _, rfl, -⟩ | ⟨_, rfl, -⟩ | ⟨b', kind', h', hle⟩)
    · cases h
    · cases h
    · cases h.symm.trans h'
      exact hle
  · exact fun hle => .inr (.inr ⟨b, kind, h, hle⟩)

theorem applies_dataRace_iff : applies i s .dataRace ↔ conflicts s s.issuer b kind := by
  constructor
  · rintro ⟨b', kind', h', hrace⟩
    cases h.symm.trans h'
    exact hrace
  · exact fun hrace => ⟨b, kind, h, hrace⟩

theorem RaisesLowest.bufferRequest {cs : List Cause} {k : State → Except Cause State}
    (hlow : ∀ e ∈ cs, 4 ≤ e.code.toNat) (hk : RaisesLowest (applies i s) cs (k (s.accessed b kind))) :
    RaisesLowest (applies i s) (.badUnit :: .portViolation :: .dataRace :: cs)
      (Machine.onBuffer b (portOpenTo s.cfg s.issuer i) kind s k) :=
  .onBuffer (applies_badUnit_iff h) Iff.rfl (applies_dataRace_iff h) hlow hk

end

/-- Behind the access check an append looks at the window, then at the room (R95, R96). -/
theorem RaisesLowest.appendRecord {i : Instr} {s : State} {b : Nat} {c : Command}
    (h : appendedRecord i = some (b, c)) :
    RaisesLowest (applies i s) [.encNotWritable, .encOverflow] (Machine.appendRecord b c (s.accessed b .write)) := by
  have hwritable : applies i s .encNotWritable ↔ (s.buf b).writable = false := by simp [applies, h]
  have hroom : applies i s .encOverflow ↔ s.cfg.bufcap < (s.buf b).cursor + commandSize c := by simp [applies, h]
  refine .require ?_ (by decide) fun _ => .require ?_ (by decide) fun _ => .done _
  · simpa using hwritable
  · simpa [State.accessed_eq] using hroom

/-- The loop comes to an unwritten byte exactly where `DecodesTo` says nothing (R22, R99). -/
theorem decodeLoop_eq_none_iff {m : Memory} {s : State} {len : Nat} :
    decodeLoop m (len + 1) (s.setDec ⟨len, 0, [], none⟩) = none ↔
      ∀ cmds reason, ¬ DecodesTo m len 0 s.cfg.fbcap cmds reason := by
  refine ⟨fun h cmds reason hdec => ?_, decodeLoop_eq_none_of_not_decodesTo⟩
  obtain ⟨d, hloop, -⟩ := decodeLoop_eq_some_of_decodesTo hdec
  cases h.symm.trans hloop

/-- UNWRITTEN_READ in terms of what the procedure of R79 decodes. -/
theorem applies_unwrittenRead_iff {i : Instr} {s : State} {b len : Nat} (h : decodedInput s i = some (b, len)) :
    applies i s .unwrittenRead ↔ ∀ cmds reason, ¬ DecodesTo (s.buf b).bytes len 0 s.cfg.fbcap cmds reason := by
  rw [← decodeLoop_eq_none_iff]
  simp [applies, h]

/-- The decode procedure raises UNWRITTEN_READ alone (R99). -/
theorem RaisesLowest.decodeBuffer {i : Instr} {s : State} {b len : Nat} (h : decodedInput s i = some (b, len)) :
    RaisesLowest (applies i s) [.unwrittenRead] (Machine.decodeBuffer b len (s.accessed b .read)) := by
  have hloop : decodeLoop ((s.accessed b .read).buf b).bytes (len + 1) ((s.accessed b .read).setDec ⟨len, 0, [], none⟩)
      = none ↔ applies i s .unwrittenRead := by
    rw [applies_unwrittenRead_iff h, decodeLoop_eq_none_iff, State.buf_accessed_self, State.noted_bytes]
    rfl
  cases hres : Machine.decodeBuffer b len (s.accessed b .read) with
  | error e =>
    obtain ⟨hnone, rfl⟩ := decodeBuffer_eq_error.1 hres
    exact ⟨hloop.1 hnone, by simp⟩
  | ok t =>
    obtain ⟨u, hu, -⟩ := decodeBuffer_eq_ok.1 hres
    exact List.forall_mem_singleton.2 fun happ => nomatch (hloop.2 happ).symm.trans hu

/-! ### Every request -/

/-- A request's effect raises the lowest of the causes that apply to it (R100). -/
theorem requestEffect_raisesLowest {i : Instr} (hi : i.isRequest = true) (s : State) :
    RaisesLowest (applies i s) (checks i) (requestEffect i s) := by
  cases i with
  | push q v =>
    refine .onQueue (by simp [applies, bufferAccess, unitNumber]) (by simp [applies, portOpenTo, unitNumber]) ?_
    dsimp only
    split <;> exact .done _
  | pop q =>
    refine .onQueue (by simp [applies, bufferAccess, unitNumber]) (by simp [applies, portOpenTo, unitNumber]) ?_
    dsimp only
    split <;> exact .done _
  | encBegin b =>
    rw [requestEffect, encBeginEffect]
    exact .bufferRequest rfl nofun (.done _)
  | encSeal b =>
    rw [requestEffect, encSealEffect]
    exact .bufferRequest rfl nofun (.done _)
  | encSize b =>
    rw [requestEffect, encSizeEffect]
    exact .bufferRequest rfl nofun (.done _)
  | pushClear b color => exact .bufferRequest (i := .pushClear b color) rfl (by decide) (.appendRecord rfl)
  | pushRect b layer color x y w h =>
    exact .bufferRequest (i := .pushRect b layer color x y w h) rfl (by decide) (.appendRecord rfl)
  | decode b =>
    rw [requestEffect, decodeEffect]
    refine .bufferRequest rfl (by decide) ?_
    rw [unitNumber, State.buf_accessed_self, State.noted_cursor]
    exact .decodeBuffer rfl
  | decodeN b len =>
    rw [requestEffect, decodeNEffect]
    refine .bufferRequest rfl (by decide) (.require (c := .badLength) ?_ (by decide) fun _ => .decodeBuffer rfl)
    rw [decide_eq_false_iff_not, not_le, State.accessed_eq, State.setBuf_cfg, valNumber]
    simp [applies]
  | fbRead idx =>
    refine .require Iff.rfl (by decide) fun _ => .require (c := .fbIndex) ?_ (by decide) fun _ => .done _
    rw [decide_eq_false_iff_not, not_lt, valNumber]
    simp [applies]
  | reservedOpAB op rest => exact ⟨.inl ⟨op, rest, rfl⟩, by simp [checks]⟩
  | reservedOpCF op rest => exact ⟨.inr ⟨op, rest, rfl⟩, by simp [checks]⟩
  | recClear | recRect | recUnrecognized => cases hi

end Sys2Proof.Machine
end

section
/-! Fault entry (R100, R102): the cause that a request raises applies to it and is the lowest that does, and a request
word either has its request's effect or changes FAULT alone. -/

namespace Sys2Proof.Machine

/-- Fault entry in the words of R102. -/
theorem State.takeFault_eq (s : State) (c : Cause) (r : Packet) :
    s.takeFault c r = { s with fault := ⟨true, c.code, if s.issuer = .consumer then 1 else 0, r⟩ } := by
  cases hs : s.issuer <;> simp [State.takeFault, State.setFault, hs, Agent.ident]

/-- The nine causes have nine codes (R90). -/
theorem Cause.code_injective : Function.Injective Cause.code := by
  intro c e h
  cases c <;> cases e <;> simp_all [Cause.code]

/-- A request that completes leaves FAULT alone. -/
theorem Completes.fault {s t : State} {i : Instr} (h : Completes s i t) : t.fault = s.fault := by
  cases h with
  | decodes => simp [State.accessed]
  | _ => simp

section
variable {i : Instr} {s t : State} {c : Cause} (hi : i.isRequest = true)
include hi

theorem lowest_of_requestEffect_error (h : requestEffect i s = .error c) :
    applies i s c ∧ ∀ e, applies i s e → c.code.toNat ≤ e.code.toNat := by
  have hlowest := requestEffect_raisesLowest hi s
  rw [h] at hlowest
  obtain ⟨happ, hmin⟩ := hlowest
  exact ⟨happ, fun e he => hmin e (mem_checks_of_applies he) he⟩

theorem not_applies_of_requestEffect_ok (h : requestEffect i s = .ok t) (e : Cause) : ¬ applies i s e := by
  have hnone := requestEffect_raisesLowest hi s
  rw [h] at hnone
  exact fun he => hnone e (mem_checks_of_applies he) he

/-- A request never records a cause that does not apply to it. -/
theorem fault_cause_ne_of_not_applies (h : exec i s = .next t) (hc : ¬ applies i s c) :
    t.fault = s.fault ∨ t.fault.cause ≠ c.code := by
  obtain ⟨-, hok | ⟨e, herr, rfl⟩⟩ := exec_request_next hi h
  · exact .inl (completes_of_requestEffect hi hok).fault
  · refine .inr fun hcode => hc ?_
    rw [← Cause.code_injective hcode]
    exact (lowest_of_requestEffect_error hi herr).1

/-- In a block without a fault every request answers a next state. -/
theorem exists_exec_eq_next (hv : s.fault.valid = false) : ∃ t, exec i s = .next t := by
  cases heff : requestEffect i s with
  | ok t => exact ⟨t, exec_request_ok hi hv heff⟩
  | error e => exact ⟨_, exec_request_error hi hv heff⟩

/-- A halted block performs no request (R103). -/
theorem exec_halted (hv : s.fault.valid = true) : exec i s = .fault .halted := by
  rw [exec_eq_perform hi, perform_halted hv]

end

/-- A request word that answers a next state has the effect of the request it encodes, or takes fault entry with that
very word. -/
theorem performWord_next {r : Packet} {s t : State} (h : performWord r s = .next t) :
    (∃ i, Completes s i t) ∨ ∃ c, t = s.takeFault c r := by
  cases hdec : decodeRequest r with
  | ok i =>
    rw [performWord_of_decode hdec] at h
    have hi := decodeRequest_isRequest hdec
    obtain ⟨-, hok | ⟨c, -, rfl⟩⟩ := exec_request_next hi h
    · exact .inl ⟨i, completes_of_requestEffect hi hok⟩
    · exact .inr ⟨c, by rw [requestWord, (decodeRequest_eq_ok.1 hdec).2]⟩
  | error e =>
    rw [performWord, hdec] at h
    obtain ⟨-, hok | ⟨c, -, hc⟩⟩ := perform_next h
    · cases hok
    · exact .inr ⟨c, hc⟩

theorem performWord_halted {s : State} (hv : s.fault.valid = true) (r : Packet) :
    performWord r s = .fault .halted := by
  cases hdec : decodeRequest r with
  | ok i => rw [performWord_of_decode hdec, exec_halted (decodeRequest_isRequest hdec) hv]
  | error e => rw [performWord, hdec]; exact perform_halted hv

/-- A word whose OP is FB_READ's and whose UNIT is not 0 is no request: FB_READ uses no UNIT (R56, R59). -/
theorem illegalWord_of_fbRead_unit {r : Packet} (hop : r.extractLsb' 0 4 = 9) (hunit : r.extractLsb' 8 8 ≠ 0) :
    illegalWord r := by
  have hlow : r.toNat % 16 = 9 := by simpa using congrArg BitVec.toNat hop
  refine .inr fun h => hunit ?_
  calc r.extractLsb' 8 8 = (r &&& ~~~(usedBits 9)).extractLsb' 8 8 := by
        rw [BitVec.extractLsb'_and, show (~~~(usedBits 9)).extractLsb' 8 8 = BitVec.allOnes 8 by decide,
          BitVec.and_allOnes]
    _ = 0 := by rw [← hlow, h]; rfl

/-- What stands before a buffer request's own effect gives its fault. -/
theorem faultsWith_of_bufferAccess {i : Instr} {s : State} {b : Nat} {kind : AccessKind} {c : Cause}
    (h : bufferAccess i = some (b, kind)) (hv : s.fault.valid = false)
    (herr : ∀ k, onBuffer b (portOpenTo s.cfg s.issuer i) kind s k = .error c) : faultsWith i s c.code := by
  obtain ⟨k, hk⟩ := requestEffect_of_bufferAccess h s
  exact faultsWith_of_error (isRequest_of_bufferAccess h) hv (hk.trans (herr k))

/-- A buffer request on a port that is not open to the issuer (R93). -/
theorem faultsWith_portViolation {i : Instr} {s : State} {b : Nat} {kind : AccessKind}
    (h : bufferAccess i = some (b, kind)) (hv : s.fault.valid = false) (hb : b < s.cfg.nbuf)
    (hport : portOpenTo s.cfg s.issuer i = false) : faultsWith i s 3 :=
  faultsWith_of_bufferAccess (c := .portViolation) h hv fun _ => onBuffer_eq_error.2 (.inr (.inl ⟨hb, hport, rfl⟩))

/-- The requests that write a buffer are P's (R93). -/
theorem portOpenTo_of_write {i : Instr} {b : Nat} (h : bufferAccess i = some (b, .write)) (c : Config) (a : Agent) :
    portOpenTo c a i = decide (a = .producer) := by
  cases i <;> cases h <;> rfl

end Sys2Proof.Machine
end

section
/-! Where a decode meets only written bytes, and where it must meet an unwritten one (R22, R25, R99). -/

namespace Sys2Proof.Machine

/-- A sequence of written bytes can be read. -/
theorem Memory.exists_readBytes {m : Memory} {i n : Nat} (h : ∀ k < n, (Memory.read m (i + k)).isSome = true) :
    ∃ bs, Memory.readBytes m i n = some bs := by
  refine ⟨(List.range n).map fun k => (Memory.read m (i + k)).getD 0, (Memory.readBytes_eq_some ..).2 ⟨by simp, ?_⟩⟩
  intro k hk
  obtain ⟨b, hb⟩ := Option.isSome_iff_exists.1 (h k hk)
  simp [hk, hb]

/-- A decode that ends before the bytes written below the cursor do meets no unwritten byte. -/
theorem Buffer.exists_decodesTo {bufcap len : Nat} {B : Buffer} (h : B.ok bufcap = true) (hlen : len ≤ B.cursor)
    (room : Nat) : ∃ cmds reason, DecodesTo B.bytes len 0 room cmds reason := by
  obtain ⟨-, -, -, hwritten⟩ := Buffer.ok_iff.1 h
  obtain ⟨bs, hbs⟩ := Memory.exists_readBytes (m := B.bytes) (i := 0) (n := len) fun k hk => by
    simpa using hwritten k (by omega)
  obtain ⟨hlength, -⟩ := (Memory.readBytes_eq_some ..).1 hbs
  exact ⟨_, _, decodesTo_recordsOf (len + 1) (by omega) (by omega) (hlength ▸ hbs)⟩

section
variable {m : Memory} {len pos room : Nat} {out : List Command} {reason : StopReason}

theorem DecodesTo.opcode_written (h : DecodesTo m len pos room out reason) (hpos : pos < len) :
    Memory.read m pos ≠ none := by
  cases h with
  | exhausted hle => omega
  | badOpcode _ hop | truncated _ hop | fbFull hop | record hop => simp [hop]

/-- A decode that meets a whole record, with room for it, goes on behind it. -/
theorem DecodesTo.behind_command {c : Command} (h : DecodesTo m len pos (room + 1) out reason)
    (hbytes : Memory.readBytes m pos (commandSize c) = some (encodeCommand c)) (hfits : pos + commandSize c ≤ len) :
    ∃ out', DecodesTo m len (pos + commandSize c) room out' reason := by
  obtain ⟨op, p, hcode, hsize⟩ := encodeCommand_opcode c
  have hop := Memory.read_of_readBytes_cons (hcode ▸ hbytes)
  have hpos := recordSize_pos hsize
  cases h with
  | exhausted hle => omega
  | badOpcode _ hop' hnone =>
    cases hop.symm.trans hop'
    cases hsize.symm.trans hnone
  | truncated _ hop' hsize' hcut =>
    cases hop.symm.trans hop'
    cases hsize.symm.trans hsize'
    omega
  | record hop' hsize' _ _ _ _ hrest =>
    cases hop.symm.trans hop'
    cases hsize.symm.trans hsize'
    exact ⟨_, hrest⟩

/-- A decode that meets a row of whole records, with room for all of them, goes on behind them. -/
theorem DecodesTo.behind_records {cmds : List Command} (h : DecodesTo m len pos (cmds.length + room) out reason)
    (hbytes : Memory.readBytes m pos (recordsSize cmds) = some (recordsBytes cmds))
    (hfits : pos + recordsSize cmds ≤ len) :
    ∃ out', DecodesTo m len (pos + recordsSize cmds) room out' reason := by
  induction cmds generalizing pos out with
  | nil => exact ⟨out, by simpa using h⟩
  | cons c cmds ih =>
    obtain ⟨hc, hrest⟩ := Memory.readBytes_records_cons hbytes
    rw [List.length_cons, Nat.add_right_comm] at h
    rw [recordsSize_cons, ← Nat.add_assoc] at hfits ⊢
    obtain ⟨out', h'⟩ := h.behind_command hc (by omega)
    exact ih h' hrest hfits

end

/-- A decode beyond recorded rows that fit into the frame buffer meets the byte at the cursor. -/
theorem Buffer.not_decodesTo_of_unwritten {B : Buffer} {cmds : List Command} {len fbcap : Nat}
    (hholds : B.holds cmds = true) (hroom : cmds.length ≤ fbcap) (hlen : B.cursor < len)
    (hunwritten : Memory.read B.bytes B.cursor = none) (out : List Command) (reason : StopReason) :
    ¬ DecodesTo B.bytes len 0 fbcap out reason := by
  rw [Buffer.holds, Bool.and_eq_true, decide_eq_true_eq, decide_eq_true_eq] at hholds
  obtain ⟨hcursor, hbytes⟩ := hholds
  rw [hcursor] at hbytes hlen hunwritten
  obtain ⟨room, rfl⟩ := Nat.exists_eq_add_of_le hroom
  intro h
  obtain ⟨out', h'⟩ := h.behind_records hbytes (by omega)
  rw [Nat.zero_add] at h'
  exact h'.opcode_written hlen hunwritten

end Sys2Proof.Machine
end

section
/-! A block in which no request can be performed: halted (R103), or with both agents stopped (R112, R120). -/

namespace Sys2Proof.Machine

theorem resetOr_of_no_reset {s : State} (h : ∀ rest, s.host ≠ .reset :: rest)
    (o : Host.Outcome State Fault Refusal) : resetOr o s = o := by
  unfold resetOr
  split
  next rest hhost => exact absurd hhost (h rest)
  next => rfl

theorem State.ended_iff {s : State} :
    s.ended = true ↔ s.agentP.active = false ∧ s.agentC.active = false ∧ s.fault.valid = false := by
  simp [State.ended, and_assoc]

theorem State.nextAgent_of_stopped {s : State} (hp : s.agentP.active = false) (hc : s.agentC.active = false) :
    s.nextAgent = none := by
  simp [State.nextAgent, State.contended, hp, hc]

/-- A step of a halted block is a reset of the host or none (R103, R104). -/
theorem step_of_fault {s : State} (hlegal : s.cfg.legal = true) (hphase : s.phase = .released)
    (hv : s.fault.valid = true) : step s = resetOr (.fault .halted) s := by
  simp [step, hlegal, hphase, hv]

/-- With both agents stopped a step is a reset of the host or changes nothing (R112). -/
theorem step_of_stopped {s : State} (hlegal : s.cfg.legal = true) (hphase : s.phase = .released)
    (hv : s.fault.valid = false) (h : s.nextAgent = none) : step s = resetOr (.next s) s := by
  simp [step, hlegal, hphase, hv, h]

end Sys2Proof.Machine
end

section
/-! The obligations of 60_exceptions.md, settled. -/

namespace Sys2Proof.Machine

/-- Settles O40: a request raises the lowest of the causes that apply to it and completes where there is none. -/
theorem theLowestCauseIsRaised : Obligations.TheLowestCauseIsRaised := by
  intro s hv
  refine ⟨fun r h => by rw [performWord_of_illegalWord h, performIllegal_eq_next hv], fun i hi => ?_⟩
  cases heff : requestEffect i s with
  | ok t =>
    have hnone := not_applies_of_requestEffect_ok hi heff
    exact ⟨fun c hc => absurd hc (hnone c), fun _ =>
      ⟨t, exec_request_ok hi hv heff, (completes_of_requestEffect hi heff).fault⟩⟩
  | error e =>
    obtain ⟨he, hmin⟩ := lowest_of_requestEffect_error hi heff
    refine ⟨fun c hc hlow => ?_, fun hnone => absurd he (hnone e)⟩
    have hcode : e.code = c.code := BitVec.eq_of_toNat_eq (le_antisymm (hmin c hc) (hlow e he))
    exact hcode ▸ faultsWith_of_error hi hv heff

/-- Settles O39: what completes leaves FAULT alone, and fault entry records one of the nine codes. -/
theorem faultsArePrecise : Obligations.FaultsArePrecise := by
  intro r s t hv h hfault
  obtain ⟨i, hdone⟩ | ⟨c, rfl⟩ := performWord_next h
  · exact absurd hdone.fault hfault
  · obtain ⟨hlow, hhigh⟩ := c.code_range
    exact ⟨c.code, hlow, hhigh, s.takeFault_eq c r⟩

/-- Settles O33: the number is the first check of every request that has one, and FB_READ's word has none. -/
theorem unitOutOfRangeFaults : Obligations.UnitOutOfRangeFaults := by
  intro s hv
  refine ⟨fun q v hq => ⟨?_, ?_⟩, fun i b kind hi hb => ?_, fun r hop hunit => ?_⟩
  · exact faultsWith_of_error (c := .badUnit) rfl hv (onQueue_eq_error.2 (.inl ⟨hq, rfl⟩))
  · exact faultsWith_of_error (c := .badUnit) rfl hv (onQueue_eq_error.2 (.inl ⟨hq, rfl⟩))
  · exact faultsWith_of_bufferAccess (c := .badUnit) hi hv fun _ => onBuffer_eq_error.2 (.inl ⟨hb, rfl⟩)
  · rw [performWord_of_illegalWord (illegalWord_of_fbRead_unit hop hunit), performIllegal_eq_next hv]

/-- Settles O34: the port is the second check of every request, and ENC_SIZE's is open to both agents. -/
theorem wrongPortFaults : Obligations.WrongPortFaults := by
  intro s hv
  refine ⟨fun q v hq => ⟨fun hport => ?_, fun hport => ?_⟩, fun hs i b hi hb => ?_, fun hs b n => ?_, fun b t h => ?_⟩
  · exact faultsWith_of_error (c := .portViolation) rfl hv (onQueue_eq_error.2 (.inr (.inl ⟨hq, hport, rfl⟩)))
  · exact faultsWith_of_error (c := .portViolation) rfl hv (onQueue_eq_error.2 (.inr (.inl ⟨hq, hport, rfl⟩)))
  · exact faultsWith_portViolation hi hv hb (by rw [portOpenTo_of_write hi, hs]; rfl)
  · have hclosed (i : Instr) (hi : portOpenTo s.cfg s.issuer i = decide (s.issuer = .consumer)) :
        portOpenTo s.cfg s.issuer i = false := by rw [hi, hs]; rfl
    refine ⟨fun hb => ⟨faultsWith_portViolation rfl hv hb (hclosed _ rfl),
      faultsWith_portViolation rfl hv hb (hclosed _ rfl)⟩, ?_⟩
    exact faultsWith_of_error (c := .portViolation) rfl hv
      (require_eq_error.2 (.inl ⟨hclosed (.fbRead n) rfl, rfl⟩))
  · exact fault_cause_ne_of_not_applies (c := .portViolation) rfl h nofun

/-- Settles O35: behind the first two checks a conflict is the third, and without one DATA_RACE does not apply. -/
theorem unorderedConflictIsADataRace : Obligations.UnorderedConflictIsADataRace := by
  intro s i b kind hi hv hb hport
  refine ⟨fun hrace => faultsWith_of_bufferAccess (c := .dataRace) hi hv fun _ => onBuffer_race hb hport hrace,
    fun hfree => ?_⟩
  have hreq := isRequest_of_bufferAccess hi
  obtain ⟨t, ht⟩ := exists_exec_eq_next hreq hv
  exact ⟨t, ht, fault_cause_ne_of_not_applies (c := .dataRace) hreq ht (mt (applies_dataRace_iff hi).1 hfree)⟩

/-- Settles O22: behind the access check an append looks at the window, then at the room. -/
theorem appendOutsideWindowOrCapacityFaults : Obligations.AppendOutsideWindowOrCapacityFaults := by
  intro s i b c hi hv hb hs hfree
  have heff : requestEffect i s = appendRecord b c (s.accessed b .write) := by
    rw [requestEffect_of_appendedRecord hi, onBuffer_of_producer hb hs (hs.symm ▸ hfree)]
  have hreq := isRequest_of_bufferAccess (bufferAccess_of_appendedRecord hi)
  refine ⟨fun hclosed => faultsWith_of_error (c := .encNotWritable) hreq hv ?_,
    fun hopen hfull => faultsWith_of_error (c := .encOverflow) hreq hv ?_⟩
  · rw [heff, appendRecord_eq_error]
    exact .inl ⟨by simpa using hclosed, rfl⟩
  · have hroom : s.cfg.bufcap < (s.buf b).cursor + commandSize c := by cases c <;> exact hfull
    rw [heff, appendRecord_eq_error]
    exact .inr ⟨by simpa using hopen, by simpa [State.accessed_eq] using hroom, rfl⟩

/-- Settles O38: behind whole records a decode meets the byte at the cursor, and below the cursor every byte is
written. -/
theorem onlyDecodeBeyondTheCursorReadsUnwrittenBytes : Obligations.OnlyDecodeBeyondTheCursorReadsUnwrittenBytes := by
  refine ⟨fun s b len cmds hv hb hs hfree hholds hroom hlen hcap hunwritten => ?_, fun s t i b hinv _ hi h => ?_⟩
  · have hmay : s.MayDecode (.decodeN b len) b len.toNat := ⟨hv, hb, hs, hfree, .inr ⟨len, rfl, rfl, hcap⟩⟩
    exact hmay.faultsWith_unwrittenRead (Buffer.not_decodesTo_of_unwritten hholds hroom hlen hunwritten)
  · obtain ⟨len, hin, hlen⟩ : ∃ len, decodedInput s i = some (b.toNat, len) ∧ len ≤ (s.buf b.toNat).cursor := by
      obtain rfl | ⟨len, rfl, hlen⟩ := hi
      · exact ⟨_, rfl, le_rfl⟩
      · exact ⟨_, rfl, hlen⟩
    obtain ⟨cmds, reason, hdec⟩ := Buffer.exists_decodesTo (State.buf_ok_of_inv hinv b.toNat) hlen s.cfg.fbcap
    exact fault_cause_ne_of_not_applies (c := .unwrittenRead)
      (isRequest_of_bufferAccess (bufferAccess_of_decodedInput hin)) h
      fun happ => (applies_unwrittenRead_iff hin).1 happ cmds reason hdec

/-- Settles O36: behind the access check DECODE_N looks at its length. -/
theorem lengthBeyondCapacityFaults : Obligations.LengthBeyondCapacityFaults := by
  intro s b len hv hb hs hfree hlen
  refine faultsWith_of_error (c := .badLength) rfl hv ?_
  have hport : s.byConsumer = true := decide_eq_true hs
  rw [requestEffect, decodeNEffect, unitNumber, onBuffer_of_not_conflicts hb hport (hs.symm ▸ hfree)]
  exact require_eq_error.2 (.inl ⟨decide_eq_false (Nat.not_le_of_lt hlen), rfl⟩)

/-- Settles O37: behind its port FB_READ looks at its index. -/
theorem indexBeyondCountFaults : Obligations.IndexBeyondCountFaults := by
  intro s idx hv hs hidx
  refine faultsWith_of_error (c := .fbIndex) rfl hv (require_eq_error.2 (.inr ⟨decide_eq_true hs, ?_⟩))
  exact require_eq_error.2 (.inl ⟨decide_eq_false (Nat.not_lt_of_le hidx), rfl⟩)

/-- Settles O11: no agent goes next, and the host has no reset to do. -/
theorem idleChangesNothing : Obligations.IdleChangesNothing := by
  intro s hlegal hphase hended hhost
  obtain ⟨hp, hc, hv⟩ := State.ended_iff.1 hended
  rw [step_of_stopped hlegal hphase hv (State.nextAgent_of_stopped hp hc), resetOr_of_no_reset hhost]

/-- Settles O41: every request and every step looks at FAULT first. -/
theorem haltedBlockPerformsNothing : Obligations.HaltedBlockPerformsNothing := by
  intro s hv
  refine ⟨fun i hi => exec_halted hi hv, performWord_halted hv, ?_, fun hlegal hphase hhost => ?_⟩
  · exact Bool.eq_false_iff.2 fun hended => by
      obtain ⟨-, -, hnone⟩ := State.ended_iff.1 hended
      exact Bool.noConfusion (hv.symm.trans hnone)
  · rw [step_of_fault hlegal hphase hv, resetOr_of_no_reset hhost]

end Sys2Proof.Machine
end

section
/-! What surrounds the block along a step: the phase, the host's list and the port of the agent that does not go (R6,
R118); and what a step of a running block with no host action to come is. -/

namespace Sys2Proof.Machine

/-- The phase, the host's list and the port of the agent that is not `a` are the same. -/
structure SameOutside (a : Agent) (s t : State) : Prop where
  phase : t.phase = s.phase
  host : t.host = s.host
  other : t.agent a.other = s.agent a.other

namespace SameOutside

theorem refl (a : Agent) (s : State) : SameOutside a s s := ⟨rfl, rfl, rfl⟩

theorem trans {a : Agent} {s t u : State} (h : SameOutside a s t) (k : SameOutside a t u) : SameOutside a s u :=
  ⟨k.phase.trans h.phase, k.host.trans h.host, k.other.trans h.other⟩

theorem setAgent (s : State) (a : Agent) (p : AgentPort) : SameOutside a s (s.setAgent a p) :=
  ⟨by simp, by simp, State.agent_setAgent_ne _ _ (Agent.other_ne a)⟩

theorem issuing (s : State) (a : Agent) : SameOutside a s (s.issuing a) := by
  obtain ⟨hphase, hhost, hother⟩ := setAgent s a { s.agent a with resp := none }
  exact ⟨hphase, hhost, by cases a <;> exact hother⟩

theorem countChoice (s : State) (a : Agent) : SameOutside a s s.countChoice := by
  refine ⟨?_, ?_, State.agent_countChoice _ _⟩ <;> unfold State.countChoice <;> split <;> rfl

theorem settle (s : State) (a : Agent) (dst : Nat) : SameOutside a s (s.settle a dst) := by
  unfold State.settle
  split
  · exact setAgent _ _ _
  · exact refl _ _

end SameOutside

/-- A completed request touches no phase, no host action and no port but its issuer's. -/
theorem Completes.sameOutside {s t : State} {i : Instr} (h : Completes s i t) : SameOutside s.issuer s t := by
  have answered {u : State} (r : Response) (hu : u.issuer = s.issuer) (hphase : u.phase = s.phase)
      (hhost : u.host = s.host) (hagent : ∀ a, u.agent a = s.agent a) : SameOutside s.issuer s (u.respond r) :=
    ⟨by simpa using hphase, by simpa using hhost, (answers_respond s u r hu hagent).2⟩
  cases h with
  | answers r _ => exact answered r rfl rfl rfl fun _ => rfl
  | enqueues => exact answered _ (by simp) (by simp) (by simp) fun a => by simp
  | dequeues => exact answered _ (by simp) (by simp) (by simp) fun a => by simp
  | changes r => exact answered r (by simp) (by simp) (by simp) fun a => by simp
  | decodes =>
    exact answered _ (by simp [State.accessed]) (by simp [State.accessed]) (by simp [State.accessed])
      fun a => by simp [State.accessed]

theorem performWord_sameOutside {r : Packet} {s t : State} (h : performWord r s = .next t) :
    SameOutside s.issuer s t := by
  obtain ⟨i, hdone⟩ | ⟨c, rfl⟩ := performWord_next h
  · exact hdone.sameOutside
  · exact ⟨by simp, by simp, by simp⟩

/-- In a block without a fault every request word answers a next state. -/
theorem exists_performWord_eq_next {s : State} (hv : s.fault.valid = false) (r : Packet) :
    ∃ t, performWord r s = .next t := by
  cases hdec : decodeRequest r with
  | ok i => rw [performWord_of_decode hdec]; exact exists_exec_eq_next (decodeRequest_isRequest hdec) hv
  | error e => rw [performWord, hdec]; exact ⟨_, performIllegal_eq_next hv r⟩

/-- What a step of agent `a` is: local lines, which leave the block alone, or its outstanding request performed by the
block with `a` as the issuer, and then local lines. -/
inductive AgentStep (a : Agent) (s : State) : State → Prop where
  | moves {t : State} : (s.agent a).outstanding = none → SameBlock s t → SameOutside a s t → AgentStep a s t
  | requests {r : Packet} {u w t : State} : (s.agent a).outstanding = some r → SameBlock s u → u.issuer = a →
      performWord r u = .next w → SameBlock w t → SameOutside a s t → AgentStep a s t

theorem agentStep_cases {a : Agent} {s t : State} (h : agentStep a s = .next t) : AgentStep a s t := by
  have of_goLocal (hout : (s.agent a).outstanding = none) (ht : t = s.setAgent a (s.agent a).goLocal) :
      AgentStep a s t := ht ▸ .moves hout (SameBlock.setAgent _ _ _) (SameOutside.setAgent _ _ _)
  cases hline : (s.agent a).line with
  | issue dst base unit val =>
    rw [agentStep_of_issue hline] at h
    obtain ⟨w, hw, rfl⟩ := settled_eq_next.1 h
    have hout : SameOutside a (s.issuing a) w := performWord_sameOutside hw
    exact .requests (by rw [AgentPort.outstanding, hline]) (SameBlock.issuing s a) rfl hw (SameBlock.settle _ _ _)
      (((SameOutside.issuing s a).trans hout).trans (SameOutside.settle _ _ _))
  | stop =>
    rw [agentStep, hline] at h
    cases h
    exact .moves (by rw [AgentPort.outstanding, hline]) (SameBlock.refl s) (SameOutside.refl a s)
  | assign | branch | goto =>
    rw [agentStep, hline] at h
    cases h
    exact of_goLocal (by rw [AgentPort.outstanding, hline]) rfl

theorem AgentStep.sameOutside {a : Agent} {s t : State} (h : AgentStep a s t) : SameOutside a s t := by
  cases h with
  | moves _ _ hout => exact hout
  | requests _ _ _ _ _ hout => exact hout

/-- In a block without a fault every agent can step. -/
theorem exists_agentStep_eq_next {s : State} (hv : s.fault.valid = false) (a : Agent) :
    ∃ t, agentStep a s = .next t := by
  cases hline : (s.agent a).line with
  | issue dst base unit val =>
    have hv' : (s.issuing a).fault.valid = false := by rw [(SameBlock.issuing s a).fault]; exact hv
    obtain ⟨w, hw⟩ := exists_performWord_eq_next hv' (issuedWord base unit val (s.agent a).vars)
    exact ⟨_, by rw [agentStep_of_issue hline, hw]; rfl⟩
  | assign | branch | goto | stop => exact ⟨_, by rw [agentStep, hline]⟩

/-- A step of a released block with no host action to come: there is no fault, and the agent that goes next steps, or
nothing changes (R103, R112). -/
theorem step_of_released {s t : State} (hphase : s.phase = .released) (hhost : s.host = [])
    (h : step s = .next t) :
    s.fault.valid = false ∧ ((s.nextAgent = none ∧ t = s) ∨
      ∃ a, s.nextAgent = some a ∧ agentStep a s.countChoice = .next t) := by
  have hlegal : s.cfg.legal = true := by
    by_contra hillegal
    rw [step, if_neg hillegal] at h
    cases h
  have hreset : ∀ rest, s.host ≠ .reset :: rest := by simp [hhost]
  cases hv : s.fault.valid with
  | true =>
    rw [step_of_fault hlegal hphase hv, resetOr_of_no_reset hreset] at h
    cases h
  | false =>
    refine ⟨rfl, ?_⟩
    cases hnext : s.nextAgent with
    | none =>
      rw [step_of_stopped hlegal hphase hv hnext, resetOr_of_no_reset hreset] at h
      cases h
      exact .inl ⟨rfl, rfl⟩
    | some a =>
      rw [step_of_nextAgent hlegal hphase hv hnext] at h
      exact .inr ⟨a, rfl, h⟩

/-- A released block with no host action to come stays so. -/
theorem step_keeps_released {s t : State} (hphase : s.phase = .released) (hhost : s.host = [])
    (h : step s = .next t) : t.phase = .released ∧ t.host = [] := by
  obtain ⟨-, ⟨-, rfl⟩ | ⟨a, -, hstep⟩⟩ := step_of_released hphase hhost h
  · exact ⟨hphase, hhost⟩
  · have hout := (SameOutside.countChoice s a).trans (agentStep_cases hstep).sameOutside
    exact ⟨hout.phase.trans hphase, hout.host.trans hhost⟩

end Sys2Proof.Machine
end

section
/-! Schedules (R129): the agent that a choice lets go, and an agent that waits while the other one goes. -/

namespace Sys2Proof.Machine

theorem State.waiting_iff {s : State} {a : Agent} :
    s.waiting a = true ↔ s.phase = .released ∧ s.fault.valid = false ∧ (s.agent a).active = true := by
  simp [State.waiting, and_assoc]

/-- The choice between the agents is taken where both can go; where one alone can, it goes. -/
theorem State.granted_of_active {s : State} {a : Agent} (ha : (s.agent a).active = true) (x : Agent) :
    s.granted x = if (s.agent a.other).active then some x else some a := by
  have hcontended : ({ s with sched := [x] } : State).contended = (s.agent a.other).active :=
    (s.contended_eq a).trans (by rw [ha, Bool.true_and])
  cases ho : (s.agent a.other).active with
  | true => exact State.nextAgent_of_contended (hcontended.trans ho)
  | false => exact State.nextAgent_of_alone (by cases a <;> exact ha) (by cases a <;> exact ho)

/-- An agent that has something to do is let go where the choice names it. -/
theorem State.granted_self {s : State} {a : Agent} (h : s.waiting a = true) : s.granted a = some a := by
  obtain ⟨-, -, hactive⟩ := State.waiting_iff.1 h
  rw [State.granted_of_active hactive, ite_self]

/-- Where an agent waits and is not let go, the other one steps, and the first still stands where it stood. -/
theorem stepBy_of_not_granted {s : State} {a x : Agent} (hlegal : s.cfg.legal = true)
    (hwait : s.waiting a = true) (hx : s.granted x ≠ some a) :
    ∃ t, stepBy x s = .next t ∧ t.cfg = s.cfg ∧ t.phase = s.phase ∧ t.agent a = s.agent a := by
  obtain ⟨hphase, hv, hactive⟩ := State.waiting_iff.1 hwait
  have hother : s.granted x = some a.other := by
    rw [State.granted_of_active hactive] at hx ⊢
    split_ifs at hx ⊢
    · rw [(Agent.eq_or_other a x).resolve_left fun h => hx (congrArg some h)]
    · exact absurd rfl hx
  let u : State := { s with sched := [x] }
  have hstep : step u = agentStep a.other u.countChoice := step_of_nextAgent hlegal hphase hv hother
  obtain ⟨t, ht⟩ := exists_agentStep_eq_next (s := u.countChoice) (by rw [(SameBlock.countChoice u).fault]; exact hv)
    a.other
  have hout := (SameOutside.countChoice u a.other).trans (agentStep_cases ht).sameOutside
  have hagent : t.agent a = u.agent a := by simpa using hout.other
  refine ⟨{ t with sched := s.sched }, by rw [stepBy, show step u = .next t from hstep.trans ht], ?_, hout.phase, ?_⟩
  · exact (step_cfg (hstep.trans ht) :)
  · cases a <;> exact hagent

/-- Both agents spin on a local line. -/
def bothSpinning : State :=
  { State.reset.release with agentP := ⟨[.goto 0], 0, [], none⟩, agentC := ⟨[.goto 0], 0, [], none⟩ }

/-- While P is chosen again and again, nothing but the number of choices changes. -/
theorem runBy_bothSpinning (n : Nat) :
    runBy (fun _ => .producer) bothSpinning n = .next { bothSpinning with turns := n } := by
  induction n with
  | zero => rfl
  | succ n ih => rw [runBy, ih]; rfl

end Sys2Proof.Machine
end

section
/-! The pool's boot (R115 to R117): what the host's actions make of a reset block, action by action. -/

namespace Sys2Proof.Machine

/-- A run goes on with the next state of its first step. -/
theorem Core.run_succ_of_step {M : Host.Core} {s t : M.State} (h : M.step s = .next t) (k : Nat) :
    M.run (k + 1) s = M.run k t := by
  rw [Host.Core.run, h]

theorem run_succ_of_step {s t : State} (h : step s = .next t) (k : Nat) : core.run (k + 1) s = core.run k t :=
  Core.run_succ_of_step (M := core) h k

/-- A step while the agents are held is the host's next action. -/
theorem step_of_held {s : State} {act : HostAction} {rest : List HostAction} (hlegal : s.cfg.legal = true)
    (hphase : s.phase = .held) (hhost : s.host = act :: rest) : step s = hostAct act { s with host := rest } := by
  simp [step, hlegal, hphase, heldStep, hhost]

/-- A preload on a queue that exists and is not full (R115). -/
theorem hostPreload_of_not_full {s : State} {q : Nat} (v : Word32) (hq : q < s.cfg.nq)
    (hfull : (s.queue q).full (s.cap q) = false) :
    hostPreload q v s = .next (s.setQueue q ((s.queue q).enqueue (s.cap q) v Clock.zero)) := by
  rw [State.cap] at hfull
  simp [hostPreload, Nat.not_le_of_lt hq, hfull, State.cap]

/-- A preload on a full queue is refused (R115). -/
theorem hostPreload_of_full {s : State} {q : Nat} (v : Word32) (hq : q < s.cfg.nq)
    (hfull : (s.queue q).full (s.cap q) = true) : hostPreload q v s = .refused .preloadFull := by
  rw [State.cap] at hfull
  simp [hostPreload, Nat.not_le_of_lt hq, hfull]

/-- A queue in range is full exactly where it holds N - 1 entries (R9, R19). -/
theorem State.Ring.full_iff {s : State} {q : Nat} (h : s.Ring q) :
    (s.queue q).full (s.cap q) = true ↔ (s.contents q).length = s.cap q - 1 := by
  rw [Queue.full_iff h.legal h.head h.tail, State.contents, Queue.contents_length]

/-- A queue in range is empty exactly where it has no contents (R19). -/
theorem State.Ring.empty_iff {s : State} {q : Nat} (h : s.Ring q) :
    (s.queue q).empty = true ↔ s.contents q = [] := by
  rw [Queue.empty_iff h.head h.tail, ← List.length_eq_zero_iff, State.contents, Queue.contents_length]

@[simp] theorem Queue.contents_reset (cap : Nat) : Queue.reset.contents cap = [] := by
  simp [Queue.contents, Queue.count, Queue.reset]

@[simp] theorem Queue.entries_reset (cap : Nat) : Queue.reset.entries cap = [] := by
  simp [Queue.entries, Queue.count, Queue.reset]

/-! ### A row of preloads -/

/-- Of two writes of one queue the second counts. -/
@[simp] theorem State.setQueue_setQueue (s : State) (q : Nat) (Q Q' : Queue) :
    (s.setQueue q Q).setQueue q Q' = s.setQueue q Q' := by
  simp [State.setQueue]

/-- What preloads of the values `vs` leave of the row of slots: each with the clock (0, 0) (R115). -/
def preloadedSlots (vs : List Word32) : List Slot := vs.map fun v => ⟨v, Clock.zero⟩

/-- Preloads that find room behind what the queue holds, and then `rest`: a run does them one by one. -/
theorem run_preloads {q : Nat} {rest : List HostAction} (vs : List Word32) {s : State} {v : Word32}
    (hinv : s.inv = true) (hphase : s.phase = .held) (hq : q < s.cfg.nq)
    (hhost : s.host = (v :: vs).map (HostAction.preload q) ++ rest)
    (hroom : (s.contents q).length + (v :: vs).length ≤ s.cap q - 1) :
    ∃ Q : Queue, Q.ok (s.cap q) = true ∧ Q.entries (s.cap q) = s.entries q ++ preloadedSlots (v :: vs) ∧
      ∀ k, core.run ((v :: vs).length + k) s = core.run k (({ s with host := rest } : State).setQueue q Q) := by
  have hok := State.queueOk_of_inv hinv hq
  have hring := hok.ring
  rw [List.length_cons] at hroom
  have hfull : (s.queue q).full (s.cap q) = false := hring.full_eq_false (by omega)
  let Q := (s.queue q).enqueue (s.cap q) v Clock.zero
  let u : State := ({ s with host := vs.map (HostAction.preload q) ++ rest } : State).setQueue q Q
  have hQ : Q.ok (s.cap q) = true := Queue.ok_enqueue hok.legal hok.ok hfull
  have hQentries : Q.entries (s.cap q) = s.entries q ++ [⟨v, Clock.zero⟩] :=
    Queue.entries_enqueue hring.legal hring.head hring.tail hfull
  obtain ⟨hlegal, -⟩ := State.inv_iff.1 hinv
  have hstep : step s = .next u :=
    (step_of_held hlegal hphase hhost).trans (hostPreload_of_not_full v hq hfull)
  have hrun (n k : Nat) : core.run (n + 1 + k) s = core.run (n + k) u := by
    rw [Nat.add_right_comm]
    exact run_succ_of_step hstep _
  cases vs with
  | nil => exact ⟨Q, hQ, hQentries, fun k => (hrun 0 k).trans (by rw [Nat.zero_add]; rfl)⟩
  | cons w ws =>
    have huq : u.queue q = Q := by simp [u]
    have hu : u.inv = true := State.inv_setQueue ((SameBlock.setHost s _).inv hinv) hq hQ
    have hroom' : (u.contents q).length + (w :: ws).length ≤ u.cap q - 1 := by
      have hlen : (u.contents q).length = (s.contents q).length + 1 := by
        rw [← State.entries_length, ← State.entries_length, State.entries, huq]
        exact (congrArg List.length hQentries).trans (by simp)
      rw [hlen, show u.cap q = s.cap q from rfl]
      omega
    obtain ⟨Q', hQ', hentries, hrest⟩ := run_preloads ws hu hphase hq rfl hroom'
    refine ⟨Q', hQ', hentries.trans ?_, fun k => ?_⟩
    · rw [State.entries, huq, show u.cap q = s.cap q from rfl, hQentries, List.append_assoc]
      rfl
    · rw [List.length_cons, hrun, hrest]
      exact congrArg (core.run k) (State.setQueue_setQueue { s with host := rest } q Q Q')

/-! ### The boot -/

/-- A block of configuration `c` right after reset, with the host's actions to come, the agents' scripts and the
schedule given. -/
def bootStart (c : Config) (acts : List HostAction) (p q : AgentPort) (sched : List Agent) : State :=
  { State.ofConfig c with host := acts, agentP := p, agentC := q, sched := sched }

theorem SameBlock.bootStart (c : Config) (acts : List HostAction) (p q : AgentPort) (sched : List Agent) :
    SameBlock (State.ofConfig c) (bootStart c acts p q sched) := ⟨rfl, rfl, rfl, rfl, rfl, rfl, rfl, rfl⟩

/-- The indices of the buffers as FREE gets them, in increasing order (R117). -/
def bufferIndices (nbuf : Nat) : List Word32 := (List.range nbuf).map (BitVec.ofNat 32)

/-- What the boot leaves of a configuration (R117): the agents released, the indices in FREE in increasing order, and
everything else as reset gives it. -/
structure Booted (c : Config) (free : Nat) (s : State) : Prop where
  cfg : s.cfg = c
  phase : s.phase = .released
  host : s.host = []
  buf (b : Nat) : s.buf b = Buffer.reset
  filled : s.entries free = preloadedSlots (bufferIndices c.nbuf)
  untouched {q : Nat} : q ≠ free → s.queue q = Queue.reset
  inv : s.inv = true
  clocks : s.clocksOk = true

/-- A reset block, released, with the indices in FREE. -/
theorem booted_of_filled {c : Config} {free : Nat} {p q : AgentPort} {sched : List Agent} {Q : Queue}
    (hlegal : c.legal = true) (hfree : free < c.nq) (hQ : Q.ok (c.queue free).cap = true)
    (hentries : Q.entries (c.queue free).cap = preloadedSlots (bufferIndices c.nbuf))
    (hclocks : ((bootStart c [] p q sched).setQueue free Q).release.clocksOk = true) :
    Booted c free ((bootStart c [] p q sched).setQueue free Q).release := by
  have hblock := SameBlock.bootStart c [] p q sched
  have hqueue (n : Nat) : ((bootStart c [] p q sched).setQueue free Q).release.queue n =
      if n = free then Q else Queue.reset := by
    rw [State.queue_release, State.queue_setQueue, hblock.queue, State.queue_ofConfig]
  have hinv : ((bootStart c [] p q sched).setQueue free Q).inv = true :=
    State.inv_setQueue (hblock.inv (State.inv_ofConfig hlegal)) hfree hQ
  refine ⟨rfl, rfl, rfl, fun b => ?_, ?_, fun hn => by rw [hqueue, if_neg hn], (SameBlock.release _).inv hinv, hclocks⟩
  · rw [State.buf_release, State.buf_setQueue, hblock.buf, State.buf_ofConfig]
  · rw [State.entries, hqueue, if_pos rfl]
    exact hentries

/-- What every step keeps, a run keeps. -/
theorem Core.run_keeps {M : Host.Core} {P : M.State → Prop} (hkeep : ∀ s t, P s → M.step s = .next t → P t) {n : Nat}
    {s t : M.State} (hs : P s) (h : M.run n s = .next t) : P t := by
  induction n generalizing s with
  | zero => cases h; exact hs
  | succ n ih =>
    rw [Host.Core.run] at h
    split at h
    next u hu => exact ih (hkeep s u hs hu) h
    next => cases h
    next => cases h

/-- The boot's run: the reset, the preloads one by one, and the release. -/
theorem run_poolBoot {c : Config} {free : Nat} (p q : AgentPort) (sched : List Agent) (hlegal : c.legal = true)
    (hfree : free < c.nq) (hroom : c.nbuf + 1 ≤ (c.queue free).cap) :
    ∃ s : State, core.run (c.nbuf + 2) (bootStart c (poolBoot free c.nbuf) p q sched) = .next s ∧ Booted c free s := by
  let start := bootStart c (poolBoot free c.nbuf) p q sched
  let s := bootStart c ((bufferIndices c.nbuf).map (HostAction.preload free) ++ [.release]) p q sched
  have hreset : step start = .next s := by
    refine (step_of_held hlegal rfl rfl).trans ?_
    simp only [s, bufferIndices, List.map_map]
    rfl
  have hsame : SameBlock (State.ofConfig c) s := SameBlock.bootStart _ _ _ _ _
  have hempty : s.queue free = Queue.reset := (hsame.queue free).trans (State.queue_ofConfig c free)
  have hlen : (bufferIndices c.nbuf).length = c.nbuf := by simp [bufferIndices]
  obtain ⟨-, -, -, hpos, -⟩ := Config.legal_iff.1 hlegal
  obtain ⟨v, vs, hvs⟩ := List.exists_cons_of_length_pos (hlen ▸ hpos)
  have hcap : s.cap free = (c.queue free).cap := rfl
  obtain ⟨Q, hQ, hentries, hpreloads⟩ := run_preloads (s := s) (q := free) (rest := [.release]) vs (v := v)
    (hsame.inv (State.inv_ofConfig hlegal)) rfl hfree (by rw [← hvs]; rfl) (by
      rw [State.contents, hempty, Queue.contents_reset, ← hvs, hlen, hcap, List.length_nil]
      omega)
  have hrelease : step (({ s with host := [.release] } : State).setQueue free Q) =
      .next (({ s with host := [] } : State).setQueue free Q).release :=
    step_of_held (act := .release) (rest := []) hlegal rfl rfl
  have hrun : core.run (c.nbuf + 2) start = .next ((bootStart c [] p q sched).setQueue free Q).release := by
    rw [run_succ_of_step hreset, ← hlen, hvs, hpreloads 1, run_succ_of_step hrelease]
    rfl
  refine ⟨_, hrun, booted_of_filled hlegal hfree hQ (hentries.trans ?_) ?_⟩
  · rw [State.entries, hempty, Queue.entries_reset, hvs]
    rfl
  · exact Core.run_keeps (M := core) (P := fun u => State.clocksOk u = true) everyStepKeepsTheClocksInOrder
      ((SameBlock.bootStart c _ p q sched).clocksOk (State.clocksOk_ofConfig c)) hrun

end Sys2Proof.Machine
end

section
/-! An access that the other agent's clock does not know (R46, R123): P's in its present epoch, or C's. -/

namespace Sys2Proof.Machine

/-- What a buffer request without a fault leaves in the access record of its buffer: the access noted (R46); it touches
no queue, no clock and no other buffer. -/
theorem Completes.of_access {s t : State} {i : Instr} {b : Nat} {kind : AccessKind} (h : Completes s i t)
    (hi : bufferAccess i = some (b, kind)) :
    sameQueues s t ∧ sameClocks s t ∧ sameBufsBut b s t ∧ (t.buf b).lastWrite = (s.noted b kind).lastWrite ∧
      (t.buf b).lastRead = (s.noted b kind).lastRead := by
  cases h with
  | answers r hnone => cases hi.symm.trans hnone
  | enqueues => cases hi
  | dequeues => cases hi
  | changes r hacc _ _ _ hB =>
    cases hi.symm.trans hacc
    refine ⟨fun q => by simp, fun a => by simp, fun n hn => by simp [hn], ?_⟩
    rw [State.buf_setBuf_respond]
    cases hB <;> exact ⟨rfl, rfl⟩
  | decodes hin =>
    cases hi.symm.trans (bufferAccess_of_decodedInput hin)
    exact ⟨fun q => by simp [State.accessed], fun a => by simp [State.accessed],
      fun n hn => by simp [State.accessed, hn], by simp, by simp⟩

/-- Every request keeps the clocks in order, whether it completes or faults. -/
theorem exec_clocksOk {i : Instr} {s t : State} (hi : i.isRequest = true) (h : exec i s = .next t)
    (hs : s.clocksOk = true) : t.clocksOk = true := by
  obtain ⟨-, hdone | ⟨c, rfl⟩⟩ := exec_request_cases hi h
  · exact hdone.clocksOk hs
  · exact hs

/-- Two buffer requests in a row, the first by `a` and the second by the other agent: where the clocks are in order and
one of the two is a write, they race (R46, R123). -/
theorem faultsWith_dataRace_of_accesses {t u : State} {a : Agent} {i j : Instr} {b : Nat} {kind kind' : AccessKind}
    (hclocks : t.clocksOk = true) (hb : b < t.cfg.nbuf) (hi : bufferAccess i = some (b, kind))
    (hj : bufferAccess j = some (b, kind')) (hport : portOpenTo t.cfg a.other j = true)
    (hkinds : kind = .write ∨ kind = .read ∧ kind' = .write) (hrun : runRequests [(a, i)] t = some u) :
    faultsWith j (u.setIssuer a.other) 4 := by
  obtain ⟨w, hexec, hv, hend⟩ := runRequests_cons_eq_some.1 hrun
  cases hend
  have hcfg : u.cfg = t.cfg := (exec_cfg hexec :)
  have hdone : Completes (t.setIssuer a) i u :=
    completes_of_requestEffect (isRequest_of_bufferAccess hi)
      (requestEffect_of_exec (isRequest_of_bufferAccess hi) hexec hv)
  obtain ⟨-, hsame, -, hwrite, hread⟩ := hdone.of_access hi
  obtain ⟨hbehind, -⟩ := State.clocksOk_iff.1 hclocks
  have hunknown : (u.vc a.other).get a < t.epoch a := by
    rw [hsame a.other, State.vc_setIssuer]; exact hbehind a
  have hrace : conflicts (u.setIssuer a.other) a.other b kind' := by
    simp only [conflicts, State.vc_setIssuer, State.buf_setIssuer, Agent.other_other, hwrite, hread]
    rcases hkinds with rfl | ⟨rfl, rfl⟩
    · exact .inl ⟨t.epoch a, by simp [State.noted, Buffer.noteAccess, State.epoch], hunknown⟩
    · exact .inr ⟨rfl, by simpa [State.noted, Buffer.noteAccess, State.epoch] using hunknown⟩
  have hb' : b < (u.setIssuer a.other).cfg.nbuf := by rw [State.setIssuer_cfg, hcfg]; exact hb
  have hport' : portOpenTo (u.setIssuer a.other).cfg a.other j = true := by rw [State.setIssuer_cfg, hcfg]; exact hport
  exact faultsWith_of_bufferAccess (c := .dataRace) hj hv fun k => onBuffer_race hb' hport' hrace

end Sys2Proof.Machine
end

section
/-! The obligations of 70_reset_and_hazards.md on reset, the host and the schedule, settled. -/

namespace Sys2Proof.Machine

/-- Settles O45: the parts are the reset values, one by one. -/
theorem resetEstablishesTheInvariants : Obligations.ResetEstablishesTheInvariants := by
  refine ⟨by decide, rfl, fun c hlegal => ⟨State.inv_ofConfig hlegal, State.clocksOk_ofConfig c, ?_,
    State.recordsOk_ofConfig c⟩⟩
  simp [State.clocksFresh, State.ofConfig, Queue.reset]

/-- Settles O53: a host reset leaves the block that reset gives, and its phase. -/
theorem resetGivesEveryPieceItsValue : Obligations.ResetGivesEveryPieceItsValue := by
  refine ⟨fun c s hs => ?_, fun c hillegal => by simp [State.configure, hillegal]⟩
  obtain ⟨c, hsame, hphase⟩ : ∃ c, SameBlock (State.ofConfig c) s ∧ s.phase = .held := by
    rcases hs with rfl | ⟨u, rfl⟩
    · exact ⟨c, SameBlock.refl _, rfl⟩
    · exact ⟨u.cfg, SameBlock.hostReset u, rfl⟩
  have hqueue (q : Nat) : s.queue q = Queue.reset := (hsame.queue q).trans (State.queue_ofConfig c q)
  have hbuf (b : Nat) : s.buf b = Buffer.reset := (hsame.buf b).trans (State.buf_ofConfig c b)
  refine ⟨fun q => ?_, fun b => ?_, ?_, ?_, hsame.fault, hsame.vcP, hsame.vcC, hphase⟩
  · rw [hqueue]
    exact ⟨rfl, rfl, fun i => rfl⟩
  · simp only [State.byte, hbuf]
    exact ⟨fun i => rfl, rfl, rfl, rfl, rfl⟩
  · rw [hsame.fb]; rfl
  · rw [hsame.fb]; exact fun i => rfl

/-- Settles O56: a held step is the host's next action, and none of these touches an agent; only the release ends the
phase. -/
theorem heldAgentsDoNothing : Obligations.HeldAgentsDoNothing := by
  intro s t hphase hstep
  have hheld : heldStep s = .next t := by
    unfold step at hstep
    rw [hphase] at hstep
    split at hstep
    · exact hstep
    · cases hstep
  unfold heldStep at hheld
  split at hheld
  · cases hheld
    exact ⟨rfl, rfl, .inl hphase⟩
  · rename_i act rest hhost
    cases act with
    | reset => cases hheld; exact ⟨rfl, rfl, .inl rfl⟩
    | release => cases hheld; exact ⟨rfl, rfl, .inr ⟨rest, hhost⟩⟩
    | preload q v =>
      simp only [hostAct, hostPreload] at hheld
      split_ifs at hheld
      cases hheld
      exact ⟨rfl, rfl, .inl hphase⟩

/-- Settles O55: the preload is refused on a full queue, and is an enqueue with the clock (0, 0) on any other. -/
theorem preloadEnqueuesWithoutAClock : Obligations.PreloadEnqueuesWithoutAClock := by
  intro s q v rest hinv hphase hhost hq
  have hok := State.queueOk_of_inv hinv hq
  have hring := hok.ring
  obtain ⟨hlegal, -⟩ := State.inv_iff.1 hinv
  have hstep := step_of_held hlegal hphase hhost
  refine ⟨fun hlen => ?_, fun hlen => ?_⟩
  · exact hstep.trans (hostPreload_of_full (s := { s with host := rest }) v hq (hring.full_iff.2 hlen))
  · have hfull : (s.queue q).full (s.cap q) = false := Bool.eq_false_iff.2 (mt hring.full_iff.1 hlen)
    refine ⟨_, hstep.trans (hostPreload_of_not_full (s := { s with host := rest }) v hq hfull), ?_, ?_,
      fun n hn => by rw [State.queue_setQueue, if_neg hn]; rfl, rfl, hphase, rfl, rfl, fun b => rfl, rfl, rfl, rfl,
      rfl, rfl⟩
    · rw [State.contents, State.queue_setQueue, if_pos rfl]
      exact Queue.contents_enqueue hring.legal hring.head hring.tail hfull
    · rw [State.queue_setQueue, if_pos rfl, Queue.enqueue_slots, Sparse.get_put]
      exact if_pos rfl

/-- Settles O57: the boot's run ends with the indices in FREE, and no other queue is touched. -/
theorem poolBootFillsTheFreeQueue : Obligations.PoolBootFillsTheFreeQueue := by
  intro c free hlegal hfree hroom
  obtain ⟨t, hrun, hboot⟩ := run_poolBoot AgentPort.idle AgentPort.idle [] hlegal hfree hroom
  refine ⟨t, hrun, ?_, fun q hq => ?_, hboot.phase, hboot.host⟩
  · rw [(State.queueOk_of_inv hboot.inv (hboot.cfg.symm ▸ hfree)).contents_eq, hboot.filled]
    simp [preloadedSlots, bufferIndices]
  · rw [State.contents, hboot.untouched hq, Queue.contents_reset]

/-- Settles O58: a choice that names a waiting agent lets it go; a choice that never names C lets it spin for ever; and
as long as a waiting agent is not let go it stays as it is, which fairness does not allow without end. -/
theorem weakFairnessServesAWaitingAgent : Obligations.WeakFairnessServesAWaitingAgent := by
  refine ⟨fun schedule s hnames a n hwaits => ?_, ⟨fun _ => .producer, bothSpinning, by decide, fun hfair => ?_⟩,
    fun schedule s a hfair hlegal hhost hwait => ?_⟩
  · obtain ⟨m, hm, hname⟩ := hnames a n
    obtain ⟨t, ht, hwait⟩ := hwaits m hm
    exact ⟨m, t, hm, ht, by rw [hname]; exact State.granted_self hwait⟩
  · obtain ⟨m, t, -, ht, hgrant⟩ := hfair .consumer 0 fun m _ => ⟨_, runBy_bothSpinning m, rfl⟩
    cases (runBy_bothSpinning m).symm.trans ht
    cases hgrant
  · by_contra hnever
    rw [not_or] at hnever
    obtain ⟨hnotserved, hnofault⟩ := hnever
    have hstays (n : Nat) : ∃ t, runBy schedule s n = .next t ∧ t.cfg.legal = true ∧ t.agent a = s.agent a ∧
        t.waiting a = true := by
      induction n with
      | zero => exact ⟨s, rfl, hlegal, rfl, hwait⟩
      | succ n ih =>
        obtain ⟨t, ht, htlegal, hagent, htwait⟩ := ih
        have hnotgranted : t.granted (schedule n) ≠ some a := fun hgrant => hnotserved ⟨n, t, ht, hagent, hgrant⟩
        obtain ⟨u, hu, hcfg, hphase, hagent'⟩ := stepBy_of_not_granted htlegal htwait hnotgranted
        have hrun : runBy schedule s (n + 1) = .next u := by rw [runBy, ht]; exact hu
        obtain ⟨hreleased, -, hactive⟩ := State.waiting_iff.1 htwait
        have hv : u.fault.valid = false := Bool.eq_false_iff.2 fun hv => hnofault ⟨n + 1, u, hrun, hv⟩
        exact ⟨u, hrun, hcfg ▸ htlegal, hagent'.trans hagent,
          State.waiting_iff.2 ⟨hphase.trans hreleased, hv, hagent'.symm ▸ hactive⟩⟩
    obtain ⟨m, t, -, ht, hgrant⟩ := hfair a 0 fun m _ => (hstays m).imp fun t ⟨ht, _, _, hw⟩ => ⟨ht, hw⟩
    obtain ⟨t', ht', -, hagent, -⟩ := hstays m
    cases ht.symm.trans ht'
    exact hnotserved ⟨m, t, ht, hagent, hgrant⟩

/-- Settles O51: neither agent's clock knows the other's present epoch, so whichever of the two accesses comes second
races. -/
theorem sealAfterSubmitRaces : Obligations.SealAfterSubmitRaces := by
  intro s t b q v _ hclocks hb _ hrun
  obtain ⟨w, hpush, hv, hrun⟩ := runRequests_cons_eq_some.1 hrun
  obtain ⟨w', hpop, hv', hrun⟩ := runRequests_cons_eq_some.1 hrun
  cases hrun
  have hcfg : t.cfg = s.cfg := (exec_cfg hpop).trans (exec_cfg hpush :)
  have hb' : b.toNat < t.cfg.nbuf := hcfg ▸ hb
  have hw : w.clocksOk = true := exec_clocksOk rfl hpush hclocks
  have ht : t.clocksOk = true := exec_clocksOk (i := .pop q) rfl hpop hw
  exact ⟨fun u => faultsWith_dataRace_of_accesses ht hb' rfl rfl rfl (.inl rfl),
    fun u => faultsWith_dataRace_of_accesses ht hb' rfl rfl rfl (.inr ⟨rfl, rfl⟩)⟩

end Sys2Proof.Machine
end

section
/-! The pool's discipline (R66, R122, R126), said alike for both agents: each takes indices from one queue and gives
them to the other agent's, and between the two accesses what it holds. -/

namespace Sys2Proof.Machine

/-- The queue an agent takes its indices from: P from FREE, C from READY (R66). -/
def poolSource (free ready : Nat) : Agent → Nat
  | .producer => free
  | .consumer => ready

/-- Each agent pops the queue it takes from and pushes the one the other agent takes from, and both can hold all the
indices (R117, R126). -/
structure PoolPorts (c : Config) (src : Agent → Nat) : Prop where
  inRange (a : Agent) : src a < c.nq
  popper (a : Agent) : (c.queue (src a)).popper = a
  pusher (a : Agent) : (c.queue (src a.other)).pusher = a
  room (a : Agent) : c.nbuf + 1 ≤ (c.queue (src a)).cap

theorem poolPorts_of_poolConfig {c : Config} {free ready : Nat} (h : poolConfig c free ready) :
    PoolPorts c (poolSource free ready) := by
  obtain ⟨-, hfree, hready, hfpush, hfpop, hrpush, hrpop, hfroom, hrroom⟩ := h
  exact ⟨Agent.forall_iff.2 ⟨hfree, hready⟩, Agent.forall_iff.2 ⟨hfpop, hrpop⟩, Agent.forall_iff.2 ⟨hrpush, hfpush⟩,
    Agent.forall_iff.2 ⟨hfroom, hrroom⟩⟩

/-- The two agents take from different queues. -/
theorem PoolPorts.source_ne {c : Config} {src : Agent → Nat} (h : PoolPorts c src) {a b : Agent} (hab : b ≠ a) :
    src b ≠ src a := by
  intro heq
  have hpopper := h.popper b
  rw [heq, h.popper a] at hpopper
  exact hab hpopper.symm

/-- What the discipline allows agent `a` while it holds `held`: to take an index while it holds none, to access or to
give away the one it holds, and for C to read the frame buffer. -/
inductive PoolRequest (src : Agent → Nat) (a : Agent) : Option Nat → Instr → Prop where
  | takes {q : Byte} : q.toNat = src a → PoolRequest src a none (.pop q)
  | gives {q : Byte} (v : Word32) : q.toNat = src a.other → PoolRequest src a (some v.toNat) (.push q v)
  | accesses {i : Instr} {n : Nat} {kind : AccessKind} : bufferAccess i = some (n, kind) →
      (kind = .write → a = .producer) → (∀ c, portOpenTo c a i = true) → PoolRequest src a (some n) i
  | reads {held : Option Nat} (idx : Word32) : a = .consumer → PoolRequest src a held (.fbRead idx)

/-- The discipline of the statements is this one. -/
theorem poolRequest_of_poolAllows {free ready : Nat} {a : Agent} {held : Option Nat} {i : Instr}
    (h : poolAllows free ready a held i = true) : PoolRequest (poolSource free ready) a held i := by
  unfold poolAllows at h
  split at h
  case h_1 | h_8 => exact .takes (beq_iff_eq.1 h)
  case h_2 | h_3 | h_4 | h_5 | h_6 | h_9 | h_10 | h_11 =>
    cases beq_iff_eq.1 h
    exact .accesses rfl (by simp) fun _ => rfl
  case h_7 | h_13 =>
    obtain ⟨hq, hv⟩ := Bool.and_eq_true_iff.1 h
    cases beq_iff_eq.1 hv
    exact .gives _ (beq_iff_eq.1 hq)
  case h_12 => exact .reads _ rfl
  case h_14 => cases h

theorem PoolRequest.isRequest {src : Agent → Nat} {a : Agent} {held : Option Nat} {i : Instr}
    (h : PoolRequest src a held i) : i.isRequest = true := by
  cases h with
  | takes => rfl
  | gives => rfl
  | accesses hi => exact isRequest_of_bufferAccess hi
  | reads => rfl

/-! ### Open buffers -/

/-- No access that agent `a` may make to the buffer conflicts with one that clock `k` does not know (R46); only P
writes (R32). -/
def Buffer.OpenTo (B : Buffer) (a : Agent) (k : Clock) : Prop :=
  ∀ kind, (kind = .write → a = .producer) → B.races a k kind = false

theorem Buffer.races_eq_false {B : Buffer} {a : Agent} {k : Clock} {kind : AccessKind} :
    B.races a k kind = false ↔
      (∀ t, B.lastWrite = some (a.other, t) → t ≤ k.get a.other) ∧
      (kind = .write → B.lastRead.get a.other ≤ k.get a.other) := by
  rw [← Bool.not_eq_true, Buffer.races_eq_true]
  simp

theorem Buffer.reset_openTo (a : Agent) (k : Clock) : Buffer.reset.OpenTo a k := fun kind _ =>
  Buffer.races_eq_false.2 ⟨by simp [Buffer.reset], by simp [Buffer.reset]⟩

/-- An agent that knows more meets no more conflicts. -/
theorem Buffer.OpenTo.mono {B : Buffer} {a : Agent} {k l : Clock} (h : B.OpenTo a k) (hle : k.Le l) : B.OpenTo a l :=
  fun kind hkind => by
    obtain ⟨hwrite, hread⟩ := Buffer.races_eq_false.1 (h kind hkind)
    exact Buffer.races_eq_false.2 ⟨fun t ht => (hwrite t ht).trans (hle _), fun hk => (hread hk).trans (hle _)⟩

/-- An agent's own access raises no conflict for it. -/
theorem Buffer.OpenTo.of_noteAccess {B B' : Buffer} {a : Agent} {k : Clock} {n : Nat} {kind : AccessKind}
    (h : B.OpenTo a k) (hwrite : B'.lastWrite = (B.noteAccess a n kind).lastWrite)
    (hread : B'.lastRead = (B.noteAccess a n kind).lastRead) : B'.OpenTo a k := fun kind' hkind => by
  obtain ⟨hw, hr⟩ := Buffer.races_eq_false.1 (h kind' hkind)
  rw [Buffer.races_eq_false, hwrite, hread]
  cases kind with
  | read => exact ⟨hw, by simpa [Buffer.noteAccess] using hr⟩
  | write => exact ⟨by simp [Buffer.noteAccess], by simp [Buffer.noteAccess]⟩

/-- To who knows all of an agent's epochs, a buffer is open whatever that agent has done to it: what a PUSH hands over
(R47). -/
theorem Buffer.NotBeyond.openTo {B : Buffer} {now : Agent → Nat} {a : Agent} {k : Clock} (h : B.NotBeyond now)
    (hknown : now a ≤ k.get a) : B.OpenTo a.other k := fun kind _ => by
  obtain ⟨hlast, hread⟩ := h
  rw [Buffer.races_eq_false, Agent.other_other]
  refine ⟨fun t ht => ?_, fun _ => (hread a).trans hknown⟩
  obtain ⟨rfl, hle⟩ := hlast a t ht
  exact hle.trans hknown

end Sys2Proof.Machine
end

section
/-! Who holds which index (R130): what a step of the pool's users does to the queues, to what they hold and to the
frames, and what every such step keeps. -/

namespace Sys2Proof.Machine

/-- What agent `a` does to the pool from `s` to `t`, and what it holds before and after: it takes the front of its
queue, it gives what it holds to the other agent's, it accesses what it holds, or it leaves the pool alone. With it the
frames that are thereby submitted, and how many are taken. -/
inductive PoolMove (src : Agent → Nat) (a : Agent) (s : State) :
    Option Nat → State → Option Nat → List (Nat × Buffer) → Nat → Prop where
  | takes {t : State} {e : Slot} : s.entries (src a) = e :: t.entries (src a) →
      t.entries (src a.other) = s.entries (src a.other) → sameBufs s t → (t.vc a) = (s.vc a).join e.clk →
      t.vc a.other = s.vc a.other →
      PoolMove src a s none t (some e.val.toNat) [] (if a = .consumer then 1 else 0)
  | gives {t : State} {v : Word32} : t.entries (src a) = s.entries (src a) →
      t.entries (src a.other) = s.entries (src a.other) ++ [⟨v, s.vc a⟩] → sameBufs s t → t.vc a.other = s.vc a.other →
      PoolMove src a s (some v.toNat) t none (if a = .producer then [(v.toNat, s.buf v.toNat)] else []) 0
  | accesses {t : State} {n : Nat} : (∀ b, t.entries (src b) = s.entries (src b)) → sameClocks s t →
      sameBufsBut n s t → ((s.buf n).OpenTo a (s.vc a) → (t.buf n).OpenTo a (s.vc a)) →
      (a = .consumer → (s.buf n).SameContent (t.buf n)) → PoolMove src a s (some n) t (some n) [] 0
  | keeps {t : State} {held : Option Nat} : (∀ b, t.entries (src b) = s.entries (src b)) → sameClocks s t →
      sameBufs s t → PoolMove src a s held t held [] 0

/-- The indices that agent `a` holds or can take next, in this order: what it holds, then its queue. -/
def State.poolRow (s : State) (src : Agent → Nat) (held : Agent → Option Nat) (a : Agent) : List Nat :=
  (held a).toList ++ (s.entries (src a)).map fun e => e.val.toNat

/-- Each index has one place, and in it the buffer is open to the agent that holds it or takes it next (R122, R130). -/
structure PoolOwned (src : Agent → Nat) (s : State) (held : Agent → Option Nat) : Prop where
  places (a : Agent) : (s.poolRow src held a ++ s.poolRow src held a.other).Perm (List.range s.cfg.nbuf)
  waiting (a : Agent) {e : Slot} : e ∈ s.entries (src a) → (s.buf e.val.toNat).OpenTo a e.clk
  holding (a : Agent) {n : Nat} : held a = some n → (s.buf n).OpenTo a (s.vc a)

/-- The rows of the two agents in one order are those in the other. -/
theorem perm_of_agent {f : Agent → List Nat} {l : List Nat} (a : Agent) (h : (f a ++ f a.other).Perm l) (b : Agent) :
    (f b ++ f b.other).Perm l := by
  rcases Agent.eq_or_other a b with rfl | rfl
  · exact h
  · rw [Agent.other_other]
    exact List.perm_append_comm.trans h

/-- What an agent holds is in no other place. -/
theorem PoolOwned.ne_held {src : Agent → Nat} {s : State} {held : Agent → Option Nat} (h : PoolOwned src s held)
    {a : Agent} {n : Nat} (hn : held a = some n) :
    (∀ b, ∀ e ∈ s.entries (src b), e.val.toNat ≠ n) ∧ n ∉ s.poolRow src held a.other := by
  have hnodup : (s.poolRow src held a ++ s.poolRow src held a.other).Nodup :=
    (h.places a).nodup_iff.2 List.nodup_range
  have hcons : n ∉ (s.entries (src a)).map (fun e => e.val.toNat) ++ s.poolRow src held a.other := by
    rw [State.poolRow, hn] at hnodup
    exact (List.nodup_cons.1 hnodup).1
  obtain ⟨hown, hother⟩ := not_or.1 (mt List.mem_append.2 hcons)
  refine ⟨fun b e he heq => ?_, hother⟩
  rcases Agent.eq_or_other a b with rfl | rfl
  · exact hown (heq ▸ List.mem_map_of_mem he)
  · exact hother (List.mem_append_right _ (heq ▸ List.mem_map_of_mem he))

/-- What holds of an agent and of the other one holds of both. -/
theorem Agent.forall_of_other {P : Agent → Prop} {a : Agent} (hown : P a) (hother : P a.other) (b : Agent) : P b := by
  rcases Agent.eq_or_other a b with rfl | rfl
  · exact hown
  · exact hother

section
variable {src : Agent → Nat} {s t : State} {held held' : Agent → Option Nat} {a : Agent} {before after : Option Nat}
  {new : List (Nat × Buffer)} {got : Nat} (hmove : PoolMove src a s before t after new got)
  (hbefore : held a = before) (hafter : held' a = after) (hother : held' a.other = held a.other)
include hmove hbefore hafter hother

/-- A move takes no index away and brings none: it goes from the agent's row to the end of the other one's, or stays. -/
theorem PoolMove.places : (t.poolRow src held' a ++ t.poolRow src held' a.other).Perm
    (s.poolRow src held a ++ s.poolRow src held a.other) := by
  cases hmove with
  | takes hent hentOther => simp [State.poolRow, hbefore, hafter, hother, hent, hentOther]
  | @gives _ v hent hentOther =>
    have hrow : s.poolRow src held a = v.toNat :: t.poolRow src held' a := by
      simp [State.poolRow, hbefore, hafter, hent]
    have hrowOther : t.poolRow src held' a.other = s.poolRow src held a.other ++ [v.toNat] := by
      simp [State.poolRow, hother, hentOther]
    rw [hrow, hrowOther, ← List.append_assoc]
    exact List.perm_append_singleton _ _
  | accesses hent | keeps hent => simp [State.poolRow, hbefore, hafter, hother, hent]

variable (h : PoolOwned src s held)
include h

/-- Behind a move the buffer of each index in a queue is open to the agent that takes it next. -/
theorem PoolMove.waiting (hclocks : s.clocksOk = true) (b : Agent) {e : Slot} (he : e ∈ t.entries (src b)) :
    (t.buf e.val.toNat).OpenTo b e.clk := by
  obtain ⟨-, -, hnotBeyond⟩ := State.clocksOk_iff.1 hclocks
  cases hmove with
  | takes hent hentOther hbufs =>
    rw [hbufs]
    rcases Agent.eq_or_other a b with rfl | rfl
    · exact h.waiting b (hent ▸ List.mem_cons_of_mem _ he)
    · exact h.waiting a.other (hentOther ▸ he)
  | gives hent hentOther hbufs =>
    rw [hbufs]
    rcases Agent.eq_or_other a b with rfl | rfl
    · exact h.waiting b (hent ▸ he)
    · rcases List.mem_append.1 (hentOther ▸ he) with hold | hnew
      · exact h.waiting a.other hold
      · cases List.mem_singleton.1 hnew
        exact (hnotBeyond _).openTo le_rfl
  | accesses hent _ hbufs =>
    obtain ⟨hapart, -⟩ := h.ne_held hbefore
    rw [hent] at he
    rw [hbufs _ (hapart b e he)]
    exact h.waiting b he
  | keeps hent _ hbufs =>
    rw [hbufs]
    exact h.waiting b (hent b ▸ he)

/-- Behind a move the buffer that an agent holds is open to it. -/
theorem PoolMove.holding : ∀ b n, held' b = some n → (t.buf n).OpenTo b (t.vc b) := by
  refine Agent.forall_of_other (a := a) (fun n hn => ?_) (fun n hn => ?_)
  · rw [hafter] at hn
    cases hmove with
    | takes hent _ hbufs hvc =>
      cases hn
      rw [hbufs, hvc]
      exact (h.waiting a (hent ▸ List.mem_cons_self)).mono (Clock.le_join_right _ _)
    | gives => cases hn
    | accesses _ hvc _ hopen =>
      cases hn
      rw [hvc]
      exact hopen (h.holding a hbefore)
    | keeps _ hvc hbufs =>
      rw [hbufs, hvc]
      exact h.holding a (hbefore.trans hn)
  · rw [hother] at hn
    have hheld := h.holding a.other hn
    cases hmove with
    | takes _ _ hbufs _ hvcOther | gives _ _ hbufs hvcOther => rwa [hbufs, hvcOther]
    | @accesses _ m _ hvc hbufs =>
      obtain ⟨-, hapart⟩ := h.ne_held hbefore
      have hne : n ≠ m := fun heq => hapart (by simp [State.poolRow, hn, heq])
      rwa [hbufs _ hne, hvc]
    | keeps _ hvc hbufs => rwa [hbufs, hvc]

/-- Every move keeps each index in one place, its buffer open to the one agent. -/
theorem PoolMove.owned (hclocks : s.clocksOk = true) (hcfg : t.cfg = s.cfg) : PoolOwned src t held' where
  places := perm_of_agent a ((hmove.places hbefore hafter hother).trans (hcfg ▸ h.places a))
  waiting := hmove.waiting hbefore hafter hother h hclocks
  holding b _ := hmove.holding hbefore hafter hother h b _

end

/-! ### The frames -/

/-- A frame as READY hands it over: its index and what P recorded, without the access record. -/
def frameContent (f : Nat × Buffer) : Nat × Memory × Nat × Bool := (f.1, f.2.bytes, f.2.cursor, f.2.writable)

/-- What C holds and what READY holds behind it are the last frames submitted, in their order, each with the content it
was submitted with; the frames before them have been taken and given back (R130). -/
structure FramesInOrder (src : Agent → Nat) (s : State) (held : Agent → Option Nat) (frames : List (Nat × Buffer))
    (taken : Nat) : Prop where
  order : (s.poolRow src held .consumer).map (fun n => frameContent (n, s.buf n)) =
    (frames.drop (taken - (held .consumer).toList.length)).map frameContent
  held_le : (held .consumer).toList.length ≤ taken
  taken_le : taken ≤ frames.length

/-- The content of a frame is that of its buffer. -/
theorem frameContent_congr {B B' : Buffer} (n : Nat) (h : B.SameContent B') :
    frameContent (n, B') = frameContent (n, B) := by
  obtain ⟨hbytes, hcursor, hwritable⟩ := h
  simp [frameContent, hbytes, hcursor, hwritable]

section
variable {src : Agent → Nat} {s t : State} {held held' : Agent → Option Nat} {frames : List (Nat × Buffer)}
  {taken n : Nat} (h : FramesInOrder src s held frames taken)
include h

/-- Where neither C's row nor the content of a buffer in it changes, the frames stay as they are. -/
theorem FramesInOrder.congr (hrow : t.poolRow src held' .consumer = s.poolRow src held .consumer)
    (hheld : held' .consumer = held .consumer)
    (hcontent : ∀ n ∈ s.poolRow src held .consumer, (s.buf n).SameContent (t.buf n)) :
    FramesInOrder src t held' frames taken := by
  refine ⟨?_, hheld ▸ h.held_le, h.taken_le⟩
  rw [hrow, hheld, ← h.order]
  exact List.map_congr_left fun n hn => frameContent_congr n (hcontent n hn)

variable (hbufs : sameBufs s t)
include hbufs

/-- C takes the frame at the front of its row. -/
theorem FramesInOrder.take (hrow : t.poolRow src held' .consumer = s.poolRow src held .consumer)
    (hbefore : held .consumer = none) (hafter : held' .consumer = some n) :
    FramesInOrder src t held' frames (taken + 1) := by
  have horder := h.order
  simp only [hbefore, Option.toList_none, List.length_nil, Nat.sub_zero] at horder
  refine ⟨?_, by simp [hafter], ?_⟩
  · simpa [hrow, hafter, hbufs _] using horder
  · have hlen : (t.poolRow src held' .consumer).length = frames.length - taken := by
      simpa [hrow] using congrArg List.length horder
    have hpos : 0 < (t.poolRow src held' .consumer).length := by simp [State.poolRow, hafter]
    omega

/-- C gives back the frame at the front of its row. -/
theorem FramesInOrder.giveBack (hrow : s.poolRow src held .consumer = n :: t.poolRow src held' .consumer)
    (hbefore : held .consumer = some n) (hafter : held' .consumer = none) :
    FramesInOrder src t held' frames taken := by
  have hle := h.held_le
  have horder := congrArg List.tail h.order
  simp only [hbefore, hrow, Option.toList_some, List.length_singleton, List.map_cons, List.tail_cons, ← List.map_tail,
    List.tail_drop] at hle horder
  rw [Nat.sub_add_cancel hle] at horder
  exact ⟨by simpa [hafter, hbufs _] using horder, by simp [hafter], h.taken_le⟩

/-- P submits a frame behind the others. -/
theorem FramesInOrder.submit (hrow : t.poolRow src held' .consumer = s.poolRow src held .consumer ++ [n])
    (hheld : held' .consumer = held .consumer) :
    FramesInOrder src t held' (frames ++ [(n, s.buf n)]) taken := by
  have htaken := h.taken_le
  refine ⟨?_, hheld ▸ h.held_le, by rw [List.length_append]; omega⟩
  rw [hrow, hheld, List.map_append, List.drop_append_of_le_length (by omega), List.map_append, ← h.order]
  simp [hbufs _]

end

/-- Every move of the pool keeps the frames in order, with the one it submits and the one it takes. -/
theorem FramesInOrder.move {src : Agent → Nat} {s t : State} {held held' : Agent → Option Nat} {a : Agent}
    {frames new : List (Nat × Buffer)} {taken got : Nat} (h : FramesInOrder src s held frames taken)
    (howned : PoolOwned src s held) (hmove : PoolMove src a s (held a) t (held' a) new got)
    (hother : held' a.other = held a.other) : FramesInOrder src t held' (frames ++ new) (taken + got) := by
  generalize hbefore : held a = before at hmove
  generalize hafter : held' a = after at hmove
  have sameContent {n : Nat} (heq : t.buf n = s.buf n) : (s.buf n).SameContent (t.buf n) := by
    rw [heq]; exact ⟨rfl, rfl, rfl⟩
  cases hmove with
  | takes hent hentOther hbufs =>
    rw [List.append_nil]
    cases a with
    | producer =>
      have hrow : t.poolRow src held' .consumer = s.poolRow src held .consumer :=
        congrArg₂ (fun l es => Option.toList l ++ es.map fun e => e.val.toNat) hother hentOther
      exact h.congr hrow hother fun n _ => sameContent (hbufs n)
    | consumer => exact h.take hbufs (by simp [State.poolRow, hbefore, hafter, hent]) hbefore hafter
  | @gives _ v hent hentOther hbufs =>
    cases a with
    | producer =>
      have hrow : t.poolRow src held' .consumer = s.poolRow src held .consumer ++ [v.toNat] := by
        refine (congrArg₂ (fun l es => Option.toList l ++ es.map fun e => e.val.toNat) hother hentOther).trans ?_
        simp [State.poolRow, Agent.other]
      exact h.submit hbufs hrow hother
    | consumer =>
      rw [if_neg (by decide), List.append_nil]
      exact h.giveBack hbufs (by simp [State.poolRow, hbefore, hafter, hent]) hbefore hafter
  | @accesses _ n hent _ hbufs _ hcontent =>
    rw [List.append_nil]
    have hheld := Agent.forall_of_other (P := fun b => held' b = held b) (hafter.trans hbefore.symm) hother .consumer
    refine h.congr (by rw [State.poolRow, hheld, hent, State.poolRow]) hheld fun m hm => ?_
    cases a with
    | producer =>
      obtain ⟨-, hapart⟩ := howned.ne_held hbefore
      exact sameContent (hbufs m fun heq => hapart (heq ▸ hm))
    | consumer =>
      by_cases heq : m = n
      · exact heq ▸ hcontent rfl
      · exact sameContent (hbufs m heq)
  | keeps hent _ hbufs =>
    rw [List.append_nil]
    have hheld := Agent.forall_of_other (P := fun b => held' b = held b) (hafter.trans hbefore.symm) hother .consumer
    exact h.congr (by rw [State.poolRow, hheld, hent, State.poolRow]) hheld fun m _ => sameContent (hbufs m)

end Sys2Proof.Machine
end

section
/-! Steps of the pool's users as moves of the pool: what a request that the discipline allows makes of the queues, of
what its agent holds and of the frames (R66, R122). -/

namespace Sys2Proof.Machine

theorem SameBlock.entries {s t : State} (h : SameBlock s t) (q : Nat) : t.entries q = s.entries q :=
  State.entries_congr (h.cap q) (h.queue q)

theorem SameBlock.vc {s t : State} (h : SameBlock s t) (a : Agent) : t.vc a = s.vc a := by
  cases a with
  | producer => exact h.vcP
  | consumer => exact h.vcC

/-- A move is of the block alone. -/
theorem PoolMove.of_sameBlock {src : Agent → Nat} {a : Agent} {s u w t : State} {before after : Option Nat}
    {new : List (Nat × Buffer)} {got : Nat} (hsu : SameBlock s u) (hwt : SameBlock w t)
    (h : PoolMove src a u before w after new got) : PoolMove src a s before t after new got := by
  have hbuf (b : Nat) (heq : w.buf b = u.buf b) : t.buf b = s.buf b := by rw [hwt.buf, heq, hsu.buf]
  cases h with
  | takes hent hentOther hbufs hvc hvcOther =>
    simp only [hsu.entries, hsu.vc, ← hwt.entries, ← hwt.vc] at hent hentOther hvc hvcOther
    exact .takes hent hentOther (fun b => hbuf b (hbufs b)) hvc hvcOther
  | gives hent hentOther hbufs hvcOther =>
    simp only [hsu.entries, hsu.vc, ← hwt.entries, ← hwt.vc] at hent hentOther hvcOther
    rw [hsu.buf]
    exact .gives hent hentOther (fun b => hbuf b (hbufs b)) hvcOther
  | accesses hent hvc hbufs hopen hcontent =>
    simp only [sameClocks, hsu.entries, hsu.vc, ← hwt.entries, ← hwt.vc] at hent hvc
    rw [hsu.buf, hsu.vc, ← hwt.buf] at hopen
    rw [hsu.buf, ← hwt.buf] at hcontent
    exact .accesses hent hvc (fun b hb => hbuf b (hbufs b hb)) hopen hcontent
  | keeps hent hvc hbufs =>
    simp only [sameClocks, hsu.entries, hsu.vc, ← hwt.entries, ← hwt.vc] at hent hvc
    exact .keeps hent hvc fun b => hbuf b (hbufs b)

/-! ### One request -/

section
variable {src : Agent → Nat} {a : Agent} {s t : State} (hports : PoolPorts s.cfg src) (hinv : s.inv = true)
  (ha : s.issuer = a)
include hports hinv ha

/-- A POP of the agent's queue takes the front index. -/
theorem poolMove_of_pop {q : Byte} (hq : q.toNat = src a) (hempty : (s.queue q.toNat).empty = false)
    (h : exec (.pop q) s = .next t) (hv : t.fault.valid = false) :
    PoolMove src a s none t (some (s.queue q.toNat).front.val.toNat) [] (if a = .consumer then 1 else 0) := by
  have hring := State.ring_of_inv hinv (hq ▸ hports.inRange a)
  obtain ⟨-, -, rfl⟩ := (exec_orderStep h hv).of_pop hempty
  refine .takes (hq ▸ ?_) ?_ (fun b => by simp) ?_ ?_
  · rw [State.entries_respond]
    exact State.entries_popOff hring hempty
  · rw [State.entries_respond, hq, State.entries_popOff_ne (hports.source_ne (Agent.other_ne a))]
  · rw [State.vc_respond, State.vc_popOff_self ha]
  · rw [State.vc_respond, State.vc_popOff_other ha]

/-- A PUSH on the other agent's queue gives it the index. -/
theorem poolMove_of_push {q : Byte} {v : Word32} (hq : q.toNat = src a.other)
    (hfull : (s.queue q.toNat).full (s.cap q.toNat) = false) (h : exec (.push q v) s = .next t)
    (hv : t.fault.valid = false) :
    PoolMove src a s (some v.toNat) t none (if a = .producer then [(v.toNat, s.buf v.toNat)] else []) 0 := by
  have hring := State.ring_of_inv hinv (hq ▸ hports.inRange a.other)
  obtain ⟨-, -, rfl⟩ := (exec_orderStep h hv).of_push hfull
  refine .gives ?_ (hq ▸ ?_) (fun b => by simp) ?_
  · rw [State.entries_respond, hq, State.entries_pushOn_ne (hports.source_ne (Agent.ne_other a))]
  · rw [State.entries_respond, State.entries_pushOn hring hfull, ha]
  · rw [State.vc_respond, State.vc_pushOn_other ha]

end

/-- An access to the buffer held leaves it open to its agent, and C's leaves its content. -/
theorem poolMove_of_access {src : Agent → Nat} {a : Agent} {s t : State} {i : Instr} {n : Nat} {kind : AccessKind}
    (ha : s.issuer = a) (hi : bufferAccess i = some (n, kind)) (h : exec i s = .next t) (hv : t.fault.valid = false) :
    PoolMove src a s (some n) t (some n) [] 0 := by
  subst ha
  have hreq := isRequest_of_bufferAccess hi
  have hdone := completes_of_requestEffect hreq (requestEffect_of_exec hreq h hv)
  obtain ⟨hqueues, hvc, hbufs, hwrite, hread⟩ := hdone.of_access hi
  exact .accesses (fun b => State.entries_congr (by rw [State.cap, exec_cfg h, State.cap]) (hqueues _)) hvc hbufs
    (fun hopen => hopen.of_noteAccess hwrite hread) fun hc => hdone.sameContent_of_consumer hc n

/-- An answer alone leaves the pool alone. -/
theorem poolMove_respond (src : Agent → Nat) (a : Agent) (s : State) (held : Option Nat) (r : Response) :
    PoolMove src a s held (s.respond r) held [] 0 :=
  .keeps (fun b => State.entries_respond _ _ _) (sameClocks_respond s r) fun b => by simp

/-- A POP that finds its queue empty answers so and does nothing else (R68). -/
theorem popped_of_empty {s t : State} {q : Byte} (h : exec (.pop q) s = .next t) (hv : t.fault.valid = false)
    (hempty : (s.queue q.toNat).empty = true) : t = s.respond popEmptyResponse := by
  obtain ⟨-, -, ⟨-, rfl⟩ | ⟨hne, -⟩⟩ := popEffect_eq_ok.1 (requestEffect_of_exec rfl h hv)
  · rfl
  · cases hempty.symm.trans hne

/-! ### The frames that a request submits and takes -/

section
variable {free ready : Nat} {s : State} {a : Agent} {i : Instr} (h : s.nextRequest = some (a, i))
include h

theorem State.submitted_of_push {q : Byte} {v : Word32} (hi : i = .push q v)
    (hq : q.toNat = poolSource free ready a.other) (hfull : (s.queue q.toNat).full (s.cap q.toNat) = false) :
    s.submitted ready = if a = .producer then [(v.toNat, s.buf v.toNat)] else [] := by
  subst hi
  rw [State.cap] at hfull
  cases a with
  | producer =>
    change q.toNat = ready at hq
    subst hq
    simp [State.submitted, h, hfull]
  | consumer => simp [State.submitted, h]

theorem State.submitted_of_not_push (hi : ∀ q v, i ≠ .push q v) : s.submitted ready = [] := by
  unfold State.submitted
  split
  next q v hnext =>
    cases h.symm.trans hnext
    exact absurd rfl (hi q v)
  next => rfl

theorem State.consumed_of_pop {q : Byte} (hi : i = .pop q) (hq : q.toNat = poolSource free ready a) :
    s.consumed ready = if (s.queue q.toNat).empty then 0 else if a = .consumer then 1 else 0 := by
  subst hi
  cases a with
  | producer => simp [State.consumed, h]
  | consumer =>
    change q.toNat = ready at hq
    subst hq
    cases hempty : (s.queue q.toNat).empty <;> simp [State.consumed, h, hempty]

theorem State.consumed_of_not_pop (hi : ∀ q, i ≠ .pop q) : s.consumed ready = 0 := by
  unfold State.consumed
  split
  next q hnext =>
    cases h.symm.trans hnext
    exact absurd rfl (hi q)
  next => rfl

end

theorem State.heldAfter_of_no_queue {s : State} {a : Agent} {i : Instr} (hpush : ∀ q v, i ≠ .push q v)
    (hpop : ∀ q, i ≠ .pop q) : s.heldAfter a i = s.heldBy a := by
  unfold State.heldAfter
  split
  next q => exact absurd rfl (hpop q)
  next q v => exact absurd rfl (hpush q v)
  next => rfl

/-- A request of the discipline, performed without a fault in the block of `s`, is a move of the pool to what its agent
holds afterwards, with the frames that the step submits and takes. -/
theorem PoolRequest.move {free ready : Nat} {s u w : State} {a : Agent} {i : Instr}
    (h : PoolRequest (poolSource free ready) a (s.heldBy a) i) (hnext : s.nextRequest = some (a, i))
    (hports : PoolPorts s.cfg (poolSource free ready)) (hinv : s.inv = true)
    (hroom : ∀ n q, s.heldBy a = some n → q = poolSource free ready a.other → (s.queue q).full (s.cap q) = false)
    (hsu : SameBlock s u) (ha : u.issuer = a) (hexec : exec i u = .next w) (hv : w.fault.valid = false) :
    PoolMove (poolSource free ready) a s (s.heldBy a) w (s.heldAfter a i) (s.submitted ready) (s.consumed ready) := by
  refine PoolMove.of_sameBlock hsu (SameBlock.refl w) ?_
  have hports' : PoolPorts u.cfg (poolSource free ready) := hsu.cfg.symm ▸ hports
  have hinv' := hsu.inv hinv
  generalize hheld : s.heldBy a = held at h
  cases h with
  | @takes q hq =>
    rw [State.submitted_of_not_push hnext nofun, State.consumed_of_pop hnext rfl hq, State.heldAfter]
    cases hempty : (s.queue q.toNat).empty with
    | true =>
      rw [← hsu.queue] at hempty
      rw [popped_of_empty hexec hv hempty]
      exact poolMove_respond _ _ _ _ _
    | false =>
      rw [← hsu.queue] at hempty ⊢
      exact poolMove_of_pop hports' hinv' ha hq hempty hexec hv
  | @gives q v hq =>
    have hfull := hroom _ _ hheld hq
    rw [State.submitted_of_push hnext rfl hq hfull, State.consumed_of_not_pop hnext nofun, State.heldAfter, ← hsu.buf]
    rw [← hsu.queue, ← hsu.cap] at hfull
    exact poolMove_of_push hports' hinv' ha hq hfull hexec hv
  | @accesses _ n kind hi =>
    have hpush (q : Byte) (v : Word32) : i ≠ .push q v := by rintro rfl; cases hi
    have hpop (q : Byte) : i ≠ .pop q := by rintro rfl; cases hi
    rw [State.submitted_of_not_push hnext hpush, State.consumed_of_not_pop hnext hpop,
      State.heldAfter_of_no_queue hpush hpop, hheld]
    exact poolMove_of_access ha hi hexec hv
  | reads idx =>
    rw [State.submitted_of_not_push hnext nofun, State.consumed_of_not_pop hnext nofun,
      State.heldAfter_of_no_queue (i := .fbRead idx) nofun nofun, hheld]
    obtain ⟨-, -, rfl⟩ := fbReadEffect_eq_ok.1 (requestEffect_of_exec (i := .fbRead idx) rfl hexec hv)
    exact poolMove_respond _ _ _ _ _

end Sys2Proof.Machine
end

section
/-! The pool along a run (R130): what its boot gives and every step of its users keeps. -/

namespace Sys2Proof.Machine

/-- What holds at every state without a fault of a run of the pool: a block in shape with its clocks in order, each
index in one place with its buffer open there, and the frames in order. -/
structure PoolInv (free ready : Nat) (s : State) (frames : List (Nat × Buffer)) (taken : Nat) : Prop where
  inv : s.inv = true
  clocks : s.clocksOk = true
  ports : PoolPorts s.cfg (poolSource free ready)
  owned : PoolOwned (poolSource free ready) s s.heldBy
  frames : FramesInOrder (poolSource free ready) s s.heldBy frames taken

section
variable {free ready : Nat} {s : State} {frames : List (Nat × Buffer)} {taken : Nat}
  (h : PoolInv free ready s frames taken)
include h

/-- There are as many indices as buffers. -/
theorem PoolInv.length_rows (a : Agent) :
    (s.heldBy a).toList.length + (s.contents (poolSource free ready a)).length +
      ((s.heldBy a.other).toList.length + (s.contents (poolSource free ready a.other)).length) = s.cfg.nbuf := by
  rw [Nat.add_assoc]
  simpa [State.poolRow, State.entries_length] using (h.owned.places a).length_eq

/-- An index that is held is a buffer's number. -/
theorem PoolInv.held_lt {a : Agent} {n : Nat} (hn : s.heldBy a = some n) : n < s.cfg.nbuf := by
  refine List.mem_range.1 ((h.owned.places a).subset (List.mem_append_left _ (List.mem_append_left _ ?_)))
  simp [hn]

/-- A queue has room for an index that is held (R126). -/
theorem PoolInv.not_full {a : Agent} {n q : Nat} (hn : s.heldBy a = some n) (hq : q = poolSource free ready a.other) :
    (s.queue q).full (s.cap q) = false := by
  subst hq
  refine (State.ring_of_inv h.inv (h.ports.inRange a.other)).full_eq_false ?_
  have hlen := h.length_rows a
  have hroom : s.cfg.nbuf + 1 ≤ s.cap (poolSource free ready a.other) := h.ports.room a.other
  simp only [hn, Option.toList_some, List.length_singleton] at hlen
  omega

end

/-! ### One step -/

/-- Who holds what depends on the agent's own port alone. -/
theorem State.heldBy_congr {s t : State} {a : Agent} (h : t.agent a = s.agent a) : t.heldBy a = s.heldBy a := by
  cases a with
  | producer =>
    have hp : t.agentP = s.agentP := h
    rw [State.heldBy, State.heldIndex, State.opening, h, hp]
    rfl
  | consumer => rw [State.heldBy, State.heldIndex, h]; rfl

/-- A step at a word that is an encoding performs its request. -/
theorem State.nextRequest_eq {s : State} {a : Agent} {r : Packet} {i : Instr} (ha : s.nextAgent = some a)
    (hr : (s.agent a).outstanding = some r) (hi : decodeRequest r = .ok i) : s.nextRequest = some (a, i) := by
  simp [State.nextRequest, ha, hr, hi]

/-- A step without a request submits no frame and takes none. -/
theorem State.submitted_consumed_of_none {s : State} (h : s.nextRequest = none) (ready : Nat) :
    s.submitted ready = [] ∧ s.consumed ready = 0 := by
  simp [State.submitted, State.consumed, h]

section
variable {free ready : Nat} {s t : State} {frames : List (Nat × Buffer)} {taken : Nat} {a : Agent}
  (h : PoolInv free ready s frames taken)
include h

/-- The step of an agent that keeps to the discipline is a move of the pool. -/
theorem PoolInv.move_of_agentStep (ha : s.nextAgent = some a) (hstep : AgentStep a s.countChoice t)
    (hpool : poolStep free ready s t = true) (hv : t.fault.valid = false) :
    PoolMove (poolSource free ready) a s (s.heldBy a) t (t.heldBy a) (s.submitted ready) (s.consumed ready) := by
  have hcount := SameBlock.countChoice s
  cases hstep with
  | moves hout hblock =>
    rw [State.agent_countChoice] at hout
    have hheld : t.heldBy a = s.heldBy a := by simpa [poolStep, ha, hout] using hpool
    obtain ⟨hnone, hzero⟩ := State.submitted_consumed_of_none (s := s) (by simp [State.nextRequest, ha, hout]) ready
    rw [hheld, hnone, hzero]
    have hst := hcount.trans hblock
    exact .keeps (fun b => hst.entries _) hst.vc hst.buf
  | @requests r u w _ hout hsu hissuer hperform hwt =>
    rw [State.agent_countChoice] at hout
    cases hdec : decodeRequest r with
    | error e => simp [poolStep, ha, hout, hdec] at hpool
    | ok i =>
      obtain ⟨hallow, hafter⟩ : poolAllows free ready a (s.heldBy a) i = true ∧ t.heldBy a = s.heldAfter a i := by
        simpa [poolStep, ha, hout, hdec, hv] using hpool
      rw [performWord_of_decode hdec] at hperform
      rw [hafter]
      refine PoolMove.of_sameBlock (SameBlock.refl s) hwt ?_
      exact (poolRequest_of_poolAllows hallow).move (State.nextRequest_eq ha hout hdec) h.ports h.inv
        (fun n q hn => h.not_full hn) (hcount.trans hsu) hissuer hperform (hwt.fault ▸ hv)

/-- Every step of the pool's users is a move of the pool by one agent; the other one holds what it held. -/
theorem PoolInv.exists_move (hphase : s.phase = .released) (hhost : s.host = []) (hstep : step s = .next t)
    (hpool : poolStep free ready s t = true) (hv : t.fault.valid = false) :
    ∃ a, t.heldBy a.other = s.heldBy a.other ∧
      PoolMove (poolSource free ready) a s (s.heldBy a) t (t.heldBy a) (s.submitted ready) (s.consumed ready) := by
  obtain ⟨-, ⟨hnone, rfl⟩ | ⟨a, ha, hagent⟩⟩ := step_of_released hphase hhost hstep
  · obtain ⟨hsub, hcon⟩ := State.submitted_consumed_of_none (s := t) (by simp [State.nextRequest, hnone]) ready
    rw [hsub, hcon]
    exact ⟨.producer, rfl, .keeps (fun _ => rfl) (fun _ => rfl) fun _ => rfl⟩
  · have hcases := agentStep_cases hagent
    have hother := ((SameOutside.countChoice s a).trans hcases.sameOutside).other
    exact ⟨a, State.heldBy_congr hother, h.move_of_agentStep ha hcases hpool hv⟩

theorem PoolInv.step (hphase : s.phase = .released) (hhost : s.host = []) (hstep : Machine.step s = .next t)
    (hpool : poolStep free ready s t = true) (hv : t.fault.valid = false) :
    PoolInv free ready t (frames ++ s.submitted ready) (taken + s.consumed ready) := by
  obtain ⟨a, hother, hmove⟩ := h.exists_move hphase hhost hstep hpool hv
  have hcfg := step_cfg hstep
  exact ⟨everyStepKeepsTheStateInShape s t h.inv hstep, everyStepKeepsTheClocksInOrder s t h.clocks hstep,
    hcfg.symm ▸ h.ports, hmove.owned rfl rfl hother h.owned h.clocks hcfg, h.frames.move h.owned hmove hother⟩

end

/-! ### Whole runs -/

/-- Along a run of the pool the invariant holds while there is no fault, and no host action comes. -/
theorem PoolRun.poolInv {free ready : Nat} {s t : State} {frames : List (Nat × Buffer)} {taken : Nat}
    (hrun : PoolRun free ready s t frames taken) (hphase : s.phase = .released) (hhost : s.host = [])
    (h : PoolInv free ready s [] 0) :
    t.phase = .released ∧ t.host = [] ∧ t.cfg = s.cfg ∧
      (t.fault.valid = false → PoolInv free ready t frames taken) := by
  induction hrun with
  | start => exact ⟨hphase, hhost, rfl, fun _ => h⟩
  | step _ hstep hpool ih =>
    obtain ⟨hphase', hhost', hcfg, hinv⟩ := ih
    obtain ⟨hv, -⟩ := step_of_released hphase' hhost' hstep
    obtain ⟨hreleased, hnone⟩ := step_keeps_released hphase' hhost' hstep
    exact ⟨hreleased, hnone, (step_cfg hstep).trans hcfg, fun hv' => (hinv hv).step hphase' hhost' hstep hpool hv'⟩

/-- The boot leaves every index in FREE and every buffer untouched. -/
theorem Booted.poolInv {c : Config} {free ready : Nat} {s : State} (h : Booted c free s) (hc : poolConfig c free ready)
    (hp : s.heldBy .producer = none) (hq : s.heldBy .consumer = none) : PoolInv free ready s [] 0 := by
  have hports := poolPorts_of_poolConfig hc
  obtain ⟨hlegal, -⟩ := hc
  obtain ⟨-, -, -, -, hnbuf, -⟩ := Config.legal_iff.1 hlegal
  have hne : ready ≠ free := hports.source_ne (a := .producer) (b := .consumer) (by decide)
  have hready : s.entries ready = [] := by rw [State.entries, h.untouched hne, Queue.entries_reset]
  have hrowP : s.poolRow (poolSource free ready) s.heldBy .producer = List.range s.cfg.nbuf := by
    rw [State.poolRow, hp, poolSource, h.filled, h.cfg, preloadedSlots, bufferIndices, List.map_map, List.map_map]
    refine (List.map_congr_left fun n hn => ?_).trans (List.map_id _)
    have hlt : n < 2 ^ 32 := Nat.lt_of_lt_of_le (List.mem_range.1 hn) (hnbuf.trans (by decide))
    simpa using hlt
  have hrowC : s.poolRow (poolSource free ready) s.heldBy .consumer = [] := by
    rw [State.poolRow, hq, poolSource, hready]; rfl
  refine ⟨h.inv, h.clocks, h.cfg.symm ▸ hports, ⟨?_, ?_, ?_⟩, ⟨?_, ?_, le_rfl⟩⟩
  · refine perm_of_agent .producer ?_
    rw [hrowP, show s.poolRow (poolSource free ready) s.heldBy Agent.producer.other = [] from hrowC, List.append_nil]
  · intro a e _
    rw [h.buf]
    exact Buffer.reset_openTo _ _
  · intro a n _
    rw [h.buf]
    exact Buffer.reset_openTo _ _
  · simp [hrowC]
  · simp [hq]

end Sys2Proof.Machine
end

section
/-! What the invariant of the pool says of a state: its places, the requests that the discipline allows there, and its
frames (R126, R130). -/

namespace Sys2Proof.Machine

/-- An index as an entry of a queue. -/
def indexEntry (n : Nat) : Option Word32 := some (BitVec.ofNat 32 n)

/-- The discipline allows no reserved OP. -/
theorem PoolRequest.not_applies_illegalRequest {src : Agent → Nat} {a : Agent} {held : Option Nat} {i : Instr}
    {u : State} (hreq : PoolRequest src a held i) : ¬ applies i u .illegalRequest := by
  rintro (⟨op, rest, rfl⟩ | ⟨op, rest, rfl⟩)
  all_goals
    cases hreq with
    | accesses hi => cases hi

section
variable {free ready : Nat} {s : State} {frames : List (Nat × Buffer)} {taken : Nat}
  (h : PoolInv free ready s frames taken)
include h

/-- The contents of an agent's queue are the indices of its row behind what it holds. -/
theorem PoolInv.contents_eq (a : Agent) : s.contents (poolSource free ready a) =
    ((s.entries (poolSource free ready a)).map fun e => e.val.toNat).map indexEntry := by
  rw [(State.queueOk_of_inv h.inv (h.ports.inRange a)).contents_eq]
  simp [indexEntry]

theorem PoolInv.map_poolRow (a : Agent) :
    (s.poolRow (poolSource free ready) s.heldBy a).map indexEntry =
      (s.heldBy a).toList.map indexEntry ++ s.contents (poolSource free ready a) := by
  rw [h.contents_eq, State.poolRow, List.map_append]

/-- Each index is in exactly one of the four places (R130). -/
theorem PoolInv.poolPlaces_perm : (s.poolPlaces free ready).Perm ((List.range s.cfg.nbuf).map indexEntry) := by
  have hrows := (h.owned.places .producer).map indexEntry
  rw [List.map_append, h.map_poolRow, h.map_poolRow] at hrows
  have hplaces : s.poolPlaces free ready = s.contents free ++ s.contents ready ++
      ((s.heldBy .producer).toList.map indexEntry ++ (s.heldBy .consumer).toList.map indexEntry) := by
    rw [← List.map_append]; rfl
  rw [hplaces]
  refine List.Perm.trans (List.perm_iff_count.2 fun x => ?_) hrows
  simp only [List.count_append, poolSource, Agent.other]
  omega

/-- P's POP of FREE finds none exactly where FREE is empty (R130). -/
theorem PoolInv.exec_pop_free (hv : s.fault.valid = false) {u : Byte} (hu : u.toNat = free) :
    ∃ w r, exec (.pop u) (s.setIssuer .producer) = .next w ∧ w.agentP.resp = some r ∧
      (responseOk r = false ↔ s.contents free = []) := by
  have hq : u.toNat < s.cfg.nq := hu ▸ h.ports.inRange .producer
  have hport : Agent.producer = (s.cfg.queue u.toNat).popper := (hu ▸ h.ports.popper .producer).symm
  obtain ⟨w, r, hexec, hresp, hok⟩ := exec_pop_answers (s := s.setIssuer .producer) hv hq hport
  refine ⟨w, r.word, hexec, hresp, ?_⟩
  rw [responseOk_word, hok, Bool.not_eq_false', ← hu]
  exact (State.ring_of_inv h.inv hq).empty_iff

/-- FREE is empty exactly where all indices are in READY or held (R130). -/
theorem PoolInv.contents_free_eq_nil_iff : s.contents free = [] ↔
    (s.contents ready).length + (s.heldBy .producer).toList.length + (s.heldBy .consumer).toList.length =
      s.cfg.nbuf := by
  have hlen : (s.heldBy .producer).toList.length + (s.contents free).length +
      ((s.heldBy .consumer).toList.length + (s.contents ready).length) = s.cfg.nbuf := h.length_rows .producer
  rw [← List.length_eq_zero_iff]
  omega

section
variable {a : Agent} {i : Instr} (hreq : PoolRequest (poolSource free ready) a (s.heldBy a) i)
include hreq

/-- Its queues and its buffers exist. -/
theorem PoolInv.not_applies_badUnit : ¬ applies i (s.setIssuer a) .badUnit := by
  generalize hheld : s.heldBy a = held at hreq
  cases hreq with
  | takes hq => simpa [applies, bufferAccess, hq] using h.ports.inRange a
  | gives v hq => simpa [applies, bufferAccess, hq] using h.ports.inRange a.other
  | accesses hi =>
    rw [applies_badUnit_iff hi]
    exact Nat.not_le_of_lt (h.held_lt hheld)
  | reads => simp [applies, bufferAccess]

/-- Each agent uses its own ports. -/
theorem PoolInv.not_applies_portViolation : ¬ applies i (s.setIssuer a) .portViolation := by
  generalize hheld : s.heldBy a = held at hreq
  cases hreq with
  | takes hq => simp [applies, portOpenTo, hq, h.ports.popper]
  | gives v hq => simp [applies, portOpenTo, hq, h.ports.pusher]
  | accesses _ _ hport => simp [applies, hport]
  | reads _ ha => simp [applies, portOpenTo, ha]

/-- The buffer that an agent holds is open to it (R122). -/
theorem PoolInv.not_applies_dataRace : ¬ applies i (s.setIssuer a) .dataRace := by
  generalize hheld : s.heldBy a = held at hreq
  cases hreq with
  | takes => simp [applies, bufferAccess]
  | gives => simp [applies, bufferAccess]
  | accesses hi hkind =>
    rw [applies_dataRace_iff hi, conflicts_iff, Bool.not_eq_true]
    simpa using h.owned.holding a hheld _ hkind
  | reads => simp [applies, bufferAccess]

/-- A request of the discipline answers a next state; where it faults, it is by one of the codec's own checks (R126). -/
theorem PoolInv.exec_of_poolRequest (hv : s.fault.valid = false) :
    ∃ w, exec i (s.setIssuer a) = .next w ∧ (w.fault.valid = true → 5 ≤ w.fault.cause.toNat) := by
  cases heff : requestEffect i (s.setIssuer a) with
  | ok w =>
    refine ⟨w, exec_request_ok hreq.isRequest hv heff, fun hw => ?_⟩
    rw [(completes_of_requestEffect hreq.isRequest heff).fault] at hw
    cases hv.symm.trans hw
  | error e =>
    refine ⟨_, exec_request_error hreq.isRequest hv heff, fun _ => ?_⟩
    obtain ⟨he, -⟩ := lowest_of_requestEffect_error hreq.isRequest heff
    cases e with
    | illegalRequest => exact absurd he hreq.not_applies_illegalRequest
    | badUnit => exact absurd he (h.not_applies_badUnit hreq)
    | portViolation => exact absurd he (h.not_applies_portViolation hreq)
    | dataRace => exact absurd he (h.not_applies_dataRace hreq)
    | encNotWritable | encOverflow | badLength | fbIndex | unwrittenRead => simp [Cause.code]

end

/-- Every PUSH of the discipline finds room and succeeds (R126). -/
theorem PoolInv.resp_of_push (hv : s.fault.valid = false) {a : Agent} {q : Byte} {v : Word32} {w : State}
    (hreq : PoolRequest (poolSource free ready) a (s.heldBy a) (.push q v))
    (hexec : exec (.push q v) (s.setIssuer a) = .next w) : (w.agent a).resp = some (Response.word { ok := true }) := by
  generalize hheld : s.heldBy a = held at hreq
  cases hreq with
  | gives _ hq =>
    have hpush := exec_push_of_not_full (s := s.setIssuer a) v hv (hq ▸ h.ports.inRange a.other)
      (by rw [hq]; exact (h.ports.pusher a).symm) (h.not_full hheld hq)
    cases hpush.symm.trans hexec
    exact State.resp_respond _ (by simp [State.pushOn])
  | accesses hi => cases hi

/-- C's row is the indices of the frames that are in it. -/
theorem PoolInv.poolRow_consumer : s.poolRow (poolSource free ready) s.heldBy .consumer =
    (frames.drop (taken - (s.heldBy .consumer).toList.length)).map Prod.fst := by
  simpa [frameContent, Function.comp_def] using congrArg (List.map Prod.fst) h.frames.order

/-- READY holds the frames that have not been taken, in their order (R130). -/
theorem PoolInv.contents_ready : s.contents ready = (frames.drop taken).map fun f => indexEntry f.1 := by
  have hentries := congrArg (List.drop (s.heldBy .consumer).toList.length) h.poolRow_consumer
  rw [State.poolRow, List.drop_left, ← List.map_drop, List.drop_drop, Nat.sub_add_cancel h.frames.held_le] at hentries
  have hcontents : s.contents ready = _ := h.contents_eq .consumer
  rw [hcontents, hentries, List.map_map]
  rfl

/-- What C holds is the last frame taken, with the content P left in it (R130). -/
theorem PoolInv.held_consumer {n : Nat} (hn : s.heldBy .consumer = some n) :
    ∃ B, 0 < taken ∧ frames[taken - 1]? = some (n, B) ∧ (s.buf n).bytes = B.bytes ∧ (s.buf n).cursor = B.cursor ∧
      (s.buf n).writable = B.writable := by
  have htaken := h.frames.held_le
  have hfront := congrArg (fun l => l[0]?) h.frames.order
  simp only [State.poolRow, hn, Option.toList_some, List.length_singleton, List.singleton_append, List.map_cons,
    List.getElem?_cons_zero, List.getElem?_map, List.getElem?_drop, Nat.add_zero] at htaken hfront
  obtain ⟨⟨m, B⟩, hframe, hcontent⟩ := Option.map_eq_some_iff.1 hfront.symm
  obtain ⟨rfl, hbytes, hcursor, hwritable⟩ : m = n ∧ B.bytes = (s.buf n).bytes ∧ B.cursor = (s.buf n).cursor ∧
      B.writable = (s.buf n).writable := by simpa [frameContent] using hcontent
  exact ⟨B, htaken, hframe, hbytes.symm, hcursor.symm, hwritable.symm⟩

end

/-- What P holds is in its variable, or it is the buffer that P is about to open (log 15). -/
theorem State.heldBy_producer_cases (s : State) :
    s.heldBy .producer = s.heldIndex .producer ∨
      s.heldIndex .producer = none ∧ ∃ n, s.heldBy .producer = some n ∧ s.opening = some n := by
  rw [State.heldBy]
  cases s.heldIndex .producer with
  | some n => exact .inl rfl
  | none =>
    cases s.opening with
    | none => exact .inl rfl
    | some n => exact .inr ⟨rfl, n, rfl, rfl⟩

end Sys2Proof.Machine
end

section
/-! The obligation of 70_reset_and_hazards.md on the pool, settled. -/

namespace Sys2Proof.Machine

/-- Settles O59: the boot establishes the invariant of the pool, every step of its users keeps it, and each clause of
the law is read off it. -/
theorem poolConservationLaw : Obligations.PoolConservationLaw := by
  intro c free ready p q sched s t frames taken hc hboot hp hq hrun hv
  have ⟨hlegal, hfree, _, _, _, _, _, hroom, _⟩ := hc
  obtain ⟨s', hrun', hbooted⟩ := run_poolBoot p q sched hlegal hfree hroom
  cases hrun'.symm.trans hboot
  obtain ⟨-, -, hcfg, hinv⟩ := hrun.poolInv hbooted.phase hbooted.host (hbooted.poolInv hc hp hq)
  have h := hinv hv
  have hnbuf : t.cfg.nbuf = c.nbuf  := by rw [hcfg, hbooted.cfg]
  refine ⟨?_, rfl, t.heldBy_producer_cases, fun _ u hu => ?_, fun a i hallow => ?_, h.frames.taken_le, h.contents_ready,
    fun n hn => h.held_consumer hn⟩
  · rw [← hnbuf]
    exact h.poolPlaces_perm
  · obtain ⟨w, r, hexec, hresp, hok⟩ := h.exec_pop_free hv hu
    exact ⟨w, r, hexec, hresp, hok, hnbuf ▸ h.contents_free_eq_nil_iff⟩
  · have hreq := poolRequest_of_poolAllows hallow
    obtain ⟨w, hexec, hcause⟩ := h.exec_of_poolRequest hreq hv
    refine ⟨w, hexec, hcause, fun u v hi => ?_⟩
    subst hi
    exact h.resp_of_push hv hreq hexec

end Sys2Proof.Machine
end
